-- ==== Sys2Proof/Word.lean ====
section
/-! DEFINITION. The word types of the block and its wire constants (spec/00_scope.md R2, R9; spec/30_encoding.md R34). -/

namespace Sys2Proof

/-- A wire byte, payload byte or buffer byte: 8 bits (R9). -/
abbrev Byte := BitVec 8

/-- A CRC value, and the running checksum: 32 bits (R9). -/
abbrev Word := BitVec 32

/-- The boundary marker, which starts a frame (R34). -/
def MARKER : Byte := 0x7E

/-- The escape introducer (R34). -/
def ESCAPE : Byte := 0x7D

/-- The mask XORed into an escaped byte (R34; spec/90_conflicts.md C5: bit 5, not bit 6). -/
def FLIP : Byte := 0x20

/-- The two byte values the wire format reserves (R34). -/
def Reserved (b : Byte) : Bool := b == MARKER || b == ESCAPE

end Sys2Proof
end

