-- ==== Sys2Proof/Config.lean ====
section
/-! DEFINITION. What one piece of hardware fixes and the spec leaves open: constants with no body, so that nothing in Lean
can evaluate them and a claim holds whatever they are. -/

namespace Sys2Proof

/-- The two readings of when ENC_SINK detects a missing flush sink (spec/00_scope.md R8). -/
inductive FlushCheck where
  /-- Before any byte is emitted. -/
  | UPFRONT
  /-- At the flush step, after the frame's bytes. -/
  | AT_FLUSH
  deriving DecidableEq, Repr, Inhabited

/-- `P_FLUSH_CHECK`, a property of the hardware that the spec leaves OPEN (R8; spec/92_eei_decisions.md D10). Log entry 10. -/
opaque Config.pFlushCheck : FlushCheck

/-- FREE VALUE: the byte that host memory holds at an address nothing has written: "whatever the host left there"
(spec/10_state.md R16; spec/93_implementation_defined.md I4, "any value"). Log entry 2. -/
opaque Config.unwrittenByte : Nat → Byte

/-- FREE VALUE: the byte at an address of a lent receive buffer that its parser has not written since P_INIT, for each loan: "a
model must treat such a byte as holding no known value" (R16; R81; D33, I4: any value). Log entry 13. -/
opaque Config.lentByte : (loan addr : Nat) → Byte

end Sys2Proof
end

