-- ==== Sys2Proof/Syntax.lean ====
section
/-! DEFINITION. The instructions of spec/opcode_table.json: the six commands of spec/30_encoding.md R40 and the five wire byte
classes of R39, with the types of their operands. -/

namespace Sys2Proof

/-- The byte-order policy `P_ORDER` of the length and checksum fields (spec/00_scope.md R5). -/
inductive ByteOrder where
  | LE
  | BE
  deriving DecidableEq, Repr

/-- The four values of `reg.state` (spec/10_state.md R11). -/
inductive ParserState where
  /-- AwaitingMarker: bytes are pre-sync noise. -/
  | AM
  /-- ReadingLengthByte1. -/
  | RL1
  /-- ReadingLengthByte2. -/
  | RL2
  /-- ReadingPayload: payload bytes, then the 4 checksum bytes. -/
  | RP
  deriving DecidableEq, Repr

/-- The status codes an operation ends with (spec/30_encoding.md R41). -/
inductive Status where
  | OK
  | BUFFER_TOO_SMALL
  | CALLBACK_MISSING
  | SIZE_MISMATCH
  deriving DecidableEq, Repr

/-- A reference to a host byte buffer (R40, R24): where it lies in the host's memory and how many bytes it has. Its byte `i`
is the host's byte at `base + i`. That buffers have a place in one host memory is a DESIGN CHOICE (log entry 1). -/
structure BufRef where
  base : Nat
  size : Nat
  deriving DecidableEq, Repr

/-- `CTX`: "an opaque user context value passed back on every invocation" (spec/00_scope.md R7). A bare handle, on which
nothing computes (log entry 6). -/
structure Ctx where
  handle : Nat
  deriving DecidableEq, Repr

/-- The instructions: one constructor for each row of spec/opcode_table.json. -/
inductive Instr where
  /-- CRC32, opcode 0x01 (R45). -/
  | crc32 (src : BufRef) (n : Nat)
  /-- ESCSIZE, opcode 0x02 (R48). -/
  | escsize (src : BufRef) (n : Nat)
  /-- ENC_BUF, opcode 0x10 (R54). `len` is the payload length N, a 16-bit slot. -/
  | encBuf (src : BufRef) (len : BitVec 16) (dst : BufRef) (dstCap : Nat)
  /-- ENC_SINK, opcode 0x11 (R56). -/
  | encSink (src : BufRef) (len : BitVec 16) (flush : Bool)
  /-- P_INIT, opcode 0x20 (R59). -/
  | pInit (order : ByteOrder) (rx : BufRef) (rxCap : Nat) (hasPacket hasByte hasFlush : Bool) (ctx : Ctx)
  /-- P_FEED, opcode 0x21 (R68). -/
  | pFeed (src : BufRef) (n : Nat)
  /-- Wire byte class MARKER: 0x7E in any state (R61). -/
  | marker
  /-- Wire byte class NOISE: any byte but 0x7E in state AM (R62). -/
  | noise (b : Byte)
  /-- Wire byte class ESCAPED_DATA: any byte but 0x7E while an escape is pending (R63). -/
  | escapedData (b : Byte)
  /-- Wire byte class ESCAPE: 0x7D with no escape pending (R63). -/
  | escape
  /-- Wire byte class DATA: any byte that is not reserved, with no escape pending (R63 to R67). -/
  | data (b : Byte)
  deriving DecidableEq, Repr

end Sys2Proof
end

