-- ==== Sys2Proof/WellFormed.lean ====
section
/-! DEFINITION. Which instructions are well formed: every operand inside its slot's range (spec/30_encoding.md R42) and every
wire byte in its class (R39). -/

namespace Sys2Proof

/-- A buffer operand has the bytes the operation reads or may write (R42: "a `src` buffer shorter than `n`" is a bad
operand). -/
def BufRef.holds (r : BufRef) (n : Nat) : Bool := n ≤ r.size

/-- Every operand is inside its slot's range (R40, R42); a wire byte is one its class admits (R39). The 16-bit and 1-bit
slots are in range by their types. -/
def Instr.wf : Instr → Bool
  | .crc32 src n => src.holds n
  | .escsize src n => src.holds n
  | .encBuf src len dst dstCap => src.holds len.toNat && dst.holds dstCap
  | .encSink src len _ => src.holds len.toNat
  | .pInit _ rx rxCap _ _ _ _ => rx.holds rxCap
  | .pFeed src n => src.holds n
  | .marker => true
  | .noise b => b != MARKER
  | .escapedData b => b != MARKER
  | .escape => true
  | .data b => !Reserved b

end Sys2Proof
end

