-- ==== Sys2Proof/Decode.lean ====
section
/-! DEFINITION. Decoding, total and rejecting by name, and the encoder: commands (spec/30_encoding.md R40, R42), wire bytes
(R39), state codes (spec/10_state.md R11) and status codes (R41). -/

namespace Sys2Proof

/-- A command as it arrives at a command port: the opcode byte, then the operand slots in the order of R40's table. A buffer
reference takes two slots, its base and its size (DESIGN CHOICE, log entry 3). -/
structure Command where
  opcode : Byte
  slots : List Nat
  deriving DecidableEq, Repr

/-- What the decoder reads: a command, or a wire byte with the two parser registers that R39 classifies it by. -/
inductive Encoded where
  | command (c : Command)
  | wire (st : ParserState) (ep : Bool) (b : Byte)
  deriving DecidableEq, Repr

/-- Why a command is rejected (R42). -/
inductive Reject where
  /-- The opcode is not in R40's table. -/
  | undefinedOpcode
  /-- An operand is outside its slot's range. -/
  | badOperand
  deriving DecidableEq, Repr

/-- The 2-bit code of a parser state (spec/10_state.md R11). -/
def ParserState.code : ParserState → BitVec 2
  | .AM => 0b00
  | .RL1 => 0b01
  | .RL2 => 0b10
  | .RP => 0b11

/-- The numeric status code (R41). -/
def Status.code : Status → Byte
  | .OK => 0x00
  | .BUFFER_TOO_SMALL => 0x01
  | .CALLBACK_MISSING => 0x02
  | .SIZE_MISMATCH => 0x03

/-- The 1-bit code of the `order` slot: 0 = LE, 1 = BE (R40). -/
def ByteOrder.code : ByteOrder → Nat
  | .LE => 0
  | .BE => 1

/-- A 1-bit slot's value. -/
def bitCode (b : Bool) : Nat := if b then 1 else 0

/-- Read a 1-bit slot: any value above 1 is outside its range (R42). -/
def readBit : Nat → Option Bool
  | 0 => some false
  | 1 => some true
  | _ + 2 => none

/-- Read the `order` slot (R40). -/
def readOrder : Nat → Option ByteOrder
  | 0 => some .LE
  | 1 => some .BE
  | _ + 2 => none

/-- Read a 16-bit slot: a value above 65535 is outside its range (R42). -/
def readLen (n : Nat) : Option (BitVec 16) := if n < 65536 then some (BitVec.ofNat 16 n) else none

/-- The slots of format CMD_SRC: `src`, `n` (R40). -/
def readSrc (k : BufRef → Nat → Instr) : List Nat → Option Instr
  | [base, size, n] => some (k ⟨base, size⟩ n)
  | _ => none

/-- The slots of format CMD_ENCBUF: `src`, `N`, `dst`, `dst_cap` (R40). -/
def readEncBuf : List Nat → Option Instr
  | [base, size, n, dbase, dsize, cap] => (readLen n).map fun len => .encBuf ⟨base, size⟩ len ⟨dbase, dsize⟩ cap
  | _ => none

/-- The slots of format CMD_ENCSINK: `src`, `N`, `flush` (R40). -/
def readEncSink : List Nat → Option Instr
  | [base, size, n, flush] =>
    match readLen n, readBit flush with
    | some len, some f => some (.encSink ⟨base, size⟩ len f)
    | _, _ => none
  | _ => none

/-- The seven slots of format CMD_INIT (R40). -/
def readInit : List Nat → Option Instr
  | [order, base, size, cap, hp, hb, hf, ctx] =>
    match readOrder order, readBit hp, readBit hb, readBit hf with
    | some o, some p, some b, some f => some (.pInit o ⟨base, size⟩ cap p b f ⟨ctx⟩)
    | _, _, _, _ => none
  | _ => none

/-- An instruction read from its slots, with the range checks between its operands (R42: "a `src` buffer shorter than
`n`"). -/
def checkOperands : Option Instr → Except Reject Instr
  | some i => if i.wf then .ok i else .error .badOperand
  | none => .error .badOperand

/-- Decode a command by its opcode byte (R40); every other opcode is illegal (R42). -/
def decodeCommand (c : Command) : Except Reject Instr :=
  if c.opcode = 0x01 then checkOperands (readSrc .crc32 c.slots)
  else if c.opcode = 0x02 then checkOperands (readSrc .escsize c.slots)
  else if c.opcode = 0x10 then checkOperands (readEncBuf c.slots)
  else if c.opcode = 0x11 then checkOperands (readEncSink c.slots)
  else if c.opcode = 0x20 then checkOperands (readInit c.slots)
  else if c.opcode = 0x21 then checkOperands (readSrc .pFeed c.slots)
  else .error .undefinedOpcode

/-- Classify a wire byte by the first matching row of R39's table. No wire byte is illegal (R42). -/
def decodeWire (st : ParserState) (ep : Bool) (b : Byte) : Instr :=
  if b = MARKER then .marker
  else if st = .AM then .noise b
  else if ep then .escapedData b
  else if b = ESCAPE then .escape
  else .data b

/-- The decoder. -/
def decode : Encoded → Except Reject Instr
  | .command c => decodeCommand c
  | .wire st ep b => .ok (decodeWire st ep b)

/-- The encoder (R40, R39). A wire byte class is written as its byte, with parser registers under which R39 reads that byte
as the class: AM for NOISE, an escape pending for ESCAPED_DATA, RP and no escape pending for the others. -/
def encode : Instr → Encoded
  | .crc32 src n => .command ⟨0x01, [src.base, src.size, n]⟩
  | .escsize src n => .command ⟨0x02, [src.base, src.size, n]⟩
  | .encBuf src len dst cap => .command ⟨0x10, [src.base, src.size, len.toNat, dst.base, dst.size, cap]⟩
  | .encSink src len flush => .command ⟨0x11, [src.base, src.size, len.toNat, bitCode flush]⟩
  | .pInit order rx cap hp hb hf ctx =>
    .command ⟨0x20, [order.code, rx.base, rx.size, cap, bitCode hp, bitCode hb, bitCode hf, ctx.handle]⟩
  | .pFeed src n => .command ⟨0x21, [src.base, src.size, n]⟩
  | .marker => .wire .RP false MARKER
  | .noise b => .wire .AM false b
  | .escapedData b => .wire .RP true b
  | .escape => .wire .RP false ESCAPE
  | .data b => .wire .RP false b

/-- How many operand slots an opcode has (R40, buffer references counted as two); none for an opcode not in the table. -/
def slotCount (opcode : Byte) : Option Nat :=
  if opcode = 0x01 then some 3
  else if opcode = 0x02 then some 3
  else if opcode = 0x10 then some 6
  else if opcode = 0x11 then some 4
  else if opcode = 0x20 then some 8
  else if opcode = 0x21 then some 3
  else none

/-- The parser registers a byte of the table is placed at. The byte alone does not tell NOISE, ESCAPED_DATA and DATA apart
(R39): 0x04 and 0x08, the `decode_order` bits that the table gives NOISE and ESCAPED_DATA, are placed where R39 reads those
classes; every other byte inside a frame with no escape pending (log entry 11). -/
def tableRegs (b : Byte) : ParserState × Bool :=
  if b = 0x04 then (.AM, false)
  else if b = 0x08 then (.RL1, true)
  else (.RL1, false)

/-- A byte of spec/opcode_table.json laid out for the decoder: an opcode of R40 is a command whose operand slots are all
zero; any other byte is a wire byte (log entry 11). -/
def tableEncoding (b : Byte) : Encoded :=
  match slotCount b with
  | some k => .command ⟨b, List.replicate k 0⟩
  | none => .wire (tableRegs b).1 (tableRegs b).2 b

/-- An opcode-table word of `nbits` bits as the decoder reads it: every row of the table is one byte; a wider word is no
word of the table. -/
def tableWord (nbits w : Nat) : Option Encoded :=
  if w % 2 ^ nbits < 256 then some (tableEncoding (BitVec.ofNat 8 (w % 2 ^ nbits))) else none

/-- The instruction the decoder reads from an opcode-table word. -/
def decodeTableWord (nbits w : Nat) : Option Instr :=
  match tableWord nbits w with
  | some e => (decode e).toOption
  | none => none

end Sys2Proof
end

