-- ==== Sys2Proof/Machine/State.lean ====
section
/-! DEFINITION. The state of the machine as plain data: the instances with their configuration and parser registers
(spec/10_state.md R10 to R17), host memory (spec/20_memory.md R24), the operations in progress (spec/60_exceptions.md R77),
the input and output ports (R20), and the ways a step can stop. -/

namespace Sys2Proof.Machine

/-- The five parser registers of an instance (R10 to R15). -/
structure Regs where
  /-- `reg.state` (R11). -/
  state : ParserState
  /-- `reg.escape_pending` (R15): the block's only flag. -/
  escapePending : Bool
  /-- `reg.expected_total_len` (R12): an unbounded natural, never wraps. -/
  expectedTotalLen : Nat
  /-- `reg.received_count` (R13): an unbounded natural. -/
  receivedCount : Nat
  /-- `reg.running_checksum` (R14). -/
  runningChecksum : Word
  deriving DecidableEq, Repr

/-- One initialised instance: its configuration (R17), its lent receive buffer (R16) and its parser registers (R10). -/
structure Inst where
  /-- `P_ORDER` (R5). -/
  pOrder : ByteOrder
  /-- `rx_buffer`, the buffer lent by P_INIT (R16). -/
  rxBuffer : BufRef
  /-- `RX_CAPACITY` (R6). -/
  rxCapacity : Nat
  /-- `HAS_PACKET_SINK` (R7). -/
  hasPacketSink : Bool
  /-- `HAS_BYTE_SINK` (R7). -/
  hasByteSink : Bool
  /-- `HAS_FLUSH_SINK` (R7). -/
  hasFlushSink : Bool
  /-- `CTX` (R7). -/
  ctx : Ctx
  regs : Regs
  /-- How many bytes of the receive buffer, from its first on, the parser has written since P_INIT: each frame is stored from
  index 0 on (R28, R85), so they are `rx_buffer[0..rxWritten)`. The others hold no known value (R16; log entry 13). -/
  rxWritten : Nat
  /-- The MODEL's own: which loan of a receive buffer this is, for the free values of its bytes (log entry 13). -/
  loan : Nat
  deriving DecidableEq, Repr

/-- Host memory: (address, byte) pairs, addresses strictly rising. An unlisted address holds no known value. -/
abbrev Memory := List Host.Cell

/-- The synchronous events of the block (R20, R76). -/
inductive Event where
  /-- `on_packet(payload, len, CTX)`. -/
  | onPacket (payload : List Byte) (len : Nat) (ctx : Ctx)
  /-- `on_byte(b, CTX)`. -/
  | onByte (b : Byte) (ctx : Ctx)
  /-- `on_flush(CTX)`. -/
  | onFlush (ctx : Ctx)
  deriving DecidableEq, Repr

/-- The result value of an operation that has one (R40). -/
inductive Value where
  /-- The 32-bit CRC of CRC32. -/
  | crc (c : Word)
  /-- The count of ESCSIZE, or the byte count of ENC_BUF. -/
  | count (n : Nat)
  deriving DecidableEq, Repr

/-- What the block puts out: an event, or the status and value that end an operation (R21). -/
inductive Item where
  | event (e : Event)
  | result (status : Status) (value : Option Value)
  deriving DecidableEq, Repr

/-- One item on the output ports, with the host thread and the command port it belongs to. `depth` is the number of events
of that thread still being taken around it: 0 for a top-level operation, 1 inside an event of one, and so on (R77: a nested
operation's events "appear inside the outer event"). Log entry 18. -/
structure Output where
  thread : Nat
  port : Nat
  depth : Nat
  item : Item
  deriving DecidableEq, Repr

/-- What an operation in progress still has to do. Only P_FEED and ENC_SINK can be in progress between two steps
(log entry 17). -/
inductive Work where
  /-- P_FEED over `src[0..n)`, with `pos` bytes read (R68). -/
  | feed (src : BufRef) (n pos : Nat)
  /-- ENC_SINK over `src[0..n)`, with the events still to be emitted and the status it will end with (R56). -/
  | sink (src : BufRef) (n : Nat) (todo : List Event) (final : Status)
  deriving DecidableEq, Repr

/-- An operation in progress on the instance at `port`. `waiting`: an event of it is being taken by the host's handler, and
"the operation emitting it waits until the host has taken it" (R20). -/
structure Frame where
  port : Nat
  work : Work
  waiting : Bool
  deriving DecidableEq, Repr

/-- What the host does (R20, R86), each input with the host thread that does it. -/
inductive HostInput where
  /-- Issue an operation at the command port of instance `port`: at top level, or from a handler (R77). -/
  | command (thread port : Nat) (cmd : Command)
  /-- Return from the handler of the event the thread is taking (R20). -/
  | handlerReturn (thread : Nat)
  /-- Write one byte of host memory (R86, R87). -/
  | write (thread addr : Nat) (v : Byte)
  /-- End the life of instance `port` and so the loan of its receive buffer (R86; log entry 8). -/
  | endInstance (thread port : Nat)
  /-- A slot of time for the thread's P_FEED: how operations of several threads interleave (R79; log entry 5). -/
  | slot (thread : Nat)
  deriving DecidableEq, Repr

/-- The MODEL's own: the thread and the command port that the running step serves (log entry 4). -/
structure Cur where
  thread : Nat
  port : Nat
  deriving DecidableEq, Repr

/-- The state of the machine. -/
structure State where
  /-- The initialised instances by port number, ports strictly rising. A port not listed is "not initialised" (R81). -/
  insts : List (Nat × Inst)
  /-- Host memory, where every buffer lies (R24). -/
  mem : Memory
  /-- For each host thread that has operations in progress, those operations, innermost first; threads strictly rising. -/
  threads : List (Nat × List Frame)
  /-- What the host is going to do, oldest first. -/
  input : List HostInput
  /-- What the block has put out on its event ports and result port, oldest first (R21). -/
  out : List Output
  cur : Cur
  /-- The MODEL's own: how many loans of a receive buffer P_INIT has begun (log entry 13). -/
  loans : Nat
  deriving DecidableEq, Repr

/-- How the machine stops by a fault. -/
inductive Fault where
  /-- Raised by ENC_BUF when the number of bytes it wrote differs from the computed size (R55: "A model that reaches
  SIZE_MISMATCH must record it as `fault(SizeMismatch)`"). Unreachable by the rules. Safe: the machine stops. -/
  | sizeMismatch
  deriving DecidableEq, Repr

/-- How a run is refused: "the spec gives the situation no meaning" (spec/00_scope.md section 5). -/
inductive Refusal where
  /-- Raised by exec for an instruction that has no meaning yet. Safe. -/
  | notModelled (mnemonic : String)
  /-- Raised by the step for a command whose opcode is not in the table (R42). Safe. -/
  | undefinedOpcode
  /-- Raised by the step and by every command for an operand outside its slot's range (R42). Safe. -/
  | badOperand
  /-- Raised by ENC_BUF, ENC_SINK, P_FEED and the byte classes on an instance that is not initialised (R83). Safe. -/
  | notInitialised
  /-- Raised by P_INIT, P_FEED and the end of an instance, issued from a handler of the same instance (R77). Safe. -/
  | reentrant
  /-- Raised by every command, and by the end of an instance, while another thread's operation runs on that instance (R79).
  Safe. -/
  | concurrent
  /-- Raised by a host write, an ENC_BUF or another instance's parser writing into a lent receive buffer (R86). Safe. -/
  | lentBufferWritten
  /-- Raised by ENC_BUF, P_FEED, a byte class or a host write for buffers that overlap or change while an operation uses
  them (R87). Safe. -/
  | bufferHazard
  /-- Raised by a wire byte class when the thread has no P_FEED that is at a byte: P_BYTE "is not a command of its own"
  (spec/43_parser.md). The step never runs one there. Safe. -/
  | notFeeding
  /-- Raised by a handler's return when the thread is taking no event: an input that no host can give. Safe. -/
  | noOpenEvent
  deriving DecidableEq, Repr

/-- What a step or a meaning answers. -/
abbrev Answer := Host.Outcome State Fault Refusal

/-- The machine before anything has happened: no instance is initialised (R81), nothing is known of host memory (R16),
no operation is in progress, nothing has been put in or out (log entries 4, 13, 15, 21). -/
def State.reset : State where
  insts := []
  mem := []
  threads := []
  input := []
  out := []
  cur := ⟨0, 0⟩
  loans := 0

end Sys2Proof.Machine
end

