-- ==== Sys2Proof/Machine/Store.lean ====
section
/-! DEFINITION. Sparse data by number, in one canonical form (keys strictly rising), which memory, the instances and the
threads are all held in, and host memory on top of it (spec/20_memory.md R24 to R27). -/

namespace Sys2Proof.Machine

variable {β : Type}

/-- The entry at a key. -/
def Store.get : List (Nat × β) → Nat → Option β
  | [], _ => none
  | (a, v) :: m, k => if a = k then some v else Store.get m k

/-- Write the entry at a key, in its place in the order. -/
def Store.set : List (Nat × β) → Nat → β → List (Nat × β)
  | [], k, v => [(k, v)]
  | (a, w) :: m, k, v =>
    if k < a then (k, v) :: (a, w) :: m
    else if a = k then (k, v) :: m
    else (a, w) :: Store.set m k v

/-- Remove the entry at a key. -/
def Store.erase : List (Nat × β) → Nat → List (Nat × β)
  | [], _ => []
  | (a, w) :: m, k => if a = k then Store.erase m k else (a, w) :: Store.erase m k

/-- Every key is above `lo`. -/
def Store.above (lo : Nat) : List (Nat × β) → Bool
  | [] => true
  | (a, _) :: m => decide (lo < a) && Store.above lo m

/-- The canonical form: keys strictly rising. -/
def Store.wf : List (Nat × β) → Bool
  | [] => true
  | (a, _) :: m => Store.above a m && Store.wf m

/-- A key above every key in use. -/
def Store.fresh : List (Nat × β) → Nat
  | [] => 0
  | (a, _) :: m => max (a + 1) (Store.fresh m)

/-- The canonical form of host memory: addresses strictly rising. An unlisted address holds no known value, which is no
byte, so no listed entry can equal it. -/
def Memory.wf (m : Memory) : Bool := Store.wf m

/-- What an unlisted address reads as: a free value (R16, I4; log entry 2). -/
def Memory.unlisted (a : Nat) : Byte := Config.unwrittenByte a

/-- Read one byte of host memory. It has no side effect (R27). -/
def Memory.read (m : Memory) (a : Nat) : Byte :=
  match Store.get m a with
  | some v => v
  | none => Memory.unlisted a

/-- Write one byte of host memory (R27). -/
def Memory.write (m : Memory) (a : Nat) (v : Byte) : Memory := Store.set m a v

/-- The `n` bytes from `base` on: `[Read(0), ..., Read(n-1)]` of a buffer that lies at `base`. -/
def Memory.bytes (m : Memory) (base n : Nat) : List Byte := (List.range n).map fun i => m.read (base + i)

/-- Write a sequence of bytes from `base` on, in order. -/
def Memory.writeBytes (m : Memory) (base : Nat) : List Byte → Memory
  | [] => m
  | b :: bs => Memory.writeBytes (m.write base b) (base + 1) bs

end Sys2Proof.Machine
end

