-- ==== Sys2Proof/Machine/Operands.lean ====
section
/-! DEFINITION. The operand forms: buffer references and their ranges (spec/30_encoding.md R40, spec/20_memory.md R24), and the
byte order of the two multi-byte wire fields (R25, R35, R36), and what a read of a buffer gives (R16, R27). -/

namespace Sys2Proof

/-- The first `n` bytes of a buffer. -/
def BufRef.first (r : BufRef) (n : Nat) : BufRef := ⟨r.base, n⟩

/-- A host address lies in the buffer. -/
def BufRef.covers (r : BufRef) (a : Nat) : Bool := r.base ≤ a && a < r.base + r.size

/-- Two buffers share a byte. -/
def BufRef.overlaps (r q : BufRef) : Bool :=
  r.size != 0 && q.size != 0 && decide (r.base < q.base + q.size) && decide (q.base < r.base + r.size)

/-- One byte of host memory as a buffer. -/
def oneByte (a : Nat) : BufRef := ⟨a, 1⟩

end Sys2Proof

namespace Sys2Proof.Machine

/-- The loan under which an address holds no known value: the instance's parser has not written it since P_INIT (R16). -/
def Inst.unknownLoan (i : Inst) (a : Nat) : Option Nat :=
  if i.rxBuffer.base + i.rxWritten ≤ a ∧ a < i.rxBuffer.base + i.rxCapacity then some i.loan else none

/-- What reading an address gives: the byte that host memory holds, or the free value of a loan (R16; log entry 13). -/
def Memory.readUnder (m : Memory) (a : Nat) : Option Nat → Byte
  | none => m.read a
  | some loan => Config.lentByte loan a

/-- `RxRead(k)` of an instance (R24, R16). -/
def Inst.rxRead (i : Inst) (m : Memory) (k : Nat) : Byte :=
  m.readUnder (i.rxBuffer.base + k) (i.unknownLoan (i.rxBuffer.base + k))

/-- Read one byte of host memory for an operation (R24, R27). A byte of a lent receive buffer that its parser has not written
since P_INIT is a free value (R16, R81). So where P_INIT or the end of an instance begins or ends a loan over source bytes of an
operation in progress, which is accepted, what reads of them give changes (DESIGN CHOICE, log entry 23). -/
def State.read (s : State) (a : Nat) : Byte := s.mem.readUnder a (s.insts.findSome? fun e => e.2.unknownLoan a)

/-- The `n` bytes that reads from `base` on give. -/
def State.bytes (s : State) (base n : Nat) : List Byte := (List.range n).map fun k => s.read (base + k)

/-- `[SrcRead(0), ..., SrcRead(n-1)]` (R24). A source that lies in a lent receive buffer is read like any other; only a P_FEED's
in its own instance's is refused (R87 item 3; DESIGN CHOICE, log entry 22). -/
def State.srcBytes (s : State) (src : BufRef) (n : Nat) : List Byte := s.bytes src.base n

/-- Byte `k` of a 32-bit value, byte 0 being bits [7:0]. -/
def wordByte (c : Word) (k : Nat) : Byte := c.extractLsb' (8 * k) 8

/-- The length field's two bytes before stuffing (R35). -/
def lenBytes (o : ByteOrder) (len : BitVec 16) : List Byte :=
  match o with
  | .LE => [len.extractLsb' 0 8, len.extractLsb' 8 8]
  | .BE => [len.extractLsb' 8 8, len.extractLsb' 0 8]

/-- The length that two received length bytes give (R35). -/
def lenValue (o : ByteOrder) (c1 c2 : Byte) : Nat :=
  match o with
  | .LE => c1.toNat + 256 * c2.toNat
  | .BE => 256 * c1.toNat + c2.toNat

/-- The checksum field's four bytes before stuffing (R36). -/
def crcBytes (o : ByteOrder) (c : Word) : List Byte :=
  match o with
  | .LE => [wordByte c 0, wordByte c 1, wordByte c 2, wordByte c 3]
  | .BE => [wordByte c 3, wordByte c 2, wordByte c 1, wordByte c 0]

/-- The checksum that four received bytes give (R36). -/
def crcValue (o : ByteOrder) (d0 d1 d2 d3 : Byte) : Nat :=
  match o with
  | .LE => d0.toNat + 2 ^ 8 * d1.toNat + 2 ^ 16 * d2.toNat + 2 ^ 24 * d3.toNat
  | .BE => 2 ^ 24 * d0.toNat + 2 ^ 16 * d1.toNat + 2 ^ 8 * d2.toNat + d3.toNat

end Sys2Proof.Machine
end

