-- ==== Sys2Proof/Machine/Flags.lean ====
section
/-! DEFINITION. The block's only flag, `reg.escape_pending` (spec/10_state.md R15), and the decoder step that computes it
(spec/41_stuffing.md R49). -/

namespace Sys2Proof.Machine

/-- `reg.escape_pending <- v` (R15). -/
def Regs.setEscape (r : Regs) (v : Bool) : Regs := { r with escapePending := v }

/-- `Unstuff(ep, b)` (R49): the new flag, and a data byte or nothing. It is used only for `b ≠ 0x7E` (R50). -/
def unstuff (ep : Bool) (b : Byte) : Bool × Option Byte :=
  if ep then (false, some (b ^^^ FLIP))
  else if b = ESCAPE then (true, none)
  else (false, some b)

end Sys2Proof.Machine
end

