-- ==== Sys2Proof/Machine/Ops.lean ====
section
/-! DEFINITION. The operations the meanings share: access to instances and to the stack of operations in progress, the tests
behind the refusals of spec/60_exceptions.md R77, R79 and spec/70_reset_and_hazards.md R83, R86, R87, the output ports
(spec/10_state.md R20, R21), and the return from an event's handler. -/

namespace Sys2Proof.Machine

/-! ### Instances and the stack of operations -/

/-- The instance at a port, if it is initialised (R81). -/
def State.inst (s : State) (p : Nat) : Option Inst := Store.get s.insts p

/-- Give the instance at a port a new configuration and registers. -/
def State.setInst (s : State) (p : Nat) (i : Inst) : State := { s with insts := Store.set s.insts p i }

/-- Configure the instance at the port being served, and so begin a loan of its receive buffer (R59, R16). -/
def State.initInst (s : State) (i : Inst) : State := { s.setInst s.cur.port i with loans := s.loans + 1 }

/-- Replace host memory. -/
def State.setMem (s : State) (m : Memory) : State := { s with mem := m }

/-- Serve the same thread, for an operation on the instance at a port. -/
def State.atPort (s : State) (p : Nat) : State := { s with cur := ⟨s.cur.thread, p⟩ }

/-- The operations in progress on a thread, innermost first. -/
def State.stackOf (s : State) (t : Nat) : List Frame := (Store.get s.threads t).getD []

/-- The operations in progress on the thread being served. -/
def State.stack (s : State) : List Frame := s.stackOf s.cur.thread

/-- Replace the operations in progress on the thread being served. A thread with none is not listed. -/
def State.setStack (s : State) (fs : List Frame) : State :=
  match fs with
  | [] => { s with threads := Store.erase s.threads s.cur.thread }
  | _ :: _ => { s with threads := Store.set s.threads s.cur.thread fs }

/-- Begin an operation that outlasts this step. -/
def State.push (s : State) (f : Frame) : State := s.setStack (f :: s.stack)

/-- Every operation in progress, of every thread. -/
def State.frames (s : State) : List Frame := s.threads.flatMap fun e => e.2

/-! ### Output ports -/

/-- Put an item out for the thread and port being served, inside every event that thread is taking (R21, R77). -/
def State.put (s : State) (x : Item) : State :=
  { s with out := s.out ++ [⟨s.cur.thread, s.cur.port, s.stack.length, x⟩] }

/-- `emit e` (spec/00_scope.md section 5): append one event. -/
def State.emit (s : State) (e : Event) : State := s.put (.event e)

/-- `return (status, value)`: the operation ends (R21, R41). An error is nothing but such a status (R75). -/
def State.report (s : State) (st : Status) (v : Option Value) : State := s.put (.result st v)

/-! ### Buffers in use -/

/-- The source bytes an operation in progress uses (R87). -/
def Frame.uses (f : Frame) : BufRef :=
  match f.work with
  | .feed src n _ => src.first n
  | .sink src n _ _ => src.first n

/-- The operation is a P_FEED. -/
def Frame.isFeed (f : Frame) : Bool :=
  match f.work with
  | .feed _ _ _ => true
  | .sink _ _ _ _ => false

/-- The part of the host's memory lent to an instance: `rx_buffer[0..RX_CAPACITY)` (R16, R86). -/
def Inst.lent (i : Inst) : BufRef := i.rxBuffer.first i.rxCapacity

/-- A source buffer of an operation in progress shares a byte with `r` (R87 item 1). -/
def State.sourceInUse (s : State) (r : BufRef) : Bool := s.frames.any fun f => f.uses.overlaps r

/-- A P_FEED is in progress on the instance at a port. -/
def State.feeding (s : State) (p : Nat) : Bool := s.frames.any fun f => f.isFeed && f.port == p

/-- The receive buffer of an instance whose P_FEED is in progress shares a byte with `r` (R87 item 2). -/
def State.receiveInUse (s : State) (r : BufRef) : Bool :=
  s.insts.any fun e => s.feeding e.1 && e.2.lent.overlaps r

/-- A lent receive buffer shares a byte with `r` (R86). -/
def State.lentTo (s : State) (r : BufRef) : Bool := s.insts.any fun e => e.2.lent.overlaps r

/-- The receive buffer lent to an instance other than the one at `p` shares a byte with `r` (R79, R86; log entry 12). -/
def State.lentToOther (s : State) (p : Nat) (r : BufRef) : Bool :=
  s.insts.any fun e => e.1 != p && e.2.lent.overlaps r

/-! ### Admission -/

/-- Another thread's operation is in progress on the instance being served (R79). -/
def State.busyElsewhere (s : State) : Bool :=
  s.threads.any fun e => e.1 != s.cur.thread && e.2.any fun f => f.port == s.cur.port

/-- The instance being served has an operation in progress on this very thread: this command comes from one of its handlers
(R77). -/
def State.inOwnHandler (s : State) : Bool := s.stack.any fun f => f.port == s.cur.port

/-- Go on with an operation that may be nested in any handler (R77 item 1), unless it overlaps another thread's operation on
the same instance (R79). -/
def State.accept (s : State) (k : State → Answer) : Answer :=
  if s.busyElsewhere then .refused .concurrent else k s

/-- Go on with an operation that may not be issued from a handler of the same instance (R77 item 2). -/
def State.acceptOutside (s : State) (k : State → Answer) : Answer :=
  s.accept fun s => if s.inOwnHandler then .refused .reentrant else k s

/-- Go on only with operands inside their slots' ranges (R42). -/
def State.checked (s : State) (ok : Bool) (k : State → Answer) : Answer :=
  if ok then k s else .refused .badOperand

/-- Go on with the instance being served, if it is initialised (R83). -/
def State.withInst (s : State) (k : Inst → Answer) : Answer :=
  match s.inst s.cur.port with
  | some i => k i
  | none => .refused .notInitialised

/-! ### Events and the return from their handlers -/

/-- Emit an event of the operation `f`, which then waits until the host has taken it (R20). The operation must not be on the
stack: it is put there, waiting. -/
def State.emitAndWait (s : State) (e : Event) (f : Frame) : State :=
  (s.emit e).push { f with waiting := true }

/-- Go on with an ENC_SINK: emit its next event and wait, or end with its status (R56). -/
def State.continueSink (s : State) (port : Nat) (src : BufRef) (n : Nat) (todo : List Event) (final : Status) : State :=
  match todo with
  | [] => s.report final none
  | e :: es => s.emitAndWait e ⟨port, .sink src n es final, true⟩

/-- Go on with a P_FEED that has read `pos` bytes: be ready for the next byte, or end with (OK, none) (R68). -/
def State.continueFeed (s : State) (port : Nat) (src : BufRef) (n pos : Nat) : State :=
  if pos < n then s.push ⟨port, .feed src n pos, false⟩ else s.report .OK none

/-- The host's handler returns: the operation whose event it took goes on. The host returns nothing to the block (R20,
spec/92_eei_decisions.md D28). -/
def State.handlerReturn (s : State) : Answer :=
  match s.stack with
  | ⟨port, work, true⟩ :: rest =>
    match work with
    | .feed src n pos => .next (((s.setStack rest).atPort port).continueFeed port src n pos)
    | .sink src n todo final => .next (((s.setStack rest).atPort port).continueSink port src n todo final)
  | _ => .refused .noOpenEvent

/-- The host writes one byte of its memory: refused in a lent receive buffer (R86) and in a buffer that an operation in
progress uses (R87). -/
def State.hostWrite (s : State) (a : Nat) (v : Byte) : Answer :=
  if s.lentTo (oneByte a) then .refused .lentBufferWritten
  else if s.sourceInUse (oneByte a) then .refused .bufferHazard
  else .next (s.setMem (s.mem.write a v))

/-- The host ends the life of the instance being served, and with it the loan of its receive buffer (R86; log entry 8). An
instance with an operation in progress cannot be ended. -/
def State.endInstance (s : State) : Answer :=
  s.acceptOutside fun s => .next { s with insts := Store.erase s.insts s.cur.port }

end Sys2Proof.Machine
end

