-- ==== Sys2Proof/Machine/Checksum.lean ====
section
/-! DEFINITION. The CRC-32/ISO-HDLC generator (spec/40_checksum.md). -/

namespace Sys2Proof.Machine

/-- The reflected polynomial (R2, R44). -/
def POLY : Word := 0xEDB88320

/-- One of the 8 shifts of `CrcStep` (R44). -/
def crcShift (c : Word) : Word := if c.getLsbD 0 then (c >>> 1) ^^^ POLY else c >>> 1

/-- `CrcStep(c, b)` (R44). -/
def crcStep (c : Word) (b : Byte) : Word := Nat.repeat crcShift 8 (c ^^^ b.setWidth 32)

/-- `CRC32(d)` (R44). -/
def crc32 (d : List Byte) : Word := d.foldl crcStep 0xFFFFFFFF ^^^ 0xFFFFFFFF

/-- CRC32 (R45). It reads no configuration and no parser register, and needs no initialised instance (R83). -/
def execCrc32 (src : BufRef) (n : Nat) (s : State) : Answer :=
  s.accept fun s => s.checked (src.holds n) fun s =>
    .next (s.report .OK (some (.crc (crc32 (s.srcBytes src n)))))

end Sys2Proof.Machine
end

