-- ==== Sys2Proof/Machine/Stuffing.lean ====
section
/-! DEFINITION. The byte-stuffing encoder (spec/41_stuffing.md; the decoder's step is in Flags.lean). -/

namespace Sys2Proof.Machine

/-- `Stuff(b)` (R46). -/
def stuff (b : Byte) : List Byte := if Reserved b then [ESCAPE, b ^^^ FLIP] else [b]

/-- `StuffSeq(d)` (R47). -/
def stuffSeq (d : List Byte) : List Byte := d.flatMap stuff

/-- `EscSize(d)` (R48). -/
def escSize (d : List Byte) : Nat := d.length + d.countP Reserved

/-- The decoder run over a sequence of bytes that are not markers (R49): the flag it ends with and the data bytes. -/
def unstuffSeq : Bool → List Byte → Bool × List Byte
  | ep, [] => (ep, [])
  | ep, b :: bs =>
    let r := unstuff ep b
    let t := unstuffSeq r.1 bs
    (t.1, r.2.toList ++ t.2)

/-- ESCSIZE (R48). It reads no configuration and no parser register, and needs no initialised instance (R83). -/
def execEscsize (src : BufRef) (n : Nat) (s : State) : Answer :=
  s.accept fun s => s.checked (src.holds n) fun s =>
    .next (s.report .OK (some (.count (escSize (s.srcBytes src n)))))

end Sys2Proof.Machine
end

