-- ==== Sys2Proof/Machine/Encoder.lean ====
section
/-! DEFINITION. The frame encoder (spec/42_encoder.md). A payload of ENC_BUF and ENC_SINK has at most 65535 bytes: its length
is the 16-bit slot `len`. -/

namespace Sys2Proof.Machine

/-- `FieldSeq(p)` (R51): the unstuffed content of the frame. -/
def fieldSeq (o : ByteOrder) (p : List Byte) : List Byte :=
  lenBytes o (BitVec.ofNat 16 p.length) ++ p ++ crcBytes o (crc32 p)

/-- `FrameBytes(p)` (R52, first line; spec/30_encoding.md R37). -/
def frameBytes (o : ByteOrder) (p : List Byte) : List Byte :=
  [MARKER] ++ stuffSeq (lenBytes o (BitVec.ofNat 16 p.length)) ++ stuffSeq p ++ stuffSeq (crcBytes o (crc32 p))

/-- `FrameSize(p)` (R53). -/
def frameSize (o : ByteOrder) (p : List Byte) : Nat :=
  1 + escSize (lenBytes o (BitVec.ofNat 16 p.length)) + escSize p + escSize (crcBytes o (crc32 p))

/-- The writes of ENC_BUF, from `base` on, and the check of R55 after them (log entry 19). Writing into a lent receive buffer is refused
(R86, R22; log entry 12). -/
def writeFrame (s : State) (base : Nat) (f : List Byte) (size : Nat) : Answer :=
  if s.lentTo ⟨base, f.length⟩ then .refused .lentBufferWritten
  else if f.length = size then .next ((s.setMem (s.mem.writeBytes base f)).report .OK (some (.count size)))
  else .fault .sizeMismatch

/-- ENC_BUF's destination shares a byte with its source, with a buffer an operation in progress uses, or with the receive
buffer of an instance whose P_FEED is in progress (R87, R77 item 1; log entry 14). -/
def encBufHazard (s : State) (src dst : BufRef) : Bool :=
  src.overlaps dst || s.sourceInUse dst || s.receiveInUse dst

/-- The size test of ENC_BUF, before any byte is written, and then the writes (R54). -/
def encBufInto (s : State) (o : ByteOrder) (p : List Byte) (dst : BufRef) (dstCap : Nat) : Answer :=
  if dstCap < 7 ∨ dstCap < frameSize o p then .next (s.report .BUFFER_TOO_SMALL (some (.count 0)))
  else writeFrame s dst.base (frameBytes o p) (frameSize o p)

/-- ENC_BUF (R54, R55). Of the configuration it reads only `P_ORDER` (R22). -/
def execEncBuf (src : BufRef) (len : BitVec 16) (dst : BufRef) (dstCap : Nat) (s : State) : Answer :=
  s.accept fun s => s.checked (src.holds len.toNat && dst.holds dstCap) fun s => s.withInst fun i =>
    if encBufHazard s (src.first len.toNat) (dst.first dstCap) then .refused .bufferHazard
    else encBufInto s i.pOrder (s.srcBytes src len.toNat) dst dstCap

/-- The events of an ENC_SINK that gets past its first tests: the frame's bytes in order, then `on_flush` if it was asked for
and its sink is there (R56). -/
def sinkEvents (i : Inst) (p : List Byte) (flush : Bool) : List Event :=
  (frameBytes i.pOrder p).map (Event.onByte · i.ctx) ++ if flush && i.hasFlushSink then [Event.onFlush i.ctx] else []

/-- The status of such an ENC_SINK: CALLBACK_MISSING if the flush step finds no flush sink (R56, R57). -/
def sinkStatus (i : Inst) (flush : Bool) : Status :=
  if flush && !i.hasFlushSink then .CALLBACK_MISSING else .OK

/-- ENC_SINK on an initialised instance, with `P_FLUSH_CHECK` as an argument (R56, R57). -/
def encSinkWith (fc : FlushCheck) (i : Inst) (src : BufRef) (len : BitVec 16) (flush : Bool) (s : State) : State :=
  if !i.hasByteSink then s.report .CALLBACK_MISSING none
  else if flush && !i.hasFlushSink && decide (fc = .UPFRONT) then s.report .CALLBACK_MISSING none
  else s.continueSink s.cur.port src len.toNat (sinkEvents i (s.srcBytes src len.toNat) flush) (sinkStatus i flush)

/-- ENC_SINK (R56, R57): the tests of the sinks, then the first event. The later events follow as the host takes each one
(`State.continueSink`). -/
def execEncSink (src : BufRef) (len : BitVec 16) (flush : Bool) (s : State) : Answer :=
  s.accept fun s => s.checked (src.holds len.toNat) fun s => s.withInst fun i =>
    .next (encSinkWith Config.pFlushCheck i src len flush s)

end Sys2Proof.Machine
end

