-- ==== Sys2Proof/Machine/Parser.lean ====
section
/-! DEFINITION. The frame parser state machine (spec/43_parser.md): P_INIT, P_FEED, and the wire byte classes, one of which is
the step P_FEED makes for each byte. -/

namespace Sys2Proof.Machine

/-! ### The register effects of one byte -/

/-- The registers after P_INIT (R59). -/
def Regs.initial : Regs := ⟨.AM, false, 0, 0, 0⟩

/-- What one byte does: the new registers, the `RxWrite(i, v)` it makes, and whether `FrameEnd` follows. -/
structure ByteEffect where
  regs : Regs
  store : Option (Nat × Byte)
  complete : Bool
  deriving DecidableEq, Repr

/-- `MarkerStep` (R61). -/
def Regs.markerStep (_r : Regs) : Regs := ⟨.RL1, false, 0, 0, 0⟩

/-- The destination after the second length byte (R64): the frame is rejected or its body is read. A
zero-length frame is rejected (log entry 20). -/
def bodyState (cap etl : Nat) : ParserState := if etl > cap ∨ etl < 5 then .AM else .RP

/-- `LengthStep(d)` in RL1 (R64). -/
def Regs.lengthFirst (o : ByteOrder) (r : Regs) (d : Byte) : Regs :=
  match o with
  | .LE => { r with expectedTotalLen := d.toNat, state := .RL2 }
  | .BE => { r with expectedTotalLen := 256 * d.toNat, state := .RL2 }

/-- The declared body length after the second length byte (R64). -/
def Regs.bodyLen (o : ByteOrder) (r : Regs) (d : Byte) : Nat :=
  match o with
  | .LE => r.expectedTotalLen + 256 * d.toNat + 4
  | .BE => r.expectedTotalLen + d.toNat + 4

/-- `LengthStep(d)` in RL2 (R64). -/
def Regs.lengthSecond (o : ByteOrder) (cap : Nat) (r : Regs) (d : Byte) : Regs :=
  { r with expectedTotalLen := r.bodyLen o d, state := bodyState cap (r.bodyLen o d) }

/-- `ChecksumShift(d)` (R66; spec/90_conflicts.md C3: shift, then place). -/
def checksumShift (o : ByteOrder) (c : Word) (d : Byte) : Word :=
  match o with
  | .LE => (c >>> 8) ||| (d.setWidth 32 <<< 24)
  | .BE => (c <<< 8) ||| d.setWidth 32

/-- `BodyStep(d)` (R65). Subtraction is of naturals (log entry 16). -/
def Regs.bodyStep (o : ByteOrder) (r : Regs) (d : Byte) : ByteEffect :=
  if r.receivedCount < r.expectedTotalLen - 4 then
    { regs := { r with receivedCount := r.receivedCount + 1 }
      store := some (r.receivedCount, d)
      complete := decide (r.receivedCount + 1 = r.expectedTotalLen) }
  else
    { regs := { r with runningChecksum := checksumShift o r.runningChecksum d, receivedCount := r.receivedCount + 1 }
      store := none
      complete := decide (r.receivedCount + 1 = r.expectedTotalLen) }

/-- Stage 4: a data byte goes to the state's handler (R60). In AM there is none: stage 2 has discarded the byte (R62). -/
def Regs.dataStep (o : ByteOrder) (cap : Nat) (r : Regs) (d : Byte) : ByteEffect :=
  match r.state with
  | .AM => ⟨r, none, false⟩
  | .RL1 => ⟨r.lengthFirst o d, none, false⟩
  | .RL2 => ⟨r.lengthSecond o cap d, none, false⟩
  | .RP => r.bodyStep o d

/-- `P_BYTE(b)` as R60 writes it, stage by stage: what the byte classes together do. -/
def Inst.pByte (i : Inst) (b : Byte) : ByteEffect :=
  if b = MARKER then ⟨i.regs.markerStep, none, false⟩
  else if i.regs.state = .AM then ⟨i.regs, none, false⟩
  else
    match unstuff i.regs.escapePending b with
    | (ep, none) => ⟨i.regs.setEscape ep, none, false⟩
    | (ep, some d) => (i.regs.setEscape ep).dataStep i.pOrder i.rxCapacity d

/-! ### The end of a frame -/

/-- The event `FrameEnd` emits, if the checksum matches and the packet sink is there (R67, R69): the payload is
`[RxRead(0), ..., RxRead(n-1)]` with `n = reg.received_count - 4`. -/
def Inst.delivery (i : Inst) (m : Memory) : Option Event :=
  let n := i.regs.receivedCount - 4
  let payload := (List.range n).map (i.rxRead m)
  if crc32 payload = i.regs.runningChecksum ∧ i.hasPacketSink = true then some (.onPacket payload n i.ctx) else none

/-- `reg.state <- AM`, `FrameEnd`'s last line (R67). It is done before the handler runs (log entry 9). -/
def Inst.toAwaiting (i : Inst) : Inst := { i with regs := { i.regs with state := .AM } }

/-- The `RxWrite` of a byte (R65). -/
def Inst.rxStore (i : Inst) (m : Memory) : Option (Nat × Byte) → Memory
  | none => m
  | some (k, v) => m.write (i.rxBuffer.base + k) v

/-- The instance after an `RxWrite(k, v)`: that byte of its buffer is one its parser has written (R16). -/
def Inst.noteStore (i : Inst) : Option (Nat × Byte) → Inst
  | none => i
  | some (k, _) => { i with rxWritten := max i.rxWritten (k + 1) }

/-- What one byte leaves: the instance, host memory and the event it emits. -/
def Inst.afterByte (i : Inst) (m : Memory) (e : ByteEffect) : Inst × Memory × Option Event :=
  let i' := { i with regs := e.regs }.noteStore e.store
  let m' := i.rxStore m e.store
  if e.complete then (i'.toAwaiting, m', i'.delivery m') else (i', m', none)

/-- The `RxWrite` of a byte would write a buffer it may not: another instance's receive buffer (R79, R86; log entry 12) or a
source buffer in use (R87). -/
def State.storeRefused (s : State) (p : Nat) (i : Inst) : Option (Nat × Byte) → Option Refusal
  | none => none
  | some (k, _) =>
    if s.lentToOther p (oneByte (i.rxBuffer.base + k)) then some .lentBufferWritten
    else if s.sourceInUse (oneByte (i.rxBuffer.base + k)) then some .bufferHazard
    else none

/-- Go on after a byte: with its event if it has one, which the P_FEED then waits for (R20), else with the next byte. -/
def State.afterEvent (s : State) (ev : Option Event) (port : Nat) (src : BufRef) (n pos : Nat) : State :=
  match ev with
  | none => s.continueFeed port src n pos
  | some e => s.emitAndWait e ⟨port, .feed src n pos, true⟩

/-- Finish the byte at `pos` of a P_FEED in progress: its register, buffer and event effects, then on to the next byte or,
if an event was emitted, wait for its handler (R20, R68). `rest` is what lies below the P_FEED on its thread. -/
def State.finishByte (s : State) (rest : List Frame) (port : Nat) (src : BufRef) (n pos : Nat) (i : Inst)
    (e : ByteEffect) : Answer :=
  match s.storeRefused port i e.store with
  | some r => .refused r
  | none =>
    let r := i.afterByte s.mem e
    .next (((((s.setStack rest).setInst port r.1).setMem r.2.1).atPort port).afterEvent r.2.2 port src n (pos + 1))

/-- Run one byte's effect on the instance of the P_FEED that the thread being served has at a byte. -/
def State.onFeed (s : State) (eff : Inst → ByteEffect) : Answer :=
  match s.stack with
  | ⟨port, .feed src n pos, false⟩ :: rest =>
    match s.inst port with
    | some i => s.finishByte rest port src n pos i (eff i)
    | none => .refused .notInitialised
  | _ => .refused .notFeeding

/-! ### The instructions -/

/-- P_INIT (R59). It validates no operand but that `rx` has `rx_cap` bytes (R42), and writes nothing in `rx`;
what `rx` holds is no longer known (R16, R81; log entry 13), even where an operation in progress has its source there (log
entry 23). -/
def execPInit (order : ByteOrder) (rx : BufRef) (rxCap : Nat) (hasPacket hasByte hasFlush : Bool) (ctx : Ctx)
    (s : State) : Answer :=
  s.acceptOutside fun s => s.checked (rx.holds rxCap) fun s =>
    .next ((s.initInst ⟨order, rx, rxCap, hasPacket, hasByte, hasFlush, ctx, Regs.initial, 0, s.loans⟩).report .OK none)

/-- P_FEED (R68): begin at byte 0. Each byte is then one step, of the class R39 gives it, and the last one ends the operation
with (OK, none); with `n = 0` it ends at once. The bytes must not lie in the instance's own receive buffer (R87 item 3). -/
def execPFeed (src : BufRef) (n : Nat) (s : State) : Answer :=
  s.acceptOutside fun s => s.checked (src.holds n) fun s => s.withInst fun i =>
    if (src.first n).overlaps i.lent then .refused .bufferHazard
    else .next (s.continueFeed s.cur.port src n 0)

/-- MARKER (R61): start a new frame attempt, in any state. -/
def execMarker (s : State) : Answer := s.onFeed fun i => ⟨i.regs.markerStep, none, false⟩

/-- NOISE (R62): the byte is discarded; no register changes. -/
def execNoise (_b : Byte) (s : State) : Answer := s.onFeed fun i => ⟨i.regs, none, false⟩

/-- ESCAPED_DATA (R63): the data byte is `b xor 0x20`, and the flag is cleared. -/
def execEscapedData (b : Byte) (s : State) : Answer :=
  s.onFeed fun i => (i.regs.setEscape false).dataStep i.pOrder i.rxCapacity (b ^^^ FLIP)

/-- ESCAPE (R63): the flag is set, and nothing else changes. -/
def execEscape (s : State) : Answer := s.onFeed fun i => ⟨i.regs.setEscape true, none, false⟩

/-- DATA (R63): the data byte is `b`. -/
def execData (b : Byte) (s : State) : Answer :=
  s.onFeed fun i => (i.regs.setEscape false).dataStep i.pOrder i.rxCapacity b

end Sys2Proof.Machine
end

