-- ==== Sys2Proof/Machine/Dispatch.lean ====
section
/-! DEFINITION. One arm for each instruction: its meaning. -/

namespace Sys2Proof.Machine

def exec (i : Instr) (s : State) : Host.Outcome State Fault Refusal :=
  match i with
  | .crc32 src n => Sys2Proof.Machine.execCrc32 src n s
  | .escsize src n => Sys2Proof.Machine.execEscsize src n s
  | .encBuf src len dst dstCap => Sys2Proof.Machine.execEncBuf src len dst dstCap s
  | .encSink src len flush => Sys2Proof.Machine.execEncSink src len flush s
  | .pInit order rx rxCap hasPacket hasByte hasFlush ctx => Sys2Proof.Machine.execPInit order rx rxCap hasPacket hasByte hasFlush ctx s
  | .pFeed src n => Sys2Proof.Machine.execPFeed src n s
  | .marker => Sys2Proof.Machine.execMarker s
  | .noise b => Sys2Proof.Machine.execNoise b s
  | .escapedData b => Sys2Proof.Machine.execEscapedData b s
  | .escape => Sys2Proof.Machine.execEscape s
  | .data b => Sys2Proof.Machine.execData b s

end Sys2Proof.Machine
end

