-- ==== Sys2Proof/Machine/Fetch.lean ====
section
/-! DEFINITION. What a step serves next: which host input or which wire byte, and how that byte or command stands where the
step reads it (spec/10_state.md R18, R20, R21; spec/43_parser.md R68). -/

namespace Sys2Proof.Machine

/-- The thread's innermost operation is a P_FEED that is at a byte: it is not waiting for a handler. -/
def State.running (s : State) (t : Nat) : Bool :=
  match s.stackOf t with
  | ⟨_, .feed _ _ _, false⟩ :: _ => true
  | _ => false

/-- The first thread whose P_FEED is at a byte. -/
def State.firstRunning (s : State) : Option Nat := (s.threads.map (·.1)).find? fun t => s.running t

/-- What the next step does. -/
inductive Move where
  /-- Nothing: the block is idle, or every operation waits for the host (R80, R20). -/
  | idle
  /-- Decode a command or a wire byte and run it, for a thread at a port. -/
  | run (thread port : Nat) (word : Encoded)
  /-- A handler returns. -/
  | handlerReturn (thread : Nat)
  /-- The host writes a byte. -/
  | write (thread addr : Nat) (v : Byte)
  /-- The host ends an instance. -/
  | endInstance (thread port : Nat)
  /-- A P_FEED at a byte on an instance that is not initialised: unreachable. -/
  | stray
  deriving DecidableEq, Repr

/-- Fetch the next byte of the thread's P_FEED, `SrcRead(pos)`, with the parser registers it is classified by (R39, R68). -/
def State.fetchByte (s : State) (t : Nat) : Move :=
  match s.stackOf t with
  | ⟨port, .feed src _ pos, false⟩ :: _ =>
    match s.inst port with
    | some i => .run t port (.wire i.regs.state i.regs.escapePending (s.read (src.base + pos)))
    | none => .stray
  | _ => .idle

/-- The thread an input belongs to. -/
def HostInput.thread : HostInput → Nat
  | .command t _ _ => t
  | .handlerReturn t => t
  | .write t _ _ => t
  | .endInstance t _ => t
  | .slot t => t

/-- What a step does when it takes an input. -/
def HostInput.move : HostInput → Move
  | .command t p c => .run t p (.command c)
  | .handlerReturn t => .handlerReturn t
  | .write t a v => .write t a v
  | .endInstance t p => .endInstance t p
  | .slot _ => .idle

/-- What the next step does and the inputs it leaves. A thread whose P_FEED is at a byte is inside that call: its own next
input waits, and the byte is served. A slot serves one byte of its thread. With no input left, the first such P_FEED goes
on; with none of those either, the block is idle (R80). Log entry 5. -/
def State.nextMove (s : State) : Move × List HostInput :=
  match s.input with
  | [] =>
    match s.firstRunning with
    | some t => (s.fetchByte t, [])
    | none => (.idle, [])
  | .slot t :: rest => (s.fetchByte t, rest)
  | inp :: rest => if s.running inp.thread then (s.fetchByte inp.thread, inp :: rest) else (inp.move, rest)

/-- The state in which a word is run: the inputs that remain, and the thread and port it is run for. -/
def State.serving (s : State) (rest : List HostInput) (t p : Nat) : State := { s with input := rest, cur := ⟨t, p⟩ }

/-- The instance a placed word runs on: as P_INIT with all operands zero leaves it (R59), but for the parser registers that a
wire byte is classified by, and with its empty receive buffer at `a` (log entry 11). -/
def placedInst (a : Nat) (st : ParserState) (ep : Bool) : Inst :=
  ⟨.LE, ⟨a, 0⟩, 0, false, false, false, ⟨0⟩, ⟨st, ep, 0, 0, 0⟩, 0, 0⟩

/-- A command of R83 that needs an initialised instance: ENC_BUF, ENC_SINK, P_FEED. -/
def needsInst (opcode : Byte) : Bool := opcode == 0x10 || opcode == 0x11 || opcode == 0x21

/-- A command placed as the next input, of a thread with nothing in progress, at an instance that is new (log entry 11). -/
def State.placeCommand (s : State) (c : Command) : State :=
  let p := Store.fresh s.insts
  { s with
    insts := if needsInst c.opcode then Store.set s.insts p (placedInst 0 .AM false) else s.insts
    input := .command (Store.fresh s.threads) p c :: s.input }

/-- An address above everything that memory lists, that is lent and that an operation in progress uses. -/
def State.freshAddress (s : State) : Nat :=
  (s.insts.map (fun e => e.2.lent) ++ s.frames.map Frame.uses).foldr (fun r a => max (r.base + r.size) a) (Store.fresh s.mem)

/-- The byte of a wire word placed as the next byte a P_FEED reads: on a new thread, in a one-byte source buffer at an address
nothing has used, at a new instance whose parser registers are those the word is classified by (log entry 11). -/
def State.placeByte (s : State) (st : ParserState) (ep : Bool) (b : Byte) : State :=
  let a := s.freshAddress
  let p := Store.fresh s.insts
  let t := Store.fresh s.threads
  { s with
    mem := Memory.write s.mem a b
    insts := Store.set s.insts p (placedInst (a + 1) st ep)
    threads := Store.set s.threads t [⟨p, .feed ⟨a, 1⟩ 1 0, false⟩]
    input := .slot t :: s.input }

/-- A word placed where the next step fetches. -/
def State.place (s : State) : Encoded → State
  | .command c => s.placeCommand c
  | .wire st ep b => s.placeByte st ep b

end Sys2Proof.Machine
end

