-- ==== Sys2Proof/Machine/Step.lean ====
section
/-! DEFINITION. One step of the machine: fetch, decode, run; or serve an input of the host. -/

namespace Sys2Proof.Machine

/-- Decode a word and run the instruction it stands for; a rejected word is refused by name (spec/30_encoding.md R42). -/
def runWord (w : Encoded) (s : State) : Host.Outcome State Fault Refusal :=
  match decode w with
  | .ok i => exec i s
  | .error .undefinedOpcode => .refused .undefinedOpcode
  | .error .badOperand => .refused .badOperand

/-- One step. -/
def step (s : State) : Host.Outcome State Fault Refusal :=
  match s.nextMove with
  | (.idle, rest) => .next { s with input := rest }
  | (.run t p w, rest) => runWord w (s.serving rest t p)
  | (.handlerReturn t, rest) => (s.serving rest t s.cur.port).handlerReturn
  | (.write t a v, rest) => (s.serving rest t s.cur.port).hostWrite a v
  | (.endInstance t p, rest) => (s.serving rest t p).endInstance
  | (.stray, _) => .refused .notInitialised

/-- The state with an opcode-table word placed where the next step fetches (log entry 11). A word that is none of the table's
is placed nowhere. -/
def State.withFetchWord (s : State) (nbits w : Nat) : State :=
  match tableWord nbits w with
  | some e => s.place e
  | none => s

end Sys2Proof.Machine
end

