-- ==== Sys2Proof/Safety.lean ====
section
/-! DEFINITION. The terms claims are written in: the invariants of the machine (spec/10_state.md R19), runs, what one byte of a
P_FEED leaves, the byte fold that P_FEED is (spec/43_parser.md R68), and which states differ only in what cannot be observed
(spec/70_reset_and_hazards.md R82). -/

namespace Sys2Proof.Machine

/-! ### Invariants -/

/-- The invariants R19 gives an instance's registers (items 1, 2 and 5), with the bound of R12 and the partial length R64
leaves between the two length bytes. -/
structure Inst.ParserInv (i : Inst) : Prop where
  /-- R19 item 1: the declared body is one the length check passed. -/
  body_len : i.regs.state = .RP → 5 ≤ i.regs.expectedTotalLen ∧ i.regs.expectedTotalLen ≤ i.rxCapacity
  /-- R19 item 2, first sentence. -/
  count_lt : i.regs.state = .RP → i.regs.receivedCount < i.regs.expectedTotalLen
  /-- R19 item 2: no body byte is counted while the length is read. -/
  count_zero : i.regs.state = .RL1 ∨ i.regs.state = .RL2 → i.regs.receivedCount = 0
  /-- R19 item 2: in AM the count is 0, or the whole body of a completed frame. -/
  count_await : i.regs.state = .AM → i.regs.receivedCount = 0 ∨ i.regs.receivedCount = i.regs.expectedTotalLen
  /-- R19 item 5 (R15). -/
  no_escape : i.regs.state = .AM → i.regs.escapePending = false
  /-- R64: nothing of the length is known before its first byte. -/
  len_zero : i.regs.state = .RL1 → i.regs.expectedTotalLen = 0
  /-- R64: after the first length byte the length is that byte, in its place. -/
  len_partial : i.regs.state = .RL2 →
    i.regs.expectedTotalLen ≤ (match i.pOrder with | .LE => 255 | .BE => 65280)
  /-- R65, R16: the payload bytes received of a frame are bytes the parser has written since P_INIT. -/
  written : i.regs.state = .RP → min i.regs.receivedCount (i.regs.expectedTotalLen - 4) ≤ i.rxWritten
  /-- R19 item 3 (R28): the parser writes below `RX_CAPACITY - 4` only. -/
  written_le : i.rxWritten ≤ i.rxCapacity - 4
  /-- R12: the largest value is 65535 + 4. -/
  len_max : i.regs.expectedTotalLen ≤ 65539

/-- Memory, the instances and the threads are in their canonical form. -/
def State.Canonical (s : State) : Prop :=
  Memory.wf s.mem = true ∧ Store.wf s.insts = true ∧ Store.wf s.threads = true

/-- Every initialised instance keeps R19. -/
def State.ParserInv (s : State) : Prop := ∀ p i, s.inst p = some i → i.ParserInv

/-- One operation in progress is as an operation can be: its instance is initialised, a P_FEED has not read past its bytes and
is at a byte only if one is left, its bytes do not lie in its receive buffer (R87 item 3), and an ENC_SINK waits and will end
with one of its statuses (R56). -/
def State.FrameInv (s : State) (f : Frame) : Prop :=
  ∃ i, s.inst f.port = some i ∧
    match f.work with
    | .feed src n pos => pos ≤ n ∧ n ≤ src.size ∧ (f.waiting = false → pos < n) ∧ (src.first n).overlaps i.lent = false
    | .sink src n _ final => n ≤ src.size ∧ f.waiting = true ∧ (final = .OK ∨ final = .CALLBACK_MISSING)

/-- The operations in progress nest as R77 and R79 allow: all but the innermost of a thread wait for a handler, a P_FEED has
no operation on its instance around it, and no instance has operations of two threads. -/
structure State.OperationsInv (s : State) : Prop where
  frame : ∀ t f, f ∈ s.stackOf t → s.FrameInv f
  outer_wait : ∀ t f rest g, s.stackOf t = f :: rest → g ∈ rest → g.waiting = true
  feed_outermost : ∀ t above f below, s.stackOf t = above ++ f :: below → f.isFeed = true →
    ∀ g ∈ below, g.port ≠ f.port
  one_thread : ∀ t u f g, f ∈ s.stackOf t → g ∈ s.stackOf u → f.port = g.port → t = u

/-! ### Runs -/

/-- `k` steps. -/
def runSteps (k : Nat) (s : State) : Host.Outcome State Fault Refusal := Host.Core.run Sys2Proof.core k s

/-- The host takes `k` events of a thread, doing nothing else in their handlers. -/
def returns (t k : Nat) : List HostInput := List.replicate k (.handlerReturn t)

/-- Items put out for a thread at a port, at one depth. -/
def outputs (t p d : Nat) (xs : List Item) : List Output := xs.map fun x => ⟨t, p, d, x⟩

/-- A host thread issues a command at a port, and goes on with the inputs `rest`: the thread is not inside a P_FEED that is
at a byte, and no other thread's operation is on that instance (R79). -/
structure State.Issues (s : State) (t p : Nat) (c : Command) (rest : List HostInput) : Prop where
  input : s.input = .command t p c :: rest
  ready : s.running t = false
  alone : (s.serving rest t p).busyElsewhere = false

/-- The bytes of the `on_byte` events among some outputs, in order. -/
def byteEvents (xs : List Output) : List Byte :=
  xs.filterMap fun o => match o.item with
    | .event (.onByte b _) => some b
    | _ => none

/-- The events among some outputs, in order, without the results. -/
def eventsOf (xs : List Output) : List Output :=
  xs.filter fun o => match o.item with
    | .event _ => true
    | .result _ _ => false

/-! ### Bytes of a P_FEED -/

/-- The P_FEED that the thread being served has at a byte: its port, source, length and position, what lies below it, and its
instance. -/
def State.AtByte (s : State) (port : Nat) (src : BufRef) (n pos : Nat) (rest : List Frame) (i : Inst) : Prop :=
  s.stack = ⟨port, .feed src n pos, false⟩ :: rest ∧ s.inst port = some i

/-- `t` is `s` after that byte: its instance is `i'`, memory is `m'`, and the event `ev` was emitted, if any. Without an event
the P_FEED is at its next byte, or has ended with (OK, none); with one it waits. Everything else of the spec's state is as before. -/
def State.ByteDone (s t : State) (port : Nat) (src : BufRef) (n pos : Nat) (rest : List Frame) (i' : Inst) (m' : Memory)
    (ev : Option Event) : Prop :=
  t.inst port = some i' ∧ (∀ q, q ≠ port → t.inst q = s.inst q) ∧ t.mem = m' ∧ t.input = s.input ∧
  t.cur = ⟨s.cur.thread, port⟩ ∧ (∀ u, u ≠ s.cur.thread → t.stackOf u = s.stackOf u) ∧
  match ev with
  | some e =>
    t.stack = ⟨port, .feed src n (pos + 1), true⟩ :: rest ∧
    t.out = s.out ++ outputs s.cur.thread port rest.length [.event e]
  | none =>
    if pos + 1 < n then t.stack = ⟨port, .feed src n (pos + 1), false⟩ :: rest ∧ t.out = s.out
    else t.stack = rest ∧ t.out = s.out ++ outputs s.cur.thread port rest.length [.result .OK none]

/-- P_FEED as the left fold of P_BYTE that R68 says it is: the instance, memory and events after a sequence of bytes. -/
def Inst.feedBytes (i : Inst) (m : Memory) : List Byte → Inst × Memory × List Event
  | [] => (i, m, [])
  | b :: bs =>
    let r := i.afterByte m (i.pByte b)
    let t := Inst.feedBytes r.1 r.2.1 bs
    (t.1, t.2.1, r.2.2.toList ++ t.2.2)

/-- The instance's receive buffer may be written freely: it overlaps no other lent receive buffer and no source buffer of an
operation in progress (R79, R86, R87). -/
def State.ReceiveFree (s : State) (port : Nat) (i : Inst) : Prop :=
  s.lentToOther port i.lent = false ∧ s.sourceInUse i.lent = false

/-! ### What cannot be observed -/

/-- Two instances that differ at most in the three registers that R82 calls unobservable in state AM. -/
def Inst.Alike (i j : Inst) : Prop :=
  { i with regs := j.regs } = j ∧ i.regs.state = j.regs.state ∧ i.regs.escapePending = j.regs.escapePending ∧
    (i.regs.state ≠ .AM → i.regs = j.regs)

/-- Two states that differ at most in those registers. -/
def State.Alike (s t : State) : Prop :=
  { s with insts := t.insts } = t ∧ List.Forall₂ (fun a b => a.1 = b.1 ∧ Inst.Alike a.2 b.2) s.insts t.insts

/-- Two answers of which one is possible exactly when the other is, with states that differ at most in those registers. -/
def AnswersAlike : Answer → Answer → Prop
  | .next s, .next t => State.Alike s t
  | .fault e, .fault f => e = f
  | .refused e, .refused f => e = f
  | _, _ => False

/-- Two states that differ at most in the parser registers of their instances. -/
def State.SameButRegs (s t : State) : Prop :=
  { s with insts := t.insts } = t ∧
    List.Forall₂ (fun a b => a.1 = b.1 ∧ { a.2 with regs := b.2.regs } = b.2) s.insts t.insts

/-- Two states that differ at most in the parser registers of their instances and in what their lent receive buffers hold. -/
def State.SameButReceive (s t : State) : Prop :=
  { s with insts := t.insts, mem := t.mem } = t ∧
    List.Forall₂ (fun a b => a.1 = b.1 ∧ { a.2 with regs := b.2.regs, rxWritten := b.2.rxWritten } = b.2) s.insts t.insts ∧
    ∀ a, s.lentTo (oneByte a) = false → s.mem.read a = t.mem.read a

/-- Two answers with states that differ at most there. -/
def AnswersSameButReceive : Answer → Answer → Prop
  | .next s, .next t => State.SameButReceive s t
  | .fault e, .fault f => e = f
  | .refused e, .refused f => e = f
  | _, _ => False

/-- Two answers with states that differ at most in the parser registers. -/
def AnswersSameButRegs : Answer → Answer → Prop
  | .next s, .next t => State.SameButRegs s t
  | .fault e, .fault f => e = f
  | .refused e, .refused f => e = f
  | _, _ => False

end Sys2Proof.Machine
end

