-- ==== Sys2Proof/Certificates/Slice0/Obligations.lean ====
section
/-! DEFINITION. The statements for the provers: what the numbered rules of spec/ say, about this model. -/

open Sys2Proof Sys2Proof.Machine

/-! ### Encodings -/

/-- R39: a wire byte is of the first class of the table whose condition it meets; R42: none is illegal. -/
def Obligations.WireBytesFollowTheClassTable : Prop := ∀ (st : ParserState) (ep : Bool) (b : Byte),
  (b = 0x7E → decode (.wire st ep b) = .ok .marker) ∧
  (b ≠ 0x7E → st = .AM → decode (.wire st ep b) = .ok (.noise b)) ∧
  (b ≠ 0x7E → st ≠ .AM → ep = true → decode (.wire st ep b) = .ok (.escapedData b)) ∧
  (b = 0x7D → st ≠ .AM → ep = false → decode (.wire st ep b) = .ok .escape) ∧
  (b ≠ 0x7E → b ≠ 0x7D → st ≠ .AM → ep = false → decode (.wire st ep b) = .ok (.data b))

/-- Decode and encode agree on every well-formed instruction (R39, R40; slot layout: log entry 3). -/
def Obligations.DecodeOfEncodeIsTheInstruction : Prop := ∀ i : Instr, i.wf = true → decode (encode i) = .ok i

/-- Words written out from the tables of R40 and R39 decode to their instructions. -/
def Obligations.HandWrittenWordsDecode : Prop :=
  decode (.command ⟨0x01, [100, 5, 5]⟩) = .ok (.crc32 ⟨100, 5⟩ 5) ∧
  decode (.command ⟨0x02, [100, 9, 3]⟩) = .ok (.escsize ⟨100, 9⟩ 3) ∧
  decode (.command ⟨0x10, [100, 2, 2, 200, 16, 16]⟩) = .ok (.encBuf ⟨100, 2⟩ 2#16 ⟨200, 16⟩ 16) ∧
  decode (.command ⟨0x11, [100, 1, 1, 1]⟩) = .ok (.encSink ⟨100, 1⟩ 1#16 true) ∧
  decode (.command ⟨0x20, [1, 50, 8, 8, 1, 1, 0, 7]⟩) = .ok (.pInit .BE ⟨50, 8⟩ 8 true true false ⟨7⟩) ∧
  decode (.command ⟨0x21, [100, 12, 12]⟩) = .ok (.pFeed ⟨100, 12⟩ 12) ∧
  decode (.wire .RP true 0x7E) = .ok .marker ∧
  decode (.wire .AM false 0x7D) = .ok (.noise 0x7D) ∧
  decode (.wire .RL1 true 0x41) = .ok (.escapedData 0x41) ∧
  decode (.wire .RL2 false 0x7D) = .ok .escape ∧
  decode (.wire .RP false 0x5E) = .ok (.data 0x5E)

/-- R42: the step refuses a command whose opcode is not in R40's table, and one with an operand outside its slot: `N` above
65535, a 1-bit slot above 1, or a buffer shorter than the operation uses. On the wire nothing is illegal. -/
def Obligations.IllegalCommandsAreRefused : Prop :=
  (∀ (s : State) (t p : Nat) (op : Byte) (slots : List Nat) (rest : List HostInput),
    s.input = .command t p ⟨op, slots⟩ :: rest → s.running t = false →
    op ∉ [0x01, 0x02, 0x10, 0x11, 0x20, 0x21] → step s = .refused .undefinedOpcode) ∧
  (∀ (s : State) (t p : Nat) (c : Command) (rest : List HostInput),
    s.input = .command t p c :: rest → s.running t = false →
    ((∃ base size n, c.opcode ∈ [0x01, 0x02, 0x21] ∧ c.slots = [base, size, n] ∧ size < n) ∨
      (∃ base size n dbase dsize cap, c.opcode = 0x10 ∧ c.slots = [base, size, n, dbase, dsize, cap] ∧
        (65535 < n ∨ size < n ∨ dsize < cap)) ∨
      (∃ base size n flush, c.opcode = 0x11 ∧ c.slots = [base, size, n, flush] ∧ (65535 < n ∨ size < n ∨ 1 < flush)) ∨
      (∃ order base size cap hp hb hf ctx, c.opcode = 0x20 ∧ c.slots = [order, base, size, cap, hp, hb, hf, ctx] ∧
        (1 < order ∨ size < cap ∨ 1 < hp ∨ 1 < hb ∨ 1 < hf))) →
    step s = .refused .badOperand) ∧
  (∀ (st : ParserState) (ep : Bool) (b : Byte), ∃ i, decode (.wire st ep b) = .ok i)

/-- R11, R41: the codes of the parser states and of the statuses. -/
def Obligations.StateAndStatusCodes : Prop :=
  ParserState.AM.code = 0b00 ∧ ParserState.RL1.code = 0b01 ∧ ParserState.RL2.code = 0b10 ∧ ParserState.RP.code = 0b11 ∧
  Status.OK.code = 0x00 ∧ Status.BUFFER_TOO_SMALL.code = 0x01 ∧ Status.CALLBACK_MISSING.code = 0x02 ∧
  Status.SIZE_MISMATCH.code = 0x03

/-! ### The step -/

/-- The step runs the instruction that the command it takes decodes to, in the state without that input. -/
def Obligations.StepRunsTheDecodedCommand : Prop :=
  ∀ (s : State) (t p : Nat) (c : Command) (rest : List HostInput) (i : Instr),
    s.input = .command t p c :: rest → s.running t = false → decode (.command c) = .ok i →
    step s = exec i { s with input := rest, cur := ⟨t, p⟩ }

/-- The step runs, for a P_FEED that is at a byte, the class of that byte: in a slot of its thread, before an input of its
own thread, and when no input is left and it is the first such P_FEED (R39, R68; schedule: log entry 5). -/
def Obligations.StepRunsTheByteOfAFeed : Prop :=
  ∀ (s : State) (t port n pos : Nat) (src : BufRef) (below : List Frame) (i : Inst) (rest : List HostInput),
    s.stackOf t = ⟨port, .feed src n pos, false⟩ :: below → s.inst port = some i →
    (s.input = .slot t :: rest ∨
      (s.input = rest ∧ ∃ x xs, rest = x :: xs ∧ x.thread = t ∧ ∀ u, x ≠ .slot u) ∨
      (s.input = [] ∧ rest = [] ∧ s.firstRunning = some t)) →
    step s = exec (decodeWire i.regs.state i.regs.escapePending (s.read (src.base + pos)))
      { s with input := rest, cur := ⟨t, port⟩ }

/-- R80: with nothing to do, the block keeps its state. -/
def Obligations.IdleBlockKeepsItsState : Prop :=
  ∀ s : State, s.input = [] → (∀ t, s.running t = false) → step s = .next s

/-- R20: when the host's handler returns, the operation goes on: a P_FEED at its next byte, or to its end; an ENC_SINK with
its next event, or to its end with its status. -/
def Obligations.HandlerReturnGoesOn : Prop :=
  ∀ (s : State) (t port : Nat) (work : Work) (below : List Frame) (rest : List HostInput),
    s.input = .handlerReturn t :: rest → s.stackOf t = ⟨port, work, true⟩ :: below →
    ∃ u, step s = .next u ∧ u.insts = s.insts ∧ u.mem = s.mem ∧ u.input = rest ∧
      (∀ v, v ≠ t → u.stackOf v = s.stackOf v) ∧
      match work with
      | .feed src n pos =>
        if pos < n then u.stackOf t = ⟨port, .feed src n pos, false⟩ :: below ∧ u.out = s.out
        else u.stackOf t = below ∧ u.out = s.out ++ outputs t port below.length [.result .OK none]
      | .sink _ _ [] final =>
        u.stackOf t = below ∧ u.out = s.out ++ outputs t port below.length [.result final none]
      | .sink src n (e :: es) final =>
        u.stackOf t = ⟨port, .sink src n es final, true⟩ :: below ∧
        u.out = s.out ++ outputs t port below.length [.event e]

/-- The word the host places is what the next step decodes and runs (log entry 11). -/
def Obligations.PlacedWordRunsNext : Prop := ∀ (s : State) (w : Nat) (i : Instr), decodeTableWord 8 w = some i →
  ∃ u : State, step (s.withFetchWord 8 w) = exec i u ∧ u.input = s.input ∧ u.out = s.out ∧
    (∀ p, p ≠ u.cur.port → u.inst p = s.inst p) ∧ (∀ t, t ≠ u.cur.thread → u.stackOf t = s.stackOf t) ∧
    s.stackOf u.cur.thread = []

/-! ### The checksum generator -/

/-- R44: the step of one byte (least significant bit first, shifting right), the whole CRC, a table-driven step that gives
the same function, and the two published vectors. -/
def Obligations.CrcAlgorithm : Prop :=
  (∀ (c : Word) (b : Byte), crcStep c b =
    Nat.repeat (fun c : Word => if c.getLsbD 0 = true then (c >>> 1) ^^^ 0xEDB88320 else c >>> 1) 8 (c ^^^ b.setWidth 32)) ∧
  (∀ d : List Byte, crc32 d = d.foldl crcStep 0xFFFFFFFF ^^^ 0xFFFFFFFF) ∧
  (∀ (c : Word) (b : Byte), crcStep c b = (c >>> 8) ^^^ crcStep 0 ((c ^^^ b.setWidth 32).setWidth 8)) ∧
  crc32 [0x01, 0x02, 0x03, 0x04, 0x05] = 0x470B99F4 ∧
  crc32 [0x31, 0x32, 0x33, 0x34, 0x35, 0x36, 0x37, 0x38, 0x39] = 0xCBF43926

/-- R45: CRC32's opcode, its result, its refusal, its empty input, its example; any change of one bit changes the result. It
needs no instance, reads no configuration and changes no state. -/
def Obligations.Crc32Operation : Prop :=
  (∀ (slots : List Nat) (i : Instr), decode (.command ⟨0x01, slots⟩) = .ok i → ∃ src n, i = .crc32 src n ∧ n ≤ src.size) ∧
  (∀ (src : BufRef) (n : Nat), n ≤ src.size → ∃ slots, decode (.command ⟨0x01, slots⟩) = .ok (.crc32 src n)) ∧
  (∀ (s : State) (src : BufRef) (n : Nat), s.busyElsewhere = false → n ≤ src.size →
    exec (.crc32 src n) s = .next { s with
      out := s.out ++ outputs s.cur.thread s.cur.port s.stack.length
        [.result .OK (some (.crc (crc32 ((List.range n).map fun k => s.read (src.base + k)))))] }) ∧
  (∀ (s : State) (src : BufRef) (n : Nat), s.busyElsewhere = false → src.size < n →
    exec (.crc32 src n) s = .refused .badOperand) ∧
  crc32 [] = 0x00000000 ∧ crc32 [0x01, 0x02, 0x03, 0x04, 0x05] = 0x470B99F4 ∧
  (∀ (d : List Byte) (k j : Nat) (h : k < d.length), j < 8 → crc32 (d.set k (d[k] ^^^ (1#8 <<< j))) ≠ crc32 d)

/-! ### Byte stuffing -/

/-- R46: what `Stuff` gives, that it never gives 0x7E, and that nothing after an ESCAPE is reserved. -/
def Obligations.StuffEscapesTheReservedBytes : Prop := ∀ b : Byte,
  stuff 0x7E = [0x7D, 0x5E] ∧ stuff 0x7D = [0x7D, 0x5D] ∧ (b ≠ 0x7E → b ≠ 0x7D → stuff b = [b]) ∧
  0x7E ∉ stuff b ∧ ∀ c, stuff b = [0x7D, c] → c ≠ 0x7E ∧ c ≠ 0x7D

/-- R47: `StuffSeq` stuffs byte by byte, and its length is `EscSize`. -/
def Obligations.StuffSeqIsByteByByte : Prop := ∀ (b : Byte) (d e : List Byte),
  stuffSeq [] = [] ∧ stuffSeq (b :: d) = stuff b ++ stuffSeq d ∧ stuffSeq (d ++ e) = stuffSeq d ++ stuffSeq e ∧
  (stuffSeq d).length = escSize d

/-- R48: ESCSIZE's opcode, its result, its refusal, its bounds and its corner cases. It needs no instance, reads no
configuration and changes no state. -/
def Obligations.EscsizeOperation : Prop :=
  (∀ (slots : List Nat) (i : Instr), decode (.command ⟨0x02, slots⟩) = .ok i →
    ∃ src n, i = .escsize src n ∧ n ≤ src.size) ∧
  (∀ (src : BufRef) (n : Nat), n ≤ src.size → ∃ slots, decode (.command ⟨0x02, slots⟩) = .ok (.escsize src n)) ∧
  (∀ (s : State) (src : BufRef) (n : Nat), s.busyElsewhere = false → n ≤ src.size →
    exec (.escsize src n) s = .next { s with
      out := s.out ++ outputs s.cur.thread s.cur.port s.stack.length
        [.result .OK (some (.count (n +
          ((List.range n).filter fun k => s.read (src.base + k) = 0x7E ∨ s.read (src.base + k) = 0x7D).length)))] }) ∧
  (∀ (s : State) (src : BufRef) (n : Nat), s.busyElsewhere = false → src.size < n →
    exec (.escsize src n) s = .refused .badOperand) ∧
  (∀ d : List Byte, d.length ≤ escSize d ∧ escSize d ≤ 2 * d.length ∧
    ((∀ b ∈ d, b = 0x7E ∨ b = 0x7D) → escSize d = 2 * d.length) ∧
    ((∀ b ∈ d, b ≠ 0x7E ∧ b ≠ 0x7D) → escSize d = d.length)) ∧
  escSize [] = 0 ∧ escSize [0x7E, 0x7D, 0x01] = 5 ∧ escSize [0x5E, 0x5D, 0x7F] = 3

/-- R49: the cases of `Unstuff`, and that decoding inverts encoding. -/
def Obligations.UnstuffInvertsStuff : Prop :=
  (∀ b : Byte, unstuff true b = (false, some (b ^^^ 0x20)) ∧ unstuff false 0x7D = (true, none) ∧
    (b ≠ 0x7D → unstuff false b = (false, some b))) ∧
  ∀ d : List Byte, unstuffSeq false (stuffSeq d) = (false, d)

/-- R50: a 0x7E byte is a marker whatever is pending, and the data byte 0x7E arrives only as the pair `7D 5E`. -/
def Obligations.MarkerValueArrivesOnlyEscaped : Prop :=
  (∀ (i : Inst), i.pByte 0x7E = ⟨⟨.RL1, false, 0, 0, 0⟩, none, false⟩) ∧
  ∀ (ep : Bool) (b : Byte), b ≠ 0x7E → ((unstuff ep b).2 = some 0x7E ↔ ep = true ∧ b = 0x5E)

/-! ### The wire fields and frames -/

/-- R35: the length field in both orders, and back; the parser adds the 4 checksum bytes itself. -/
def Obligations.LengthFieldInBothOrders : Prop :=
  (∀ len : BitVec 16,
    lenBytes .LE len = [len.extractLsb' 0 8, len.extractLsb' 8 8] ∧
    lenBytes .BE len = [len.extractLsb' 8 8, len.extractLsb' 0 8]) ∧
  (∀ c1 c2 : Byte, lenValue .LE c1 c2 = c1.toNat + 256 * c2.toNat ∧ lenValue .BE c1 c2 = 256 * c1.toNat + c2.toNat) ∧
  (∀ (o : ByteOrder) (len : BitVec 16), ∃ c1 c2, lenBytes o len = [c1, c2] ∧ lenValue o c1 c2 = len.toNat) ∧
  (∀ (o : ByteOrder) (p : List Byte), (fieldSeq o p).take 2 = lenBytes o (BitVec.ofNat 16 p.length)) ∧
  ∀ (o : ByteOrder) (r : Regs) (c1 c2 : Byte), (r.lengthFirst o c1).bodyLen o c2 = lenValue o c1 c2 + 4

/-- R36, R66: the checksum field in both orders; four shifts rebuild it, whatever the register held. -/
def Obligations.ChecksumFieldInBothOrders : Prop :=
  (∀ c : Word,
    crcBytes .LE c = [c.extractLsb' 0 8, c.extractLsb' 8 8, c.extractLsb' 16 8, c.extractLsb' 24 8] ∧
    crcBytes .BE c = [c.extractLsb' 24 8, c.extractLsb' 16 8, c.extractLsb' 8 8, c.extractLsb' 0 8]) ∧
  (∀ (c : Word) (d : Byte), checksumShift .LE c d = (c >>> 8) ||| (d.setWidth 32 <<< 24) ∧
    checksumShift .BE c d = (c <<< 8) ||| d.setWidth 32) ∧
  (∀ (o : ByteOrder) (c : Word), ∃ d0 d1 d2 d3, crcBytes o c = [d0, d1, d2, d3] ∧ crcValue o d0 d1 d2 d3 = c.toNat) ∧
  (∀ d0 d1 d2 d3 : Byte,
    crcValue .LE d0 d1 d2 d3 = d0.toNat + 2 ^ 8 * d1.toNat + 2 ^ 16 * d2.toNat + 2 ^ 24 * d3.toNat ∧
    crcValue .BE d0 d1 d2 d3 = 2 ^ 24 * d0.toNat + 2 ^ 16 * d1.toNat + 2 ^ 8 * d2.toNat + d3.toNat) ∧
  (∀ (o : ByteOrder) (p : List Byte), (fieldSeq o p).drop (2 + p.length) = crcBytes o (crc32 p)) ∧
  ∀ (o : ByteOrder) (c : Word) (d0 d1 d2 d3 : Byte),
    (checksumShift o (checksumShift o (checksumShift o (checksumShift o c d0) d1) d2) d3).toNat = crcValue o d0 d1 d2 d3

/-- R51, R52, R37: the frame is the marker and the stuffed fields, each within its bounds, and holds 0x7E nowhere else. -/
def Obligations.FrameIsMarkerAndStuffedFields : Prop := ∀ (o : ByteOrder) (p : List Byte),
  fieldSeq o p = lenBytes o (BitVec.ofNat 16 p.length) ++ p ++ crcBytes o (crc32 p) ∧ (fieldSeq o p).length = 2 + p.length + 4 ∧
  frameBytes o p = [0x7E] ++ stuffSeq (lenBytes o (BitVec.ofNat 16 p.length)) ++ stuffSeq p ++
    stuffSeq (crcBytes o (crc32 p)) ∧
  frameBytes o p = [0x7E] ++ stuffSeq (fieldSeq o p) ∧ 0x7E ∉ (frameBytes o p).drop 1 ∧
  2 ≤ (stuffSeq (lenBytes o (BitVec.ofNat 16 p.length))).length ∧
  (stuffSeq (lenBytes o (BitVec.ofNat 16 p.length))).length ≤ 4 ∧
  p.length ≤ (stuffSeq p).length ∧ (stuffSeq p).length ≤ 2 * p.length ∧
  4 ≤ (stuffSeq (crcBytes o (crc32 p))).length ∧ (stuffSeq (crcBytes o (crc32 p))).length ≤ 8

/-- R53, R38: `FrameSize` is the length of the frame, the same in both orders, between its bounds; 7 is reached only by the
empty payload. -/
def Obligations.FrameSizeIsTheLength : Prop := ∀ (o : ByteOrder) (p : List Byte),
  frameSize o p = 1 + escSize (lenBytes o (BitVec.ofNat 16 p.length)) + escSize p + escSize (crcBytes o (crc32 p)) ∧
  frameSize o p = (frameBytes o p).length ∧ frameSize .LE p = frameSize .BE p ∧
  7 + p.length ≤ frameSize o p ∧ frameSize o p ≤ 1 + 4 + 2 * p.length + 8 ∧ (frameSize o p = 7 ↔ p = []) ∧
  frameBytes o [] = [0x7E, 0x00, 0x00, 0x00, 0x00, 0x00, 0x00] ∧ (p.length ≤ 65535 → frameSize o p ≤ 131081)

/-! ### The frame encoder -/

/-- R54: ENC_BUF fails exactly when the destination is shorter than the frame, writing nothing; else it writes the frame to
`dst[0..size)` and nothing else, and returns its size. It needs no handler. Where `dst[0..size)` shares a byte with a lent
receive buffer, which ENC_BUF does not write (R16, R22), it is refused (log entry 12). -/
def Obligations.EncBufOperation : Prop :=
  ∀ (s : State) (src dst : BufRef) (len : BitVec 16) (cap : Nat) (i : Inst),
    s.busyElsewhere = false → s.inst s.cur.port = some i → len.toNat ≤ src.size → cap ≤ dst.size →
    encBufHazard s (src.first len.toNat) (dst.first cap) = false →
    let p := (List.range len.toNat).map fun k => s.read (src.base + k)
    let size := frameSize i.pOrder p
    (cap < size → exec (.encBuf src len dst cap) s = .next { s with
      out := s.out ++ outputs s.cur.thread s.cur.port s.stack.length [.result .BUFFER_TOO_SMALL (some (.count 0))] }) ∧
    (size ≤ cap → s.lentTo ⟨dst.base, size⟩ = false → ∃ m : Memory,
      exec (.encBuf src len dst cap) s = .next { s with
        mem := m
        out := s.out ++ outputs s.cur.thread s.cur.port s.stack.length [.result .OK (some (.count size))] } ∧
      (∀ k (h : k < (frameBytes i.pOrder p).length), m.read (dst.base + k) = (frameBytes i.pOrder p)[k]) ∧
      ∀ a, a < dst.base ∨ dst.base + size ≤ a → m.read a = s.mem.read a) ∧
    (size ≤ cap → s.lentTo ⟨dst.base, size⟩ = true → exec (.encBuf src len dst cap) s = .refused .lentBufferWritten)

/-- R55: SIZE_MISMATCH is unreachable. No step and no instruction from any state faults; no instruction puts out that status,
and no step does from a state in which every ENC_SINK in progress will end with one of its own statuses (R56), which every
step keeps (OperationsInv). -/
def Obligations.NoStepFaults : Prop := ∀ s : State,
  (∀ e, step s ≠ .fault e) ∧
  ((∀ u f src n todo final, f ∈ s.stackOf u → f.work = .sink src n todo final → final = .OK ∨ final = .CALLBACK_MISSING) →
    ∀ t, step s = .next t → ∃ xs, t.out = s.out ++ xs ∧ ∀ o ∈ xs, ∀ v, o.item ≠ .result .SIZE_MISMATCH v) ∧
  (∀ i : Instr, (∀ e, exec i s ≠ .fault e) ∧
    ∀ t, exec i s = .next t → ∃ xs, t.out = s.out ++ xs ∧ ∀ o ∈ xs, ∀ v, o.item ≠ .result .SIZE_MISMATCH v)

/-- R56, R57, R74: ENC_SINK's first answer: CALLBACK_MISSING with no event when the byte sink is missing, or the flush sink
under UPFRONT; otherwise the marker byte is emitted, and the rest of the frame and, where its sink is there, the flush are
still to come. -/
def Obligations.EncSinkBegins : Prop :=
  ∀ (s : State) (src : BufRef) (len : BitVec 16) (flush : Bool) (i : Inst),
    s.busyElsewhere = false → s.inst s.cur.port = some i → len.toNat ≤ src.size →
    let p := (List.range len.toNat).map fun k => s.read (src.base + k)
    let missing := exec (.encSink src len flush) s = .next { s with
      out := s.out ++ outputs s.cur.thread s.cur.port s.stack.length [.result .CALLBACK_MISSING none] }
    let started (todo : List Event) (final : Status) := ∃ t, exec (.encSink src len flush) s = .next t ∧
      t.out = s.out ++ outputs s.cur.thread s.cur.port s.stack.length [.event (.onByte 0x7E i.ctx)] ∧
      t.stack = ⟨s.cur.port, .sink src len.toNat todo final, true⟩ :: s.stack ∧ t.insts = s.insts ∧ t.mem = s.mem ∧
      t.input = s.input ∧ t.cur = s.cur ∧ ∀ u, u ≠ s.cur.thread → t.stackOf u = s.stackOf u
    let bytes := ((frameBytes i.pOrder p).drop 1).map (Event.onByte · i.ctx)
    (i.hasByteSink = false → missing) ∧
    (i.hasByteSink = true → flush = false → started bytes .OK) ∧
    (i.hasByteSink = true → flush = true → i.hasFlushSink = true → started (bytes ++ [.onFlush i.ctx]) .OK) ∧
    (i.hasByteSink = true → flush = true → i.hasFlushSink = false →
      match Config.pFlushCheck with
      | .UPFRONT => missing
      | .AT_FLUSH => started bytes .CALLBACK_MISSING)

/-- R56, R57: an ENC_SINK whose events the host takes emits exactly the frame's bytes in order, then the flush if asked for,
and ends with its status; it changes no memory and no instance. -/
def Obligations.EncSinkRunEmitsTheFrame : Prop :=
  ∀ (s : State) (t p flag : Nat) (src : BufRef) (len : BitVec 16) (i : Inst), flag ≤ 1 →
    s.inst p = some i → len.toNat ≤ src.size →
    let bytes : List Item := (frameBytes i.pOrder (s.srcBytes src len.toNat)).map fun b => .event (.onByte b i.ctx)
    let items : List Item :=
      if i.hasByteSink = false then [.result .CALLBACK_MISSING none]
      else if flag = 0 then bytes ++ [.result .OK none]
      else if i.hasFlushSink = true then bytes ++ [.event (.onFlush i.ctx), .result .OK none]
      else match Config.pFlushCheck with
        | .UPFRONT => [.result .CALLBACK_MISSING none]
        | .AT_FLUSH => bytes ++ [.result .CALLBACK_MISSING none]
    s.Issues t p ⟨0x11, [src.base, src.size, len.toNat, flag]⟩ (returns t (items.length - 1)) →
    ∃ u, runSteps items.length s = .next u ∧ u.out = s.out ++ outputs t p (s.stackOf t).length items ∧
      u.mem = s.mem ∧ u.insts = s.insts ∧ u.input = [] ∧ ∀ v, u.stackOf v = s.stackOf v

/-- R58: the bytes ENC_BUF writes are the bytes ENC_SINK emits, with or without a flush. -/
def Obligations.EncBufAndEncSinkAgree : Prop :=
  ∀ (s t1 : State) (t p flag : Nat) (src dst : BufRef) (len : BitVec 16) (cap : Nat) (i : Inst),
    s.inst p = some i → i.hasByteSink = true → flag ≤ 1 → (flag = 1 → i.hasFlushSink = true) → len.toNat ≤ src.size →
    let size := frameSize i.pOrder (s.srcBytes src len.toNat)
    s.Issues t p ⟨0x11, [src.base, src.size, len.toNat, flag]⟩ (returns t (size + flag)) →
    exec (.encBuf src len dst cap) { s with cur := ⟨t, p⟩ } = .next t1 → size ≤ cap →
    ∃ u, runSteps (size + flag + 1) s = .next u ∧ t1.mem.bytes dst.base size = byteEvents (u.out.drop s.out.length) ∧
      t1.mem.bytes dst.base size = frameBytes i.pOrder (s.srcBytes src len.toNat)

/-- R90: the bound `ESCSIZE(p) + 13` is always enough. -/
def Obligations.DestinationBoundIsEnough : Prop := ∀ (o : ByteOrder) (p : List Byte), frameSize o p ≤ escSize p + 13

/-! ### The parser -/

/-- R59: P_INIT's opcode; it configures the instance and puts its parser in the waiting state, from any earlier state, writing
nothing in the buffer and emitting no event; only a buffer shorter than its capacity is refused; with a capacity below 5 no
body is ever read. -/
def Obligations.PInitOperation : Prop :=
  (∀ (slots : List Nat) (i : Instr), decode (.command ⟨0x20, slots⟩) = .ok i →
    ∃ order rx cap hp hb hf ctx, i = .pInit order rx cap hp hb hf ctx ∧ cap ≤ rx.size) ∧
  (∀ (order : ByteOrder) (rx : BufRef) (cap : Nat) (hp hb hf : Bool) (ctx : Ctx), cap ≤ rx.size →
    ∃ slots, decode (.command ⟨0x20, slots⟩) = .ok (.pInit order rx cap hp hb hf ctx)) ∧
  (∀ (o : ByteOrder) (cap : Nat) (r : Regs) (d : Byte), cap < 5 → (r.lengthSecond o cap d).state = .AM) ∧
  ∀ (s : State) (order : ByteOrder) (rx : BufRef) (cap : Nat) (hp hb hf : Bool) (ctx : Ctx),
    s.busyElsewhere = false → s.inOwnHandler = false →
    (cap ≤ rx.size → ∃ t, exec (.pInit order rx cap hp hb hf ctx) s = .next t ∧
      (∃ i, t.inst s.cur.port = some i ∧ i.pOrder = order ∧ i.rxBuffer = rx ∧ i.rxCapacity = cap ∧ i.hasPacketSink = hp ∧
        i.hasByteSink = hb ∧ i.hasFlushSink = hf ∧ i.ctx = ctx ∧ i.regs = ⟨.AM, false, 0, 0, 0x00000000⟩) ∧
      (∀ q, q ≠ s.cur.port → t.inst q = s.inst q) ∧ t.mem = s.mem ∧ t.threads = s.threads ∧ t.input = s.input ∧
      t.cur = s.cur ∧
      t.out = s.out ++ outputs s.cur.thread s.cur.port s.stack.length [.result .OK none]) ∧
    (rx.size < cap → exec (.pInit order rx cap hp hb hf ctx) s = .refused .badOperand)

/-- R16, R81: a byte of a lent receive buffer holds no known value until its parser writes it: right after P_INIT at every
index, whatever was there; and in every state at every index the parser has not written, where the parser's own read gives the
free value of its loan, and any other read the free value of the loan of an instance whose parser has not written the byte, which
is that instance where no other is lent the byte. A step lets the parser's unwritten part shrink by at most the byte at
`received_count` that it stores in RP. Every other address reads as host memory holds it; and the bytes that `FrameEnd` reads
(R67) are bytes the parser has written, so no rule reads an unknown one (I4). How it is told apart is log entry 13. -/
def Obligations.LentBytesHoldNoKnownValue : Prop :=
  (∀ (s : State) (order : ByteOrder) (rx : BufRef) (cap : Nat) (hp hb hf : Bool) (ctx : Ctx),
    s.busyElsewhere = false → s.inOwnHandler = false → cap ≤ rx.size →
    ∃ t i, exec (.pInit order rx cap hp hb hf ctx) s = .next t ∧ t.inst s.cur.port = some i ∧ i.rxWritten = 0 ∧
      i.rxBuffer = rx ∧ i.rxCapacity = cap ∧
      (∀ k, k < cap → i.rxRead t.mem k = Config.lentByte s.loans (rx.base + k)) ∧
      ∀ k, k < cap → ∃ loan, t.read (rx.base + k) = Config.lentByte loan (rx.base + k)) ∧
  (∀ (i : Inst) (m : Memory) (k : Nat), i.rxWritten ≤ k → k < i.rxCapacity →
    i.rxRead m k = Config.lentByte i.loan (i.rxBuffer.base + k)) ∧
  (∀ (s : State) (p : Nat) (i : Inst) (k : Nat), s.inst p = some i → i.rxWritten ≤ k → k < i.rxCapacity →
    (∃ e ∈ s.insts, s.read (i.rxBuffer.base + k) = Config.lentByte e.2.loan (i.rxBuffer.base + k) ∧
      e.2.rxBuffer.base + e.2.rxWritten ≤ i.rxBuffer.base + k ∧
      i.rxBuffer.base + k < e.2.rxBuffer.base + e.2.rxCapacity) ∧
    (s.lentToOther p (oneByte (i.rxBuffer.base + k)) = false →
      s.read (i.rxBuffer.base + k) = Config.lentByte i.loan (i.rxBuffer.base + k))) ∧
  (∀ (s t : State) (q : Nat) (i j : Inst) (k : Nat), step s = .next t → s.ParserInv → s.inst q = some i →
    t.inst q = some j → i.rxWritten ≤ k →
    j.rxWritten ≤ k ∨
      (i.regs.state = .RP ∧ k = i.regs.receivedCount ∧ ∃ th st ep b, s.nextMove.1 = .run th q (.wire st ep b))) ∧
  (∀ (s : State) (a : Nat),
    (∀ e ∈ s.insts, a < e.2.rxBuffer.base + e.2.rxWritten ∨ e.2.rxBuffer.base + e.2.rxCapacity ≤ a) →
    s.read a = s.mem.read a) ∧
  (∀ (i : Inst) (m : Memory) (k : Nat), i.ParserInv → i.regs.state = .RP →
    k < min i.regs.receivedCount (i.regs.expectedTotalLen - 4) → i.rxRead m k = m.read (i.rxBuffer.base + k))

/-- R68: P_FEED begins at byte 0 of its source; with no bytes it changes nothing and returns (OK, none). -/
def Obligations.PFeedBegins : Prop :=
  ∀ (s : State) (src : BufRef) (n : Nat) (i : Inst), s.busyElsewhere = false → s.inOwnHandler = false →
    s.inst s.cur.port = some i → n ≤ src.size → (src.first n).overlaps i.lent = false →
    (n = 0 → exec (.pFeed src n) s = .next { s with
      out := s.out ++ outputs s.cur.thread s.cur.port s.stack.length [.result .OK none] }) ∧
    (0 < n → ∃ t, exec (.pFeed src n) s = .next t ∧ t.stack = ⟨s.cur.port, .feed src n 0, false⟩ :: s.stack ∧
      t.insts = s.insts ∧ t.mem = s.mem ∧ t.out = s.out ∧ t.input = s.input ∧ t.cur = s.cur ∧
      ∀ u, u ≠ s.cur.thread → t.stackOf u = s.stackOf u)

/-- R61: a marker starts a new frame attempt in every state, with no event and no buffer write. -/
def Obligations.MarkerStartsAFrame : Prop :=
  ∀ (s : State) (port n pos : Nat) (src : BufRef) (rest : List Frame) (i : Inst), s.AtByte port src n pos rest i →
    ∃ t, exec .marker s = .next t ∧
      s.ByteDone t port src n pos rest { i with regs := ⟨.RL1, false, 0, 0, 0x00000000⟩ } s.mem none

/-- R62: in AM every byte but 0x7E, 0x7D among them, is noise, and a noise byte changes no register and no buffer. -/
def Obligations.NoiseIsDiscarded : Prop :=
  (∀ (ep : Bool) (b : Byte), b ≠ 0x7E → decode (.wire .AM ep b) = .ok (.noise b)) ∧
  ∀ (s : State) (port n pos : Nat) (src : BufRef) (rest : List Frame) (i : Inst) (b : Byte),
    s.AtByte port src n pos rest i →
    ∃ t, exec (.noise b) s = .next t ∧ s.ByteDone t port src n pos rest i s.mem none

/-- R63: an escape introducer sets the flag and does nothing else. -/
def Obligations.EscapeOnlySetsTheFlag : Prop :=
  ∀ (s : State) (port n pos : Nat) (src : BufRef) (rest : List Frame) (i : Inst), s.AtByte port src n pos rest i →
    ∃ t, exec .escape s = .next t ∧
      s.ByteDone t port src n pos rest { i with regs := { i.regs with escapePending := true } } s.mem none

/-- R63: an escaped byte does what the plain byte with bit 0x20 flipped does. -/
def Obligations.EscapedDataIsTheFlippedByte : Prop := ∀ (s : State) (b : Byte),
  exec (.escapedData b) s = exec (.data (b ^^^ 0x20)) s

/-- R64, with R63's data byte: in RL1 a data byte is the first length byte, in its place by `P_ORDER`; in RL2 a data byte
completes the length, and the frame is rejected to AM exactly when the body is longer than the capacity or shorter than 5.
Nothing is stored and no event is emitted. The data byte is a plain one or comes as the second byte of an escape pair. -/
def Obligations.LengthStep : Prop :=
  ∀ (s : State) (port n pos : Nat) (src : BufRef) (rest : List Frame) (i : Inst) (d : Byte),
    s.AtByte port src n pos rest i →
    (i.regs.state = .RL1 →
      let i' := { i with regs := { i.regs with
        state := .RL2, escapePending := false
        expectedTotalLen := match i.pOrder with | .LE => d.toNat | .BE => 256 * d.toNat } }
      (∃ t, exec (.data d) s = .next t ∧ s.ByteDone t port src n pos rest i' s.mem none) ∧
      ∃ t, exec (.escapedData (d ^^^ 0x20)) s = .next t ∧ s.ByteDone t port src n pos rest i' s.mem none) ∧
    (i.regs.state = .RL2 →
      let etl := (match i.pOrder with
        | .LE => i.regs.expectedTotalLen + 256 * d.toNat
        | .BE => i.regs.expectedTotalLen + d.toNat) + 4
      let i' := { i with regs := { i.regs with
        state := if etl > i.rxCapacity ∨ etl < 5 then .AM else .RP, escapePending := false, expectedTotalLen := etl } }
      (∃ t, exec (.data d) s = .next t ∧ s.ByteDone t port src n pos rest i' s.mem none) ∧
      ∃ t, exec (.escapedData (d ^^^ 0x20)) s = .next t ∧ s.ByteDone t port src n pos rest i' s.mem none)

/-- R65: in RP a payload byte goes to `rx_buffer[received_count]`, which the parser has then written (R16; log entry 13), and to
no other byte of memory. It is refused only where that byte lies in another instance's receive buffer or in a source buffer in
use (R79, R86, R87; log entry 12). -/
def Obligations.PayloadByteIsStored : Prop :=
  ∀ (s : State) (port n pos : Nat) (src : BufRef) (rest : List Frame) (i : Inst) (d : Byte),
    s.AtByte port src n pos rest i → i.regs.state = .RP → i.ParserInv →
    i.regs.receivedCount < i.regs.expectedTotalLen - 4 →
    let a := i.rxBuffer.base + i.regs.receivedCount
    let i' := { i with
      regs := { i.regs with escapePending := false, receivedCount := i.regs.receivedCount + 1 }
      rxWritten := max i.rxWritten (i.regs.receivedCount + 1) }
    (s.lentToOther port (oneByte a) = true → exec (.data d) s = .refused .lentBufferWritten ∧
      exec (.escapedData (d ^^^ 0x20)) s = .refused .lentBufferWritten) ∧
    (s.lentToOther port (oneByte a) = false → s.sourceInUse (oneByte a) = true →
      exec (.data d) s = .refused .bufferHazard ∧ exec (.escapedData (d ^^^ 0x20)) s = .refused .bufferHazard) ∧
    (s.lentToOther port (oneByte a) = false → s.sourceInUse (oneByte a) = false →
      ∃ m : Memory, m.read a = d ∧ (∀ b, b ≠ a → m.read b = s.mem.read b) ∧
        (∃ t, exec (.data d) s = .next t ∧ s.ByteDone t port src n pos rest i' m none) ∧
        ∃ t, exec (.escapedData (d ^^^ 0x20)) s = .next t ∧ s.ByteDone t port src n pos rest i' m none)

/-- R65, R66: in RP a checksum byte that is not the last is shifted into the running checksum and stored nowhere. -/
def Obligations.ChecksumByteIsShifted : Prop :=
  ∀ (s : State) (port n pos : Nat) (src : BufRef) (rest : List Frame) (i : Inst) (d : Byte),
    s.AtByte port src n pos rest i → i.regs.state = .RP →
    i.regs.expectedTotalLen - 4 ≤ i.regs.receivedCount → i.regs.receivedCount + 1 ≠ i.regs.expectedTotalLen →
    let i' := { i with regs := { i.regs with
      escapePending := false, receivedCount := i.regs.receivedCount + 1
      runningChecksum := match i.pOrder with
        | .LE => (i.regs.runningChecksum >>> 8) ||| (d.setWidth 32 <<< 24)
        | .BE => (i.regs.runningChecksum <<< 8) ||| d.setWidth 32 } }
    (∃ t, exec (.data d) s = .next t ∧ s.ByteDone t port src n pos rest i' s.mem none) ∧
    ∃ t, exec (.escapedData (d ^^^ 0x20)) s = .next t ∧ s.ByteDone t port src n pos rest i' s.mem none

/-- R67, R69: the last checksum byte ends the frame in AM, and emits `on_packet` with the payload exactly when the checksum
matches and the packet sink is there. That AM is already reached when the event is emitted, before its handler runs, is the
model's choice, which R67 and D13 leave open (log entry 9). -/
def Obligations.FrameEndDeliversValidFrames : Prop :=
  ∀ (s : State) (port n pos : Nat) (src : BufRef) (rest : List Frame) (i : Inst) (d : Byte),
    s.AtByte port src n pos rest i → i.regs.state = .RP → i.ParserInv →
    i.regs.receivedCount + 1 = i.regs.expectedTotalLen →
    let c : Word := match i.pOrder with
      | .LE => (i.regs.runningChecksum >>> 8) ||| (d.setWidth 32 <<< 24)
      | .BE => (i.regs.runningChecksum <<< 8) ||| d.setWidth 32
    let len := i.regs.receivedCount + 1 - 4
    let payload := (List.range len).map fun k => s.mem.read (i.rxBuffer.base + k)
    let i' := { i with regs := { i.regs with
      state := .AM, escapePending := false, receivedCount := i.regs.receivedCount + 1, runningChecksum := c } }
    let ev := if crc32 payload = c ∧ i.hasPacketSink = true then some (Event.onPacket payload len i.ctx) else none
    (∃ t, exec (.data d) s = .next t ∧ s.ByteDone t port src n pos rest i' s.mem ev) ∧
    ∃ t, exec (.escapedData (d ^^^ 0x20)) s = .next t ∧ s.ByteDone t port src n pos rest i' s.mem ev

/-- P_BYTE is not a command of its own (43_parser.md): a wire byte class runs only for a P_FEED of the thread that is at a byte,
on an initialised instance (R83). -/
def Obligations.WireByteNeedsAFeed : Prop := ∀ (s : State) (op : Instr) (b : Byte),
  op = .marker ∨ op = .noise b ∨ op = .escapedData b ∨ op = .escape ∨ op = .data b →
  (s.running s.cur.thread = false → exec op s = .refused .notFeeding) ∧
  ∀ (port n pos : Nat) (src : BufRef) (rest : List Frame),
    s.stack = ⟨port, .feed src n pos, false⟩ :: rest → s.inst port = none → exec op s = .refused .notInitialised

/-- R60: the class that R39 gives a byte does what the stages of `P_BYTE` do with it. -/
def Obligations.ByteClassesAreThePByteStages : Prop :=
  ∀ (s : State) (port n pos : Nat) (src : BufRef) (rest : List Frame) (i : Inst) (b : Byte),
    s.AtByte port src n pos rest i →
    exec (decodeWire i.regs.state i.regs.escapePending b) s =
      s.finishByte rest port src n pos i
        (if b = 0x7E then ⟨⟨.RL1, false, 0, 0, 0⟩, none, false⟩
         else if i.regs.state = .AM then ⟨i.regs, none, false⟩
         else match unstuff i.regs.escapePending b with
           | (ep, none) => ⟨{ i.regs with escapePending := ep }, none, false⟩
           | (ep, some d) => { i.regs with escapePending := ep }.dataStep i.pOrder i.rxCapacity d)

/-- R68: a P_FEED whose events the host takes runs to its end as the left fold of `P_BYTE` over its bytes: registers, buffer
writes and events in order, then (OK, none). -/
def Obligations.PFeedRunIsTheFoldOfPByte : Prop :=
  ∀ (s : State) (t p n : Nat) (src : BufRef) (i : Inst), s.inst p = some i → i.ParserInv → s.ReceiveFree p i →
    n ≤ src.size → (src.first n).overlaps i.lent = false → (∀ v, s.running v = false) →
    let r := i.feedBytes s.mem (s.srcBytes src n)
    s.Issues t p ⟨0x21, [src.base, src.size, n]⟩ (returns t r.2.2.length) →
    (s.serving [] t p).inOwnHandler = false →
    ∃ k u, runSteps k s = .next u ∧ u.inst p = some r.1 ∧ (∀ q, q ≠ p → u.inst q = s.inst q) ∧ u.mem = r.2.1 ∧
      u.input = [] ∧ u.out = s.out ++ outputs t p (s.stackOf t).length (r.2.2.map .event ++ [.result .OK none]) ∧
      ∀ v, u.stackOf v = s.stackOf v

/-- R68, R88: where the byte stream is split over P_FEED calls does not matter: the registers, the memory and the events are
those of one call. -/
def Obligations.SplitDeliveryDoesNotMatter : Prop :=
  ∀ (s : State) (t p n m : Nat) (src : BufRef) (i : Inst), s.inst p = some i → i.ParserInv → s.ReceiveFree p i →
    n + m ≤ src.size → (src.first (n + m)).overlaps i.lent = false → (∀ v, s.running v = false) →
    (s.serving [] t p).busyElsewhere = false → (s.serving [] t p).inOwnHandler = false →
    ∃ (ea eb k l : Nat) (u v : State),
      runSteps k { s with input := .command t p ⟨0x21, [src.base, src.size, n + m]⟩ :: returns t (ea + eb) } = .next u ∧
      runSteps l { s with input := (.command t p ⟨0x21, [src.base, src.size, n]⟩ :: returns t ea) ++
        (.command t p ⟨0x21, [src.base + n, src.size - n, m]⟩ :: returns t eb) } = .next v ∧
      u.input = [] ∧ v.input = [] ∧ u.inst p = v.inst p ∧ u.mem = v.mem ∧
      eventsOf (u.out.drop s.out.length) = eventsOf (v.out.drop s.out.length) ∧
      (∀ w, u.stackOf w = s.stackOf w) ∧ ∀ w, v.stackOf w = s.stackOf w

/-- W8 as C2 resolves it: feeding the encoded frame of a payload that fits delivers that payload exactly once, whatever the
parser was doing before. -/
def Obligations.EncodedFrameIsDeliveredOnce : Prop :=
  ∀ (s : State) (t p n : Nat) (src : BufRef) (i : Inst) (payload : List Byte), s.inst p = some i → i.ParserInv →
    s.ReceiveFree p i → n ≤ src.size → (src.first n).overlaps i.lent = false → (∀ v, s.running v = false) →
    s.srcBytes src n = frameBytes i.pOrder payload → 1 ≤ payload.length → payload.length ≤ 65535 →
    payload.length + 4 ≤ i.rxCapacity → i.hasPacketSink = true →
    s.Issues t p ⟨0x21, [src.base, src.size, n]⟩ (returns t 1) → (s.serving [] t p).inOwnHandler = false →
    ∃ k u, runSteps k s = .next u ∧
      u.out = s.out ++ outputs t p (s.stackOf t).length
        [.event (.onPacket payload payload.length i.ctx), .result .OK none] ∧
      ∃ j, u.inst p = some j ∧ j.regs.state = .AM ∧ u.mem.bytes i.rxBuffer.base payload.length = payload

/-! ### Errors, nesting, instances and hazards -/

/-- R83: CRC32 and ESCSIZE run with or without an initialised instance; before the first P_INIT of its instance, an ENC_BUF,
an ENC_SINK or a P_FEED is refused. (Another thread's operation on the instance, R79, and operands that are too short, R42, are
refused by rules of their own.) -/
def Obligations.UninitialisedInstanceRefuses : Prop :=
  ∀ (s : State) (src dst : BufRef) (n cap : Nat) (len : BitVec 16) (flush : Bool), s.busyElsewhere = false → n ≤ src.size →
    (∃ t, exec (.crc32 src n) s = .next t) ∧ (∃ t, exec (.escsize src n) s = .next t) ∧
    (s.inst s.cur.port = none → len.toNat ≤ src.size → cap ≤ dst.size →
      exec (.encBuf src len dst cap) s = .refused .notInitialised ∧
      exec (.encSink src len flush) s = .refused .notInitialised ∧
      (s.inOwnHandler = false → exec (.pFeed src n) s = .refused .notInitialised))

/-- R77: P_INIT and P_FEED from a handler of the same instance are refused; on another instance they run, inside the event;
CRC32, ESCSIZE, ENC_BUF and ENC_SINK run from any handler. -/
def Obligations.NestingInHandlers : Prop :=
  (∀ (s : State) (f : Frame), f ∈ s.stack → f.port = s.cur.port → s.busyElsewhere = false →
    (∀ (o : ByteOrder) (rx : BufRef) (cap : Nat) (hp hb hf : Bool) (c : Ctx),
      exec (.pInit o rx cap hp hb hf c) s = .refused .reentrant) ∧
    (∀ (src : BufRef) (n : Nat), exec (.pFeed src n) s = .refused .reentrant)) ∧
  (∀ (s : State) (i : Inst), s.busyElsewhere = false → s.inst s.cur.port = some i →
    (∀ (src : BufRef) (n : Nat), n ≤ src.size →
      (∃ t, exec (.crc32 src n) s = .next t) ∧ ∃ t, exec (.escsize src n) s = .next t) ∧
    (∀ (src : BufRef) (len : BitVec 16) (flush : Bool), len.toNat ≤ src.size →
      ∃ t, exec (.encSink src len flush) s = .next t) ∧
    (∀ (src dst : BufRef) (len : BitVec 16) (cap : Nat), len.toNat ≤ src.size → cap ≤ dst.size →
      encBufHazard s (src.first len.toNat) (dst.first cap) = false → s.lentTo (dst.first cap) = false →
      ∃ t, exec (.encBuf src len dst cap) s = .next t)) ∧
  (∀ (s : State) (i : Inst), s.busyElsewhere = false → s.inst s.cur.port = some i → (∀ f ∈ s.stack, f.port ≠ s.cur.port) →
    (∀ (o : ByteOrder) (rx : BufRef) (cap : Nat) (hp hb hf : Bool) (c : Ctx), cap ≤ rx.size →
      ∃ t, exec (.pInit o rx cap hp hb hf c) s = .next t) ∧
    (∀ (src : BufRef) (n : Nat), n ≤ src.size → (src.first n).overlaps i.lent = false →
      ∃ t, exec (.pFeed src n) s = .next t))

/-- R79: no command is taken on an instance while another thread's operation is in progress on it. -/
def Obligations.ConcurrentUseIsRefused : Prop :=
  ∀ (s : State) (u : Nat) (f : Frame), u ≠ s.cur.thread → f ∈ s.stackOf u → f.port = s.cur.port →
    (∀ (src : BufRef) (n : Nat), exec (.crc32 src n) s = .refused .concurrent ∧
      exec (.escsize src n) s = .refused .concurrent ∧ exec (.pFeed src n) s = .refused .concurrent) ∧
    (∀ (src dst : BufRef) (len : BitVec 16) (cap : Nat) (flush : Bool),
      exec (.encBuf src len dst cap) s = .refused .concurrent ∧ exec (.encSink src len flush) s = .refused .concurrent) ∧
    (∀ (o : ByteOrder) (rx : BufRef) (cap : Nat) (hp hb hf : Bool) (c : Ctx),
      exec (.pInit o rx cap hp hb hf c) s = .refused .concurrent)

/-- R86: a host write inside `rx_buffer[0..RX_CAPACITY)` of an initialised instance is refused; one outside every such buffer
and every buffer in use changes that byte and nothing else. -/
def Obligations.HostWritesSpareLentBuffers : Prop :=
  ∀ (s : State) (t a : Nat) (v : Byte) (rest : List HostInput), s.input = .write t a v :: rest → s.running t = false →
    ((∃ p i, s.inst p = some i ∧ i.rxBuffer.base ≤ a ∧ a < i.rxBuffer.base + i.rxCapacity) →
      step s = .refused .lentBufferWritten) ∧
    ((∀ e ∈ s.insts, a < e.2.rxBuffer.base ∨ e.2.rxBuffer.base + e.2.rxCapacity ≤ a) →
      (∀ f ∈ s.frames, a < f.uses.base ∨ f.uses.base + f.uses.size ≤ a) →
      ∃ u, step s = .next u ∧ u.mem.read a = v ∧ (∀ b, b ≠ a → u.mem.read b = s.mem.read b) ∧ u.insts = s.insts ∧
        u.threads = s.threads ∧ u.out = s.out ∧ u.input = rest)

/-- R80, R86: the end of an instance's life leaves it not initialised, so its buffer is no longer lent, and changes nothing
else; it is refused while an operation is in progress on the instance (log entry 8). -/
def Obligations.EndOfAnInstance : Prop :=
  ∀ (s : State) (t p : Nat) (rest : List HostInput), s.input = .endInstance t p :: rest → s.running t = false →
    ((∀ u f, f ∈ s.stackOf u → f.port ≠ p) → (s.serving rest t p).busyElsewhere = false →
      ∃ u, step s = .next u ∧ u.inst p = none ∧ (∀ q, q ≠ p → u.inst q = s.inst q) ∧ u.mem = s.mem ∧
        u.threads = s.threads ∧ u.out = s.out ∧ u.input = rest) ∧
    (∀ u f, f ∈ s.stackOf u → f.port = p → step s = .refused .concurrent ∨ step s = .refused .reentrant)

/-- R87, R77: a write into the source of an operation in progress, an ENC_BUF whose destination shares a byte with its source,
with the source of an operation in progress or with the receive buffer of an instance whose P_FEED is in progress, and a P_FEED
of bytes in the instance's own receive buffer are refused. That a write of the same value counts, that all of
`dst[0..dst_cap)` counts, and that a source which is also lent gives `lentBufferWritten`, is the model's reading (log
entry 14). -/
def Obligations.BufferHazardsAreRefused : Prop :=
  (∀ (s : State) (t a : Nat) (v : Byte) (rest : List HostInput) (u : Nat) (f : Frame),
    s.input = .write t a v :: rest → s.running t = false → f ∈ s.stackOf u → f.uses.base ≤ a →
    a < f.uses.base + f.uses.size → step s = .refused .bufferHazard ∨ step s = .refused .lentBufferWritten) ∧
  (∀ (s : State) (src dst : BufRef) (len : BitVec 16) (cap a : Nat) (i : Inst), s.busyElsewhere = false →
    s.inst s.cur.port = some i → len.toNat ≤ src.size → cap ≤ dst.size → dst.base ≤ a → a < dst.base + cap →
    ((src.base ≤ a ∧ a < src.base + len.toNat) ∨
      (∃ (u q : Nat) (f : Frame) (j : Inst), f ∈ s.stackOf u ∧ f.isFeed = true ∧ f.port = q ∧ s.inst q = some j ∧
        j.rxBuffer.base ≤ a ∧ a < j.rxBuffer.base + j.rxCapacity) ∨
      (∃ (u : Nat) (f : Frame), f ∈ s.stackOf u ∧ f.uses.base ≤ a ∧ a < f.uses.base + f.uses.size)) →
    exec (.encBuf src len dst cap) s = .refused .bufferHazard) ∧
  (∀ (s : State) (src : BufRef) (n a : Nat) (i : Inst), s.busyElsewhere = false → s.inOwnHandler = false →
    s.inst s.cur.port = some i → n ≤ src.size → src.base ≤ a → a < src.base + n → i.rxBuffer.base ≤ a →
    a < i.rxBuffer.base + i.rxCapacity → exec (.pFeed src n) s = .refused .bufferHazard)

/-- R22: CRC32, ESCSIZE, ENC_BUF and ENC_SINK change no parser register and no configuration and write no byte of a lent receive
buffer; they answer alike in states that differ only in parser registers; and, their source lying in no lent receive buffer
(one that does is read as any source is, log entry 22), they answer alike in states that differ in parser registers and in what
lent receive buffers hold: they read none. -/
def Obligations.EncoderSideIgnoresTheParser : Prop :=
  ∀ (op : Instr) (src dst : BufRef) (n cap : Nat) (len : BitVec 16) (flush : Bool),
    op = .crc32 src n ∨ op = .escsize src n ∨ op = .encBuf src len dst cap ∨ op = .encSink src len flush →
    (∀ s t, exec op s = .next t → t.insts = s.insts ∧
      ∀ e ∈ s.insts, ∀ a, e.2.lent.covers a = true → t.mem.read a = s.mem.read a) ∧
    (∀ s t, s.SameButRegs t → AnswersSameButRegs (exec op s) (exec op t)) ∧
    (∀ s t, s.SameButReceive t →
      (op = .crc32 src n ∨ op = .escsize src n → s.lentTo (src.first n) = false) →
      (op = .encBuf src len dst cap ∨ op = .encSink src len flush → s.lentTo (src.first len.toNat) = false) →
      AnswersSameButReceive (exec op s) (exec op t))

/-- R72, R70: CRC32, ESCSIZE, P_INIT, P_FEED and every wire byte put out no status but OK. -/
def Obligations.OnlyTheEncoderReportsErrors : Prop := ∀ (op : Instr) (s t : State), exec op s = .next t →
  (∀ src len dst cap, op ≠ .encBuf src len dst cap) → (∀ src len flush, op ≠ .encSink src len flush) →
  ∃ xs, t.out = s.out ++ xs ∧ ∀ o ∈ xs, ∀ st v, o.item = .result st v → st = .OK

/-- R75: a command that reports an error has changed nothing: no memory, no instance, no operation in progress. -/
def Obligations.ErrorsArePrecise : Prop := ∀ (op : Instr) (s t : State) (th po d : Nat) (st : Status) (v : Option Value),
  exec op s = .next t → t.out = s.out ++ [⟨th, po, d, .result st v⟩] → st ≠ .OK →
  t = { s with out := t.out } ∧ th = s.cur.thread ∧ po = s.cur.port ∧ d = s.stack.length

/-- R79: a step that does not serve an instance changes neither its configuration and registers nor a byte of its lent
buffer. -/
def Obligations.InstancesAreIsolated : Prop := ∀ (s t : State) (q : Nat) (i : Inst), step s = .next t →
  s.inst q = some i → (∀ th w, s.nextMove.1 ≠ .run th q w) → (∀ th, s.nextMove.1 ≠ .endInstance th q) →
  t.inst q = some i ∧ ∀ a, i.rxBuffer.base ≤ a → a < i.rxBuffer.base + i.rxCapacity → t.mem.read a = s.mem.read a

/-- R16, R28, R19 item 3: a byte of a lent receive buffer changes only by `RxWrite(received_count, d)` of its own parser in RP,
at an index below `expected_total_len - 4`, hence below `RX_CAPACITY - 4`. -/
def Obligations.LentBytesChangeOnlyByTheirParser : Prop := ∀ (s t : State) (q a : Nat) (i : Inst), step s = .next t →
  s.ParserInv → s.inst q = some i → i.rxBuffer.base ≤ a → a < i.rxBuffer.base + i.rxCapacity →
  t.mem.read a ≠ s.mem.read a →
  i.regs.state = .RP ∧ a = i.rxBuffer.base + i.regs.receivedCount ∧
    i.regs.receivedCount < i.regs.expectedTotalLen - 4 ∧ i.regs.expectedTotalLen - 4 ≤ i.rxCapacity - 4 ∧
    ∃ th st ep b, s.nextMove.1 = .run th q (.wire st ep b)

/-! ### Invariants of every step -/

/-- Reset has every invariant, and no instance is initialised (R81). That no operation is in progress, nothing has been put out
and memory lists nothing is the model's choice (log entry 21), and that its step is itself too (log entry 11). -/
def Obligations.ResetHasTheInvariants : Prop :=
  State.reset.Canonical ∧ State.reset.ParserInv ∧ State.reset.OperationsInv ∧ (∀ p, State.reset.inst p = none) ∧
  (∀ t, State.reset.stackOf t = []) ∧ State.reset.out = [] ∧ step State.reset = .next State.reset

/-- Every step keeps memory, instances and threads in their canonical form. -/
def Obligations.StepsKeepTheCanonicalForm : Prop := ∀ s t : State, s.Canonical → step s = .next t → t.Canonical

/-- R19: every step keeps the parser's invariants in every instance. -/
def Obligations.StepsKeepTheParserInvariants : Prop := ∀ s t : State, s.ParserInv → step s = .next t → t.ParserInv

/-- R77, R79: every step keeps the operations in progress nested as they may be. -/
def Obligations.StepsKeepOperationsNested : Prop :=
  ∀ s t : State, s.OperationsInv → step s = .next t → t.OperationsInv

/-- R82: what the counters and the running checksum hold in AM cannot be observed: states that differ only there step alike,
for ever. -/
def Obligations.CountersInAwaitingAreUnobservable : Prop := ∀ s t : State, s.Alike t → AnswersAlike (step s) (step t)
end

