-- ==== Sys2Proof/Laws/Codec.lean ====
section
/-! SUPPORT. The codes of operands, the checksum generator, byte stuffing, the wire fields and the frame's length. -/

namespace Sys2Proof

theorem readBit_bitCode (b : Bool) : readBit (bitCode b) = some b := by cases b <;> rfl

theorem readOrder_code (o : ByteOrder) : readOrder o.code = some o := by cases o <;> rfl

theorem readLen_toNat (l : BitVec 16) : readLen l.toNat = some l := by
  have := l.isLt
  simp [readLen]; omega

theorem readBit_bad {n : Nat} (h : 1 < n) : readBit n = none := by
  obtain ⟨k, rfl⟩ : ∃ k, n = k + 2 := ⟨n - 2, by omega⟩
  rfl

theorem readOrder_bad {n : Nat} (h : 1 < n) : readOrder n = none := by
  obtain ⟨k, rfl⟩ : ∃ k, n = k + 2 := ⟨n - 2, by omega⟩
  rfl

/-- Checked operands are the instruction read, and well formed. -/
theorem checkOperands_ok {o : Option Instr} {i : Instr} (h : checkOperands o = .ok i) : o = some i ∧ i.wf = true := by
  unfold checkOperands at h
  split at h
  · split at h
    · rename_i hw; cases h; exact ⟨rfl, hw⟩
    · cases h
  · cases h

/-- The bit that a flip sets or clears comes back with the second flip. -/
theorem flip_flip (b : Byte) : b ^^^ FLIP ^^^ FLIP = b := by rw [BitVec.xor_assoc]; simp

theorem not_reserved {b : Byte} (h : Reserved b = false) : b ≠ MARKER ∧ b ≠ ESCAPE := by
  simpa [Reserved] using h

end Sys2Proof

namespace Sys2Proof.Machine

/-! ### The checksum generator -/

theorem crcShift_eq (x : Word) : crcShift x = (x >>> 1) ^^^ (if x.getLsbD 0 then POLY else 0) := by
  unfold crcShift; split <;> simp

/-- A shift of the CRC register is linear over xor. -/
theorem crcShift_xor (x y : Word) : crcShift (x ^^^ y) = crcShift x ^^^ crcShift y := by
  simp only [crcShift_eq, BitVec.ushiftRight_xor_distrib, BitVec.getLsbD_xor]
  have h : (if (x.getLsbD 0 ^^ y.getLsbD 0) = true then POLY else 0) =
      (if x.getLsbD 0 = true then POLY else 0) ^^^ (if y.getLsbD 0 = true then POLY else 0) := by
    cases x.getLsbD 0 <;> cases y.getLsbD 0 <;> simp
  rw [h]; ac_rfl

theorem crcShift_zero {x : Word} (h : crcShift x = 0) : x = 0 := by
  unfold crcShift at h
  split at h
  · have := congrArg (fun v : Word => v.getLsbD 31) h
    simp [POLY] at this
  · rename_i h0
    apply BitVec.eq_of_getLsbD_eq
    intro j hj
    cases j with
    | zero => simpa using h0
    | succ j =>
      have := congrArg (fun v : Word => v.getLsbD j) h
      simpa [Nat.add_comm] using this

/-- No two register values shift to one: the top bit of the polynomial is set. -/
theorem crcShift_inj {x y : Word} (h : crcShift x = crcShift y) : x = y := by
  have h0 : crcShift (x ^^^ y) = 0 := by rw [crcShift_xor, h]; simp
  exact BitVec.xor_eq_zero_iff.mp (crcShift_zero h0)

theorem crcShifts_inj (k : Nat) {x y : Word} (h : Nat.repeat crcShift k x = Nat.repeat crcShift k y) : x = y := by
  induction k with
  | zero => exact h
  | succ k ih => exact ih (crcShift_inj h)

theorem crcShifts_xor (k : Nat) (x y : Word) :
    Nat.repeat crcShift k (x ^^^ y) = Nat.repeat crcShift k x ^^^ Nat.repeat crcShift k y := by
  induction k with
  | zero => rfl
  | succ k ih => show crcShift _ = _; rw [ih, crcShift_xor]; rfl

theorem crcStep_inj {c c' : Word} {b : Byte} (h : crcStep c b = crcStep c' b) : c = c' := by
  simpa using crcShifts_inj 8 h

theorem crcStep_byte_inj {c : Word} {b b' : Byte} (h : crcStep c b = crcStep c b') : b = b' := by
  have h2 : b.setWidth 32 = b'.setWidth 32 := by simpa using crcShifts_inj 8 h
  simpa using congrArg (fun v : Word => v.setWidth 8) h2

theorem crcFold_inj (d : List Byte) {c c' : Word} (h : d.foldl crcStep c = d.foldl crcStep c') : c = c' := by
  induction d generalizing c c' with
  | nil => exact h
  | cons b d ih => exact crcStep_inj (ih h)

/-! ### Byte stuffing -/

theorem stuff_length (b : Byte) : (stuff b).length = 1 + if Reserved b then 1 else 0 := by
  unfold stuff; split <;> simp

theorem stuffSeq_cons (b : Byte) (d : List Byte) : stuffSeq (b :: d) = stuff b ++ stuffSeq d := rfl

theorem stuffSeq_length (d : List Byte) : (stuffSeq d).length = escSize d := by
  induction d with
  | nil => rfl
  | cons b d ih =>
    rw [stuffSeq_cons, List.length_append, stuff_length, ih, escSize, escSize, List.countP_cons]
    simp; omega

theorem length_le_escSize (d : List Byte) : d.length ≤ escSize d := by unfold escSize; omega

theorem escSize_le (d : List Byte) : escSize d ≤ 2 * d.length := by
  have := List.countP_le_length (p := Reserved) (l := d)
  unfold escSize; omega

/-! ### The wire fields -/

theorem lenBytes_length (o : ByteOrder) (l : BitVec 16) : (lenBytes o l).length = 2 := by cases o <;> rfl

theorem crcBytes_length (o : ByteOrder) (c : Word) : (crcBytes o c).length = 4 := by cases o <;> rfl

theorem append4_toNat (a b c d : Byte) : (a ++ b ++ c ++ d : BitVec 32).toNat =
    2 ^ 24 * a.toNat + 2 ^ 16 * b.toNat + 2 ^ 8 * c.toNat + d.toNat := by
  have := a.isLt; have := b.isLt; have := c.isLt; have := d.isLt
  have key : ∀ x y : Nat, y < 256 → x <<< 8 ||| y = x * 256 + y := by
    intro x y hy
    rw [← Nat.shiftLeft_add_eq_or_of_lt (i := 8) hy, Nat.shiftLeft_eq]
  rw [BitVec.toNat_append, BitVec.toNat_append, BitVec.toNat_append, key _ _ ‹_›, key _ _ ‹_›, key _ _ ‹_›]
  omega

/-! ### Frames -/

theorem frameBytes_cons (o : ByteOrder) (p : List Byte) : frameBytes o p = MARKER :: (frameBytes o p).drop 1 := rfl

/-- The computed size is the frame's length (R53). -/
theorem frameBytes_length (o : ByteOrder) (p : List Byte) : (frameBytes o p).length = frameSize o p := by
  simp [frameBytes, frameSize, stuffSeq_length]; omega

theorem frameSize_ge (o : ByteOrder) (p : List Byte) : 7 + p.length ≤ frameSize o p := by
  have h1 := length_le_escSize (lenBytes o (BitVec.ofNat 16 p.length))
  have h2 := length_le_escSize p
  have h3 := length_le_escSize (crcBytes o (crc32 p))
  rw [lenBytes_length] at h1
  rw [crcBytes_length] at h3
  unfold frameSize; omega

end Sys2Proof.Machine
end

