-- ==== Sys2Proof/Laws/State.lean ====
section
/-! SUPPORT. What each update of State changes and leaves, field by field. -/

namespace Sys2Proof.Machine

variable (s : State) (p t a : Nat) (i : Inst) (fs : List Frame) (f : Frame) (x : Item) (e : Event) (st : Status)
  (v : Option Value) (rest : List HostInput)

@[simp] theorem State.setInst_insts : (s.setInst p i).insts = Store.set s.insts p i := rfl
@[simp] theorem State.setInst_mem : (s.setInst p i).mem = s.mem := rfl
@[simp] theorem State.setInst_threads : (s.setInst p i).threads = s.threads := rfl
@[simp] theorem State.setInst_input : (s.setInst p i).input = s.input := rfl
@[simp] theorem State.setInst_out : (s.setInst p i).out = s.out := rfl
@[simp] theorem State.setInst_cur : (s.setInst p i).cur = s.cur := rfl
@[simp] theorem State.setInst_loans : (s.setInst p i).loans = s.loans := rfl
@[simp] theorem State.setInst_stackOf : (s.setInst p i).stackOf t = s.stackOf t := rfl
@[simp] theorem State.setInst_stack : (s.setInst p i).stack = s.stack := rfl

@[simp] theorem State.initInst_insts : (s.initInst i).insts = Store.set s.insts s.cur.port i := rfl
@[simp] theorem State.initInst_mem : (s.initInst i).mem = s.mem := rfl
@[simp] theorem State.initInst_threads : (s.initInst i).threads = s.threads := rfl
@[simp] theorem State.initInst_input : (s.initInst i).input = s.input := rfl
@[simp] theorem State.initInst_out : (s.initInst i).out = s.out := rfl
@[simp] theorem State.initInst_cur : (s.initInst i).cur = s.cur := rfl
@[simp] theorem State.initInst_loans : (s.initInst i).loans = s.loans + 1 := rfl
@[simp] theorem State.initInst_inst : (s.initInst i).inst t = (s.setInst s.cur.port i).inst t := rfl
@[simp] theorem State.initInst_stackOf : (s.initInst i).stackOf t = s.stackOf t := rfl
@[simp] theorem State.initInst_stack : (s.initInst i).stack = s.stack := rfl

variable (m : Memory)

@[simp] theorem State.setMem_insts : (s.setMem m).insts = s.insts := rfl
@[simp] theorem State.setMem_mem : (s.setMem m).mem = m := rfl
@[simp] theorem State.setMem_threads : (s.setMem m).threads = s.threads := rfl
@[simp] theorem State.setMem_input : (s.setMem m).input = s.input := rfl
@[simp] theorem State.setMem_out : (s.setMem m).out = s.out := rfl
@[simp] theorem State.setMem_loans : (s.setMem m).loans = s.loans := rfl
@[simp] theorem State.setMem_cur : (s.setMem m).cur = s.cur := rfl
@[simp] theorem State.setMem_inst : (s.setMem m).inst p = s.inst p := rfl
@[simp] theorem State.setMem_stackOf : (s.setMem m).stackOf t = s.stackOf t := rfl
@[simp] theorem State.setMem_stack : (s.setMem m).stack = s.stack := rfl

@[simp] theorem State.atPort_insts : (s.atPort p).insts = s.insts := rfl
@[simp] theorem State.atPort_mem : (s.atPort p).mem = s.mem := rfl
@[simp] theorem State.atPort_threads : (s.atPort p).threads = s.threads := rfl
@[simp] theorem State.atPort_input : (s.atPort p).input = s.input := rfl
@[simp] theorem State.atPort_out : (s.atPort p).out = s.out := rfl
@[simp] theorem State.atPort_loans : (s.atPort p).loans = s.loans := rfl
@[simp] theorem State.atPort_read : (s.atPort p).read a = s.read a := rfl
@[simp] theorem State.atPort_cur : (s.atPort p).cur = ⟨s.cur.thread, p⟩ := rfl
@[simp] theorem State.atPort_inst : (s.atPort p).inst a = s.inst a := rfl
@[simp] theorem State.atPort_stackOf : (s.atPort p).stackOf t = s.stackOf t := rfl
@[simp] theorem State.atPort_stack : (s.atPort p).stack = s.stack := rfl

@[simp] theorem State.setStack_insts : (s.setStack fs).insts = s.insts := by cases fs <;> rfl
@[simp] theorem State.setStack_mem : (s.setStack fs).mem = s.mem := by cases fs <;> rfl
@[simp] theorem State.setStack_input : (s.setStack fs).input = s.input := by cases fs <;> rfl
@[simp] theorem State.setStack_out : (s.setStack fs).out = s.out := by cases fs <;> rfl
@[simp] theorem State.setStack_loans : (s.setStack fs).loans = s.loans := by cases fs <;> rfl
@[simp] theorem State.setStack_read : (s.setStack fs).read a = s.read a := by cases fs <;> rfl
@[simp] theorem State.setStack_cur : (s.setStack fs).cur = s.cur := by cases fs <;> rfl
@[simp] theorem State.setStack_inst : (s.setStack fs).inst p = s.inst p := by simp [State.inst]

@[simp] theorem State.push_insts : (s.push f).insts = s.insts := rfl
@[simp] theorem State.push_mem : (s.push f).mem = s.mem := rfl
@[simp] theorem State.push_input : (s.push f).input = s.input := rfl
@[simp] theorem State.push_out : (s.push f).out = s.out := rfl
@[simp] theorem State.push_loans : (s.push f).loans = s.loans := rfl
@[simp] theorem State.push_read : (s.push f).read a = s.read a := rfl
@[simp] theorem State.push_cur : (s.push f).cur = s.cur := rfl
@[simp] theorem State.push_inst : (s.push f).inst p = s.inst p := rfl

@[simp] theorem State.put_insts : (s.put x).insts = s.insts := rfl
@[simp] theorem State.put_mem : (s.put x).mem = s.mem := rfl
@[simp] theorem State.put_threads : (s.put x).threads = s.threads := rfl
@[simp] theorem State.put_input : (s.put x).input = s.input := rfl
@[simp] theorem State.put_loans : (s.put x).loans = s.loans := rfl
@[simp] theorem State.put_read : (s.put x).read a = s.read a := rfl
@[simp] theorem State.put_cur : (s.put x).cur = s.cur := rfl
@[simp] theorem State.put_inst : (s.put x).inst p = s.inst p := rfl
@[simp] theorem State.put_stackOf : (s.put x).stackOf t = s.stackOf t := rfl
@[simp] theorem State.put_stack : (s.put x).stack = s.stack := rfl
@[simp] theorem State.put_out :
    (s.put x).out = s.out ++ [⟨s.cur.thread, s.cur.port, s.stack.length, x⟩] := rfl

theorem State.report_eq : s.report st v = s.put (.result st v) := rfl
theorem State.emit_eq : s.emit e = s.put (.event e) := rfl

@[simp] theorem State.report_insts : (s.report st v).insts = s.insts := rfl
@[simp] theorem State.report_mem : (s.report st v).mem = s.mem := rfl
@[simp] theorem State.report_threads : (s.report st v).threads = s.threads := rfl
@[simp] theorem State.report_input : (s.report st v).input = s.input := rfl
@[simp] theorem State.report_loans : (s.report st v).loans = s.loans := rfl
@[simp] theorem State.report_read : (s.report st v).read a = s.read a := rfl
@[simp] theorem State.report_cur : (s.report st v).cur = s.cur := rfl
@[simp] theorem State.report_inst : (s.report st v).inst p = s.inst p := rfl
@[simp] theorem State.report_stackOf : (s.report st v).stackOf t = s.stackOf t := rfl
@[simp] theorem State.report_stack : (s.report st v).stack = s.stack := rfl
@[simp] theorem State.report_out :
    (s.report st v).out = s.out ++ [⟨s.cur.thread, s.cur.port, s.stack.length, .result st v⟩] := rfl

@[simp] theorem State.emitAndWait_insts : (s.emitAndWait e f).insts = s.insts := rfl
@[simp] theorem State.emitAndWait_mem : (s.emitAndWait e f).mem = s.mem := rfl
@[simp] theorem State.emitAndWait_input : (s.emitAndWait e f).input = s.input := rfl
@[simp] theorem State.emitAndWait_loans : (s.emitAndWait e f).loans = s.loans := rfl
@[simp] theorem State.emitAndWait_read : (s.emitAndWait e f).read a = s.read a := rfl
@[simp] theorem State.emitAndWait_cur : (s.emitAndWait e f).cur = s.cur := rfl
@[simp] theorem State.emitAndWait_inst : (s.emitAndWait e f).inst p = s.inst p := rfl
@[simp] theorem State.emitAndWait_out : (s.emitAndWait e f).out =
    s.out ++ [⟨s.cur.thread, s.cur.port, s.stack.length, .event e⟩] := rfl

@[simp] theorem State.serving_insts : (s.serving rest t p).insts = s.insts := rfl
@[simp] theorem State.serving_mem : (s.serving rest t p).mem = s.mem := rfl
@[simp] theorem State.serving_threads : (s.serving rest t p).threads = s.threads := rfl
@[simp] theorem State.serving_input : (s.serving rest t p).input = rest := rfl
@[simp] theorem State.serving_out : (s.serving rest t p).out = s.out := rfl
@[simp] theorem State.serving_loans : (s.serving rest t p).loans = s.loans := rfl
@[simp] theorem State.serving_read : (s.serving rest t p).read a = s.read a := rfl
@[simp] theorem State.serving_cur : (s.serving rest t p).cur = ⟨t, p⟩ := rfl
@[simp] theorem State.serving_inst : (s.serving rest t p).inst a = s.inst a := rfl
@[simp] theorem State.serving_stackOf : (s.serving rest t p).stackOf a = s.stackOf a := rfl
@[simp] theorem State.serving_stack : (s.serving rest t p).stack = s.stackOf t := rfl

end Sys2Proof.Machine
end

