-- ==== Sys2Proof/Laws/Store.lean ====
section
/-! SUPPORT. Sparse data and memory: reading after a write or a removal, and the canonical form, which every operation keeps. -/

namespace Sys2Proof.Machine

variable {β : Type}

@[simp] theorem Store.get_nil (k : Nat) : Store.get ([] : List (Nat × β)) k = none := rfl

@[simp] theorem Store.get_set_same (m : List (Nat × β)) (k : Nat) (v : β) : Store.get (Store.set m k v) k = some v := by
  induction m with
  | nil => simp [Store.set, Store.get]
  | cons e m ih =>
    obtain ⟨a, w⟩ := e
    by_cases h : k < a
    · simp [Store.set, Store.get, h]
    · by_cases h2 : a = k <;> simp [Store.set, Store.get, h, h2, ih]

theorem Store.get_set_other (m : List (Nat × β)) {k j : Nat} (v : β) (h : j ≠ k) :
    Store.get (Store.set m k v) j = Store.get m j := by
  induction m with
  | nil => simp [Store.set, Store.get, Ne.symm h]
  | cons e m ih =>
    obtain ⟨a, w⟩ := e
    by_cases h1 : k < a
    · simp [Store.set, Store.get, h1, Ne.symm h]
    · by_cases h2 : a = k
      · subst h2
        simp [Store.set, Store.get, Ne.symm h]
      · simp [Store.set, Store.get, h1, h2, ih]

theorem Store.get_set (m : List (Nat × β)) (k j : Nat) (v : β) :
    Store.get (Store.set m k v) j = if j = k then some v else Store.get m j := by
  by_cases h : j = k
  · subst h; simp
  · simp [h, Store.get_set_other m v h]

theorem Store.get_erase (m : List (Nat × β)) (k j : Nat) :
    Store.get (Store.erase m k) j = if j = k then none else Store.get m j := by
  induction m with
  | nil => simp [Store.erase]
  | cons e m ih =>
    obtain ⟨a, w⟩ := e
    by_cases h : a = k
    · subst h
      by_cases h2 : j = a
      · subst h2; simp [Store.erase, ih]
      · simp [Store.erase, Store.get, ih, h2, Ne.symm h2]
    · by_cases h2 : a = j
      · subst h2; simp [Store.erase, Store.get, h]
      · simp [Store.erase, Store.get, h, h2, ih]

theorem Store.mem_of_get {m : List (Nat × β)} {k : Nat} {v : β} (h : Store.get m k = some v) : (k, v) ∈ m := by
  induction m with
  | nil => simp at h
  | cons e m ih =>
    obtain ⟨a, w⟩ := e
    by_cases h1 : a = k
    · simp [Store.get, h1] at h; simp [h1, h]
    · simp [Store.get, h1] at h; simp [ih h]

theorem Store.mem_set {m : List (Nat × β)} {k : Nat} {v : β} {e : Nat × β} (h : e ∈ Store.set m k v) :
    e = (k, v) ∨ e ∈ m := by
  induction m with
  | nil => simpa [Store.set] using h
  | cons d m ih =>
    obtain ⟨a, w⟩ := d
    by_cases h1 : k < a
    · simpa [Store.set, h1] using h
    · by_cases h2 : a = k
      · simp [Store.set, h2] at h
        rcases h with h | h <;> simp [h]
      · simp only [Store.set, h1, h2, if_false, List.mem_cons] at h
        rcases h with h | h
        · simp [h]
        · rcases ih h with h | h <;> simp [h]

theorem Store.mem_erase {m : List (Nat × β)} {k : Nat} {e : Nat × β} (h : e ∈ Store.erase m k) : e ∈ m ∧ e.1 ≠ k := by
  induction m with
  | nil => simp [Store.erase] at h
  | cons d m ih =>
    obtain ⟨a, w⟩ := d
    by_cases h1 : a = k
    · simp only [Store.erase, h1, if_true] at h
      exact ⟨List.mem_cons_of_mem _ (ih h).1, (ih h).2⟩
    · simp only [Store.erase, h1, if_false, List.mem_cons] at h
      rcases h with h | h
      · subst h; exact ⟨by simp, h1⟩
      · exact ⟨List.mem_cons_of_mem _ (ih h).1, (ih h).2⟩

theorem Store.above_set {m : List (Nat × β)} {lo k : Nat} {v : β} (h : Store.above lo m = true) (hk : lo < k) :
    Store.above lo (Store.set m k v) = true := by
  induction m with
  | nil => simp [Store.set, Store.above, hk]
  | cons d m ih =>
    obtain ⟨a, w⟩ := d
    simp only [Store.above, Bool.and_eq_true, decide_eq_true_eq] at h
    by_cases h1 : k < a
    · simp [Store.set, Store.above, h1, h, hk]
    · by_cases h2 : a = k
      · subst h2; simp [Store.set, Store.above, h]
      · simp [Store.set, Store.above, h1, h2, h.1, ih h.2]

theorem Store.above_erase {m : List (Nat × β)} {lo k : Nat} (h : Store.above lo m = true) :
    Store.above lo (Store.erase m k) = true := by
  induction m with
  | nil => rfl
  | cons d m ih =>
    obtain ⟨a, w⟩ := d
    simp only [Store.above, Bool.and_eq_true, decide_eq_true_eq] at h
    by_cases h1 : a = k
    · simp [Store.erase, h1, ih h.2]
    · simp [Store.erase, Store.above, h1, h.1, ih h.2]

theorem Store.above_trans {m : List (Nat × β)} {lo hi : Nat} (h : Store.above hi m = true) (hl : lo ≤ hi) :
    Store.above lo m = true := by
  induction m with
  | nil => rfl
  | cons d m ih =>
    obtain ⟨a, w⟩ := d
    simp only [Store.above, Bool.and_eq_true, decide_eq_true_eq] at h ⊢
    exact ⟨by omega, ih h.2⟩

/-- A write keeps the canonical form. -/
theorem Store.wf_set {m : List (Nat × β)} (k : Nat) (v : β) (h : Store.wf m = true) :
    Store.wf (Store.set m k v) = true := by
  induction m with
  | nil => simp [Store.set, Store.wf, Store.above]
  | cons d m ih =>
    obtain ⟨a, w⟩ := d
    simp only [Store.wf, Bool.and_eq_true] at h
    by_cases h1 : k < a
    · simp [Store.set, Store.wf, Store.above, h1, h, Store.above_trans h.1 h1.le]
    · by_cases h2 : a = k
      · subst h2; simp [Store.set, Store.wf, h]
      · have h3 : a < k := by omega
        simp [Store.set, Store.wf, h1, h2, ih h.2, Store.above_set h.1 h3]

/-- A removal keeps the canonical form. -/
theorem Store.wf_erase {m : List (Nat × β)} (k : Nat) (h : Store.wf m = true) : Store.wf (Store.erase m k) = true := by
  induction m with
  | nil => rfl
  | cons d m ih =>
    obtain ⟨a, w⟩ := d
    simp only [Store.wf, Bool.and_eq_true] at h
    by_cases h1 : a = k
    · simp [Store.erase, h1, ih h.2]
    · simp [Store.erase, Store.wf, h1, ih h.2, Store.above_erase h.1]

/-- A fresh key is not in use. -/
theorem Store.get_fresh (m : List (Nat × β)) {k : Nat} (h : Store.fresh m ≤ k) : Store.get m k = none := by
  induction m with
  | nil => rfl
  | cons d m ih =>
    obtain ⟨a, w⟩ := d
    simp only [Store.fresh] at h
    have h1 : a ≠ k := by omega
    simp [Store.get, h1, ih (by omega)]

/-! ### Memory -/

theorem Memory.read_write (m : Memory) (a b : Nat) (v : Byte) :
    (m.write a v).read b = if b = a then v else m.read b := by
  by_cases h : b = a
  · subst h; simp [Memory.read, Memory.write]
  · simp [Memory.read, Memory.write, h, Store.get_set_other m v h]

@[simp] theorem Memory.read_write_same (m : Memory) (a : Nat) (v : Byte) : (m.write a v).read a = v := by
  simp [Memory.read_write]

theorem Memory.read_write_other (m : Memory) {a b : Nat} (v : Byte) (h : b ≠ a) :
    (m.write a v).read b = m.read b := by simp [Memory.read_write, h]

/-- A write keeps the canonical form of memory. -/
theorem Memory.wf_write {m : Memory} (a : Nat) (v : Byte) (h : Memory.wf m = true) : Memory.wf (m.write a v) = true :=
  Store.wf_set a v h

/-- Writing a sequence keeps the canonical form of memory. -/
theorem Memory.wf_writeBytes {m : Memory} (base : Nat) (bs : List Byte) (h : Memory.wf m = true) :
    Memory.wf (m.writeBytes base bs) = true := by
  induction bs generalizing m base with
  | nil => exact h
  | cons b bs ih => exact ih _ (Memory.wf_write _ _ h)

/-- Bytes outside a written sequence read as before. -/
theorem Memory.read_writeBytes_other (m : Memory) (base : Nat) (bs : List Byte) {a : Nat}
    (h : a < base ∨ base + bs.length ≤ a) : (m.writeBytes base bs).read a = m.read a := by
  induction bs generalizing m base with
  | nil => rfl
  | cons b bs ih =>
    simp only [List.length_cons] at h
    rw [Memory.writeBytes, ih _ _ (by omega), Memory.read_write_other _ _ (by omega)]

/-- A written sequence reads back byte by byte. -/
theorem Memory.read_writeBytes (m : Memory) (base : Nat) (bs : List Byte) {k : Nat} (h : k < bs.length) :
    (m.writeBytes base bs).read (base + k) = bs[k] := by
  induction bs generalizing m base k with
  | nil => simp at h
  | cons b bs ih =>
    cases k with
    | zero => rw [Memory.writeBytes, Memory.read_writeBytes_other _ _ _ (by omega)]; simp
    | succ k =>
      rw [Memory.writeBytes, show base + (k + 1) = base + 1 + k by omega, ih]
      · simp
      · simpa using h

@[simp] theorem Memory.bytes_length (m : Memory) (base n : Nat) : (m.bytes base n).length = n := by
  simp [Memory.bytes]

@[simp] theorem Memory.bytes_zero (m : Memory) (base : Nat) : m.bytes base 0 = [] := rfl

theorem Memory.bytes_succ (m : Memory) (base n : Nat) : m.bytes base (n + 1) = m.bytes base n ++ [m.read (base + n)] := by
  simp [Memory.bytes, List.range_succ]

theorem Memory.bytes_getElem (m : Memory) (base n k : Nat) (h : k < (m.bytes base n).length) :
    (m.bytes base n)[k] = m.read (base + k) := by
  simp [Memory.bytes]

/-- Two memories that read alike on a range hold the same sequence there. -/
theorem Memory.bytes_congr {m m' : Memory} {base n : Nat} (h : ∀ k, k < n → m.read (base + k) = m'.read (base + k)) :
    m.bytes base n = m'.bytes base n := by
  apply List.map_congr_left
  intro k hk
  exact h k (List.mem_range.mp hk)

/-- A write outside a range leaves the sequence there. -/
theorem Memory.bytes_write_other (m : Memory) {base n a : Nat} (v : Byte) (h : a < base ∨ base + n ≤ a) :
    (m.write a v).bytes base n = m.bytes base n :=
  Memory.bytes_congr fun k hk => Memory.read_write_other _ _ (by omega)

/-- A written sequence reads back whole. -/
theorem Memory.bytes_writeBytes (m : Memory) (base : Nat) (bs : List Byte) :
    (m.writeBytes base bs).bytes base bs.length = bs := by
  apply List.ext_getElem
  · simp
  · intro k h1 h2
    rw [Memory.bytes_getElem, Memory.read_writeBytes _ _ _ h2]

end Sys2Proof.Machine
end

