-- ==== Sys2Proof/Laws/Ops.lean ====
section
/-! SUPPORT. One law for each shared operation: everything it can answer. -/

namespace Sys2Proof.Machine

/-! ### The stack -/

theorem State.setStack_stackOf (s : State) (fs : List Frame) (t : Nat) :
    (s.setStack fs).stackOf t = if t = s.cur.thread then fs else s.stackOf t := by
  cases fs with
  | nil =>
    by_cases h : t = s.cur.thread <;> simp [State.setStack, State.stackOf, Store.get_erase, h]
  | cons f fs =>
    by_cases h : t = s.cur.thread <;> simp [State.setStack, State.stackOf, Store.get_set, h]

@[simp] theorem State.setStack_stack (s : State) (fs : List Frame) : (s.setStack fs).stack = fs := by
  simp [State.stack, State.setStack_stackOf]

theorem State.push_stackOf (s : State) (f : Frame) (t : Nat) :
    (s.push f).stackOf t = if t = s.cur.thread then f :: s.stack else s.stackOf t := by
  simp [State.push, State.setStack_stackOf]

@[simp] theorem State.push_stack (s : State) (f : Frame) : (s.push f).stack = f :: s.stack := by
  simp [State.push]

theorem State.emitAndWait_stackOf (s : State) (e : Event) (f : Frame) (t : Nat) : (s.emitAndWait e f).stackOf t =
    if t = s.cur.thread then { f with waiting := true } :: s.stack else s.stackOf t := by
  rw [State.emitAndWait, State.push_stackOf]; rfl

@[simp] theorem State.emitAndWait_stack (s : State) (e : Event) (f : Frame) :
    (s.emitAndWait e f).stack = { f with waiting := true } :: s.stack := by
  rw [State.emitAndWait, State.push_stack]; rfl

theorem State.setInst_inst (s : State) (p q : Nat) (i : Inst) :
    (s.setInst p i).inst q = if q = p then some i else s.inst q := by
  simp [State.inst, Store.get_set]

@[simp] theorem State.setInst_inst_same (s : State) (p : Nat) (i : Inst) : (s.setInst p i).inst p = some i := by
  simp [State.setInst_inst]

theorem State.setStack_wf {s : State} (fs : List Frame) (h : Store.wf s.threads = true) :
    Store.wf (s.setStack fs).threads = true := by
  cases fs with
  | nil => exact Store.wf_erase _ h
  | cons f fs => exact Store.wf_set _ _ h

theorem State.frame_of_stackOf {s : State} {t : Nat} {f : Frame} (h : f ∈ s.stackOf t) :
    ∃ e ∈ s.threads, e.1 = t ∧ f ∈ e.2 := by
  unfold State.stackOf at h
  cases h2 : Store.get s.threads t with
  | none => simp [h2] at h
  | some fs =>
    simp only [h2, Option.getD_some] at h
    exact ⟨(t, fs), Store.mem_of_get h2, rfl, h⟩

theorem State.mem_frames_of_stackOf {s : State} {t : Nat} {f : Frame} (h : f ∈ s.stackOf t) : f ∈ s.frames := by
  obtain ⟨e, he, -, hf⟩ := State.frame_of_stackOf h
  exact List.mem_flatMap.mpr ⟨e, he, hf⟩

/-! ### Admission and the tests before an effect -/

variable {s s' : State} {k : State → Answer}

theorem State.accept_eq (h : s.busyElsewhere = false) : s.accept k = k s := by simp [State.accept, h]

theorem State.accept_busy (h : s.busyElsewhere = true) : s.accept k = .refused .concurrent := by simp [State.accept, h]

theorem State.accept_next (h : s.accept k = .next s') : s.busyElsewhere = false ∧ k s = .next s' := by
  unfold State.accept at h
  split at h
  · cases h
  · rename_i hb; exact ⟨by simpa using hb, h⟩

theorem State.acceptOutside_eq (h : s.busyElsewhere = false) (h2 : s.inOwnHandler = false) : s.acceptOutside k = k s := by
  simp [State.acceptOutside, State.accept, h, h2]

theorem State.acceptOutside_next (h : s.acceptOutside k = .next s') :
    s.busyElsewhere = false ∧ s.inOwnHandler = false ∧ k s = .next s' := by
  obtain ⟨h1, h2⟩ := State.accept_next h
  split at h2
  · cases h2
  · rename_i h3; exact ⟨h1, by simpa using h3, h2⟩

theorem State.checked_eq {ok : Bool} (h : ok = true) : s.checked ok k = k s := by simp [State.checked, h]

theorem State.checked_bad {ok : Bool} (h : ok = false) : s.checked ok k = .refused .badOperand := by
  simp [State.checked, h]

theorem State.checked_next {ok : Bool} (h : s.checked ok k = .next s') : ok = true ∧ k s = .next s' := by
  unfold State.checked at h
  split at h
  · rename_i h1; exact ⟨h1, h⟩
  · cases h

theorem State.withInst_eq {i : Inst} {k : Inst → Answer} (h : s.inst s.cur.port = some i) : s.withInst k = k i := by
  simp [State.withInst, h]

theorem State.withInst_none {k : Inst → Answer} (h : s.inst s.cur.port = none) :
    s.withInst k = .refused .notInitialised := by simp [State.withInst, h]

theorem State.withInst_next {k : Inst → Answer} (h : s.withInst k = .next s') :
    ∃ i, s.inst s.cur.port = some i ∧ k i = .next s' := by
  unfold State.withInst at h
  split at h
  · rename_i i hi; exact ⟨i, hi, h⟩
  · cases h

/-! ### Going on with an operation -/

theorem State.continueFeed_more (s : State) (port : Nat) (src : BufRef) {n pos : Nat} (h : pos < n) :
    s.continueFeed port src n pos = s.push ⟨port, .feed src n pos, false⟩ := by simp [State.continueFeed, h]

theorem State.continueFeed_end (s : State) (port : Nat) (src : BufRef) {n pos : Nat} (h : ¬ pos < n) :
    s.continueFeed port src n pos = s.report .OK none := by simp [State.continueFeed, h]

@[simp] theorem State.continueFeed_insts (s : State) (port : Nat) (src : BufRef) (n pos : Nat) :
    (s.continueFeed port src n pos).insts = s.insts := by unfold State.continueFeed; split <;> rfl

@[simp] theorem State.continueFeed_mem (s : State) (port : Nat) (src : BufRef) (n pos : Nat) :
    (s.continueFeed port src n pos).mem = s.mem := by unfold State.continueFeed; split <;> rfl

@[simp] theorem State.continueFeed_input (s : State) (port : Nat) (src : BufRef) (n pos : Nat) :
    (s.continueFeed port src n pos).input = s.input := by unfold State.continueFeed; split <;> rfl

@[simp] theorem State.continueFeed_cur (s : State) (port : Nat) (src : BufRef) (n pos : Nat) :
    (s.continueFeed port src n pos).cur = s.cur := by unfold State.continueFeed; split <;> rfl

@[simp] theorem State.continueFeed_inst (s : State) (port : Nat) (src : BufRef) (n pos q : Nat) :
    (s.continueFeed port src n pos).inst q = s.inst q := by simp [State.inst]

@[simp] theorem State.continueSink_insts (s : State) (port : Nat) (src : BufRef) (n : Nat) (es : List Event) (f : Status) :
    (s.continueSink port src n es f).insts = s.insts := by cases es <;> rfl

@[simp] theorem State.continueSink_mem (s : State) (port : Nat) (src : BufRef) (n : Nat) (es : List Event) (f : Status) :
    (s.continueSink port src n es f).mem = s.mem := by cases es <;> rfl

@[simp] theorem State.continueSink_input (s : State) (port : Nat) (src : BufRef) (n : Nat) (es : List Event) (f : Status) :
    (s.continueSink port src n es f).input = s.input := by cases es <;> rfl

@[simp] theorem State.continueSink_cur (s : State) (port : Nat) (src : BufRef) (n : Nat) (es : List Event) (f : Status) :
    (s.continueSink port src n es f).cur = s.cur := by cases es <;> rfl

@[simp] theorem State.continueSink_inst (s : State) (port : Nat) (src : BufRef) (n : Nat) (es : List Event) (f : Status)
    (q : Nat) : (s.continueSink port src n es f).inst q = s.inst q := by simp [State.inst]

/-- A handler's return goes on with the operation whose event was taken; there is no other case. -/
theorem State.handlerReturn_next (h : s.handlerReturn = .next s') : ∃ port work rest,
    s.stack = ⟨port, work, true⟩ :: rest ∧
    s' = match work with
      | .feed src n pos => ((s.setStack rest).atPort port).continueFeed port src n pos
      | .sink src n todo final => ((s.setStack rest).atPort port).continueSink port src n todo final := by
  unfold State.handlerReturn at h
  split at h
  · rename_i port work rest hs
    refine ⟨port, work, rest, hs, ?_⟩
    cases work <;> simpa using h.symm
  · cases h

/-- A host write changes one byte of memory, in no lent receive buffer and no buffer in use. -/
theorem State.hostWrite_next {a : Nat} {v : Byte} (h : s.hostWrite a v = .next s') :
    s.lentTo (oneByte a) = false ∧ s.sourceInUse (oneByte a) = false ∧ s' = s.setMem (s.mem.write a v) := by
  unfold State.hostWrite at h
  split at h
  · cases h
  · split at h
    · cases h
    · rename_i h1 h2
      exact ⟨by simpa using h1, by simpa using h2, by simpa using h.symm⟩

/-- The end of an instance removes it, and it had no operation in progress. -/
theorem State.endInstance_next (h : s.endInstance = .next s') :
    s.busyElsewhere = false ∧ s.inOwnHandler = false ∧ s' = { s with insts := Store.erase s.insts s.cur.port } := by
  obtain ⟨h1, h2, h3⟩ := State.acceptOutside_next h
  exact ⟨h1, h2, by simpa using h3.symm⟩

end Sys2Proof.Machine
end

