-- ==== Sys2Proof/Laws/Commands.lean ====
section
/-! SUPPORT. What each command can answer: one inversion lemma for each ("if it answers next, then …"), and its answer where its
tests pass. -/

namespace Sys2Proof.Machine

variable {s t : State} {src dst rx : BufRef} {n cap : Nat} {len : BitVec 16} {flush hp hb hf : Bool} {o : ByteOrder}
  {c : Ctx} {i : Inst}

theorem execCrc32_next (h : execCrc32 src n s = .next t) : s.busyElsewhere = false ∧ src.holds n = true ∧
    t = s.report .OK (some (.crc (crc32 (s.srcBytes src n)))) := by
  obtain ⟨h1, h2⟩ := State.accept_next h
  obtain ⟨h3, h4⟩ := State.checked_next h2
  exact ⟨h1, h3, by simpa using h4.symm⟩

theorem execEscsize_next (h : execEscsize src n s = .next t) : s.busyElsewhere = false ∧ src.holds n = true ∧
    t = s.report .OK (some (.count (escSize (s.srcBytes src n)))) := by
  obtain ⟨h1, h2⟩ := State.accept_next h
  obtain ⟨h3, h4⟩ := State.checked_next h2
  exact ⟨h1, h3, by simpa using h4.symm⟩

/-- ENC_BUF: BUFFER_TOO_SMALL with nothing changed, or the frame written where no lent buffer lies. -/
theorem execEncBuf_next (h : execEncBuf src len dst cap s = .next t) : ∃ i, s.inst s.cur.port = some i ∧
    s.busyElsewhere = false ∧ encBufHazard s (src.first len.toNat) (dst.first cap) = false ∧
    (t = s.report .BUFFER_TOO_SMALL (some (.count 0)) ∨
      (frameSize i.pOrder (s.srcBytes src len.toNat) ≤ cap ∧
        s.lentTo ⟨dst.base, (frameBytes i.pOrder (s.srcBytes src len.toNat)).length⟩ = false ∧
        t = (s.setMem (s.mem.writeBytes dst.base (frameBytes i.pOrder (s.srcBytes src len.toNat)))).report .OK
          (some (.count (frameSize i.pOrder (s.srcBytes src len.toNat)))))) := by
  obtain ⟨h1, h2⟩ := State.accept_next h
  obtain ⟨-, h4⟩ := State.checked_next h2
  obtain ⟨i, hi, h5⟩ := State.withInst_next h4
  split at h5
  · cases h5
  · rename_i hz
    refine ⟨i, hi, h1, by simpa using hz, ?_⟩
    unfold encBufInto at h5
    split at h5
    · left; simpa using h5.symm
    · rename_i hc
      right
      unfold writeFrame at h5
      split at h5
      · cases h5
      · rename_i hl
        split at h5
        · exact ⟨by omega, by simpa using hl, by simpa using h5.symm⟩
        · cases h5

theorem execEncSink_next (h : execEncSink src len flush s = .next t) : ∃ i, s.inst s.cur.port = some i ∧
    s.busyElsewhere = false ∧ src.holds len.toNat = true ∧ t = encSinkWith Config.pFlushCheck i src len flush s := by
  obtain ⟨h1, h2⟩ := State.accept_next h
  obtain ⟨h3, h4⟩ := State.checked_next h2
  obtain ⟨i, hi, h5⟩ := State.withInst_next h4
  exact ⟨i, hi, h1, h3, by simpa using h5.symm⟩

theorem execPInit_next (h : execPInit o rx cap hp hb hf c s = .next t) : s.busyElsewhere = false ∧
    s.inOwnHandler = false ∧ rx.holds cap = true ∧
    t = (s.initInst ⟨o, rx, cap, hp, hb, hf, c, Regs.initial, 0, s.loans⟩).report .OK none := by
  obtain ⟨h1, h2, h3⟩ := State.acceptOutside_next h
  obtain ⟨h4, h5⟩ := State.checked_next h3
  exact ⟨h1, h2, h4, by simpa using h5.symm⟩

theorem execPFeed_next (h : execPFeed src n s = .next t) : ∃ i, s.inst s.cur.port = some i ∧ s.busyElsewhere = false ∧
    s.inOwnHandler = false ∧ src.holds n = true ∧ (src.first n).overlaps i.lent = false ∧
    t = s.continueFeed s.cur.port src n 0 := by
  obtain ⟨h1, h2, h3⟩ := State.acceptOutside_next h
  obtain ⟨h4, h5⟩ := State.checked_next h3
  obtain ⟨i, hi, h6⟩ := State.withInst_next h5
  split at h6
  · cases h6
  · rename_i ho
    exact ⟨i, hi, h1, h2, h4, by simpa using ho, by simpa using h6.symm⟩

/-! ### Answers where the tests pass -/

theorem execCrc32_eq (h : s.busyElsewhere = false) (hn : src.holds n = true) :
    execCrc32 src n s = .next (s.report .OK (some (.crc (crc32 (s.srcBytes src n))))) := by
  rw [execCrc32, State.accept_eq h, State.checked_eq hn]

theorem execEscsize_eq (h : s.busyElsewhere = false) (hn : src.holds n = true) :
    execEscsize src n s = .next (s.report .OK (some (.count (escSize (s.srcBytes src n))))) := by
  rw [execEscsize, State.accept_eq h, State.checked_eq hn]

theorem execEncSink_eq (h : s.busyElsewhere = false) (hn : src.holds len.toNat = true)
    (hi : s.inst s.cur.port = some i) :
    execEncSink src len flush s = .next (encSinkWith Config.pFlushCheck i src len flush s) := by
  rw [execEncSink, State.accept_eq h, State.checked_eq hn, State.withInst_eq hi]

theorem execPInit_eq (h : s.busyElsewhere = false) (h2 : s.inOwnHandler = false) (hn : rx.holds cap = true) :
    execPInit o rx cap hp hb hf c s =
      .next ((s.initInst ⟨o, rx, cap, hp, hb, hf, c, Regs.initial, 0, s.loans⟩).report .OK none) := by
  rw [execPInit, State.acceptOutside_eq h h2, State.checked_eq hn]

theorem execPFeed_eq (h : s.busyElsewhere = false) (h2 : s.inOwnHandler = false) (hn : src.holds n = true)
    (hi : s.inst s.cur.port = some i) (ho : (src.first n).overlaps i.lent = false) :
    execPFeed src n s = .next (s.continueFeed s.cur.port src n 0) := by
  rw [execPFeed, State.acceptOutside_eq h h2, State.checked_eq hn, State.withInst_eq hi]
  simp [ho]

end Sys2Proof.Machine
end

