-- ==== Sys2Proof/Laws/Parser.lean ====
section
/-! SUPPORT. What one wire byte of a P_FEED can do. -/

namespace Sys2Proof.Machine

variable {s t : State} {port n pos : Nat} {src : BufRef} {rest : List Frame} {i : Inst} {e : ByteEffect}

@[simp] theorem Inst.noteStore_none (i : Inst) : i.noteStore none = i := rfl
@[simp] theorem Inst.noteStore_some (i : Inst) (k : Nat) (v : Byte) :
    i.noteStore (some (k, v)) = { i with rxWritten := max i.rxWritten (k + 1) } := rfl

/-- A byte's effect leaves the configuration and the loan. -/
@[simp] theorem Inst.afterByte_config (i : Inst) (m : Memory) (e : ByteEffect) :
    { (i.afterByte m e).1 with regs := i.regs, rxWritten := i.rxWritten } = i := by
  unfold Inst.afterByte
  rcases e with ⟨r, _ | ⟨k, v⟩, c⟩ <;> cases c <;> simp [Inst.toAwaiting]

@[simp] theorem Inst.afterByte_lent (i : Inst) (m : Memory) (e : ByteEffect) : (i.afterByte m e).1.lent = i.lent := by
  unfold Inst.afterByte
  rcases e with ⟨r, _ | ⟨k, v⟩, c⟩ <;> cases c <;> simp [Inst.toAwaiting, Inst.lent]

theorem Inst.afterByte_open (i : Inst) (m : Memory) (h : e.complete = false) :
    i.afterByte m e = ({ i with regs := e.regs }.noteStore e.store, i.rxStore m e.store, none) := by
  simp [Inst.afterByte, h]

theorem Inst.afterByte_mem (i : Inst) (m : Memory) (e : ByteEffect) : (i.afterByte m e).2.1 = i.rxStore m e.store := by
  unfold Inst.afterByte
  by_cases h : e.complete <;> simp [h]

/-- Going on without an event, seen as a whole. -/
theorem State.continueFeed_done (s : State) (port : Nat) (src : BufRef) (n pos : Nat) :
    if pos < n then
      (s.continueFeed port src n pos).stack = ⟨port, .feed src n pos, false⟩ :: s.stack ∧
      (s.continueFeed port src n pos).out = s.out
    else
      (s.continueFeed port src n pos).stack = s.stack ∧
      (s.continueFeed port src n pos).out =
        s.out ++ [⟨s.cur.thread, s.cur.port, s.stack.length, .result .OK none⟩] := by
  split <;> rename_i h
  · simp [State.continueFeed_more _ _ _ h]
  · simp [State.continueFeed_end _ _ _ h]

theorem State.continueFeed_stackOf_other (s : State) (port : Nat) (src : BufRef) (n pos : Nat) {u : Nat}
    (h : u ≠ s.cur.thread) : (s.continueFeed port src n pos).stackOf u = s.stackOf u := by
  unfold State.continueFeed
  split
  · simp [State.push_stackOf, h]
  · simp

/-- A byte whose buffer write is not refused is done: its effect on the instance and memory, its event, and the P_FEED at its
next byte, waiting, or ended. -/
theorem State.finishByte_done (hs : s.storeRefused port i e.store = none) :
    ∃ t, s.finishByte rest port src n pos i e = .next t ∧
      s.ByteDone t port src n pos rest (i.afterByte s.mem e).1 (i.afterByte s.mem e).2.1 (i.afterByte s.mem e).2.2 := by
  simp only [State.finishByte, hs]
  generalize i.afterByte s.mem e = r
  obtain ⟨j, m, ev⟩ := r
  refine ⟨_, rfl, ?_⟩
  generalize hz : (((s.setStack rest).setInst port j).setMem m).atPort port = z
  have hstk : z.stack = rest := by simp [← hz]
  have hoth : ∀ u, u ≠ s.cur.thread → z.stackOf u = s.stackOf u := fun u hu => by
    simp [← hz, State.setStack_stackOf, hu]
  have hinst : ∀ q, z.inst q = if q = port then some j else s.inst q := fun q => by
    simp [← hz, State.setInst_inst]
  have hzm : z.mem = m := by simp [← hz]
  have hzi : z.input = s.input := by simp [← hz]
  have hzo : z.out = s.out := by simp [← hz]
  have hzc : z.cur = ⟨s.cur.thread, port⟩ := by simp [← hz]
  cases ev with
  | none =>
    refine ⟨?_, ?_, ?_, ?_, ?_, ?_, ?_⟩
    · simp [State.afterEvent, hinst]
    · intro q hq; simp [State.afterEvent, hinst, hq]
    · simp [State.afterEvent, hzm]
    · simp [State.afterEvent, hzi]
    · simp [State.afterEvent, hzc]
    · intro u hu
      rw [State.afterEvent, State.continueFeed_stackOf_other _ _ _ _ _ (by rw [hzc]; exact hu)]
      exact hoth u hu
    · have h := State.continueFeed_done z port src n (pos + 1)
      rw [hstk, hzo, hzc] at h
      simpa [State.afterEvent, outputs] using h
  | some ev =>
    refine ⟨?_, ?_, ?_, ?_, ?_, ?_, ?_⟩
    · simp [State.afterEvent, hinst]
    · intro q hq; simp [State.afterEvent, hinst, hq]
    · simp [State.afterEvent, hzm]
    · simp [State.afterEvent, hzi]
    · simp [State.afterEvent, hzc]
    · intro u hu
      rw [State.afterEvent, State.emitAndWait_stackOf, if_neg (by rw [hzc]; exact hu)]
      exact hoth u hu
    · simp [State.afterEvent, hstk, hzo, hzc, outputs]

/-- The only way a byte is finished. -/
theorem State.finishByte_next (h : s.finishByte rest port src n pos i e = .next t) :
    s.storeRefused port i e.store = none ∧
      s.ByteDone t port src n pos rest (i.afterByte s.mem e).1 (i.afterByte s.mem e).2.1 (i.afterByte s.mem e).2.2 := by
  cases hs : s.storeRefused port i e.store with
  | some r => simp [State.finishByte, hs] at h
  | none =>
    obtain ⟨t', ht, hd⟩ := State.finishByte_done (rest := rest) (src := src) (n := n) (pos := pos) hs
    rw [h] at ht
    cases ht
    exact ⟨rfl, hd⟩

/-- A wire byte is run only by a P_FEED that is at it. -/
theorem State.onFeed_at {eff : Inst → ByteEffect} (h : s.AtByte port src n pos rest i) :
    s.onFeed eff = s.finishByte rest port src n pos i (eff i) := by
  obtain ⟨h1, h2⟩ := h
  simp [State.onFeed, h1, h2]

theorem State.onFeed_next {eff : Inst → ByteEffect} (h : s.onFeed eff = .next t) : ∃ port src n pos rest i,
    s.AtByte port src n pos rest i ∧ s.storeRefused port i (eff i).store = none ∧
      s.ByteDone t port src n pos rest (i.afterByte s.mem (eff i)).1 (i.afterByte s.mem (eff i)).2.1
        (i.afterByte s.mem (eff i)).2.2 := by
  unfold State.onFeed at h
  split at h
  · rename_i port src n pos rest hs
    split at h
    · rename_i i hi
      obtain ⟨h1, h2⟩ := State.finishByte_next h
      exact ⟨port, src, n, pos, rest, i, ⟨hs, hi⟩, h1, h2⟩
    · cases h
  · cases h

/-- A byte that stores nothing is refused by nothing. -/
@[simp] theorem State.storeRefused_none (s : State) (p : Nat) (i : Inst) : s.storeRefused p i none = none := rfl

/-- A byte that stores is refused by nothing exactly when no other lent buffer and no source in use lies there. -/
theorem State.storeRefused_some {p k : Nat} {v : Byte} : s.storeRefused p i (some (k, v)) = none ↔
    s.lentToOther p (oneByte (i.rxBuffer.base + k)) = false ∧
    s.sourceInUse (oneByte (i.rxBuffer.base + k)) = false := by
  simp only [State.storeRefused]
  split
  · simp_all
  · split <;> simp_all

/-- The effect of a wire byte class, by its instruction. -/
def byteEffect (i : Inst) : Instr → Option ByteEffect
  | .marker => some ⟨i.regs.markerStep, none, false⟩
  | .noise _ => some ⟨i.regs, none, false⟩
  | .escapedData b => some ((i.regs.setEscape false).dataStep i.pOrder i.rxCapacity (b ^^^ FLIP))
  | .escape => some ⟨i.regs.setEscape true, none, false⟩
  | .data b => some ((i.regs.setEscape false).dataStep i.pOrder i.rxCapacity b)
  | .crc32 _ _ => none
  | .escsize _ _ => none
  | .encBuf _ _ _ _ => none
  | .encSink _ _ _ => none
  | .pInit _ _ _ _ _ _ _ => none
  | .pFeed _ _ => none

/-- The class of a byte, run, is what R60's stages do with it. -/
theorem byteEffect_decodeWire (i : Inst) (b : Byte) :
    byteEffect i (decodeWire i.regs.state i.regs.escapePending b) = some (i.pByte b) := by
  unfold decodeWire Inst.pByte unstuff
  by_cases h1 : b = MARKER
  · simp [h1, byteEffect]
  · by_cases h2 : i.regs.state = .AM
    · simp [h1, h2, byteEffect]
    · by_cases h3 : i.regs.escapePending
      · simp [h1, h2, h3, byteEffect]
      · by_cases h4 : b = ESCAPE
        · subst h4; simp [h1, h2, h3, byteEffect]
        · simp [h1, h2, h3, h4, byteEffect]

/-- Running a wire byte at a P_FEED that is at a byte. -/
theorem exec_byte {op : Instr} (h : s.AtByte port src n pos rest i) (he : byteEffect i op = some e) :
    exec op s = s.finishByte rest port src n pos i e := by
  cases op <;> simp only [byteEffect, Option.some.injEq, reduceCtorEq] at he <;> subst he <;>
    simp [exec, execMarker, execNoise, execEscapedData, execEscape, execData, State.onFeed_at h]

/-- Running a wire byte needs a P_FEED that is at a byte. -/
theorem exec_byte_next {op : Instr} (hb : ∀ j, (byteEffect j op).isSome) (h : exec op s = .next t) :
    ∃ port src n pos rest i e, s.AtByte port src n pos rest i ∧ byteEffect i op = some e ∧
      s.storeRefused port i e.store = none ∧
      s.ByteDone t port src n pos rest (i.afterByte s.mem e).1 (i.afterByte s.mem e).2.1 (i.afterByte s.mem e).2.2 := by
  have key : ∀ eff : Inst → ByteEffect, exec op s = s.onFeed eff → (∀ j, byteEffect j op = some (eff j)) →
      ∃ port src n pos rest i e, s.AtByte port src n pos rest i ∧ byteEffect i op = some e ∧
        s.storeRefused port i e.store = none ∧
        s.ByteDone t port src n pos rest (i.afterByte s.mem e).1 (i.afterByte s.mem e).2.1
          (i.afterByte s.mem e).2.2 := by
    intro eff h1 h2
    rw [h1] at h
    obtain ⟨port, src, n, pos, rest, i, h3, h4, h5⟩ := State.onFeed_next h
    exact ⟨port, src, n, pos, rest, i, eff i, h3, h2 i, h4, h5⟩
  cases op
  case marker => exact key _ rfl fun _ => rfl
  case noise b => exact key _ rfl fun _ => rfl
  case escapedData b => exact key _ rfl fun _ => rfl
  case escape => exact key _ rfl fun _ => rfl
  case data b => exact key _ rfl fun _ => rfl
  all_goals exact absurd (hb ⟨.LE, ⟨0, 0⟩, 0, false, false, false, ⟨0⟩, Regs.initial, 0, 0⟩) (by simp [byteEffect])

/-! ### The register steps -/

variable {r : Regs} {o : ByteOrder} {cap : Nat} {d : Byte}

/-- A byte stores only in RP, at `received_count`, below the payload's end (R65). -/
theorem Regs.dataStep_store {k : Nat} {v : Byte} (h : (r.dataStep o cap d).store = some (k, v)) :
    r.state = .RP ∧ k = r.receivedCount ∧ v = d ∧ r.receivedCount < r.expectedTotalLen - 4 := by
  unfold Regs.dataStep at h
  split at h <;> rename_i hs
  · cases h
  · cases h
  · cases h
  · unfold Regs.bodyStep at h
    split at h <;> rename_i hc
    · obtain ⟨rfl, rfl⟩ : r.receivedCount = k ∧ d = v := by simpa using h
      exact ⟨hs, rfl, rfl, hc⟩
    · cases h

/-- Every byte stores only in RP, at `received_count`, below the payload's end. -/
theorem byteEffect_store {op : Instr} {k : Nat} {v : Byte} (he : byteEffect i op = some e)
    (h : e.store = some (k, v)) :
    i.regs.state = .RP ∧ k = i.regs.receivedCount ∧ i.regs.receivedCount < i.regs.expectedTotalLen - 4 := by
  cases op <;> simp only [byteEffect, Option.some.injEq, reduceCtorEq] at he <;> subst he
  case escapedData b =>
    obtain ⟨h1, h2, -, h4⟩ := Regs.dataStep_store h
    exact ⟨h1, h2, h4⟩
  case data b =>
    obtain ⟨h1, h2, -, h4⟩ := Regs.dataStep_store h
    exact ⟨h1, h2, h4⟩
  all_goals cases h

end Sys2Proof.Machine
end

