-- ==== Sys2Proof/Laws/Step.lean ====
section
/-! SUPPORT. What a step can do: the moves, when each is made, and one inversion lemma for the step. -/

namespace Sys2Proof.Machine

variable {s t : State} {th p : Nat} {rest : List HostInput}

theorem State.running_iff {u : Nat} : s.running u = true ↔
    ∃ port src n pos below, s.stackOf u = ⟨port, .feed src n pos, false⟩ :: below := by
  unfold State.running
  constructor
  · intro h
    split at h
    · rename_i port src n pos below hs; exact ⟨port, src, n, pos, below, hs⟩
    · cases h
  · rintro ⟨port, src, n, pos, below, hs⟩
    rw [hs]

theorem State.fetchByte_at {port n pos : Nat} {src : BufRef} {below : List Frame} {i : Inst}
    (hs : s.stackOf th = ⟨port, .feed src n pos, false⟩ :: below) (hi : s.inst port = some i) :
    s.fetchByte th = .run th port (.wire i.regs.state i.regs.escapePending (s.read (src.base + pos))) := by
  simp [State.fetchByte, hs, hi]

/-- What a fetched byte is, when there is one. -/
theorem State.fetchByte_cases (s : State) (u : Nat) :
    (s.running u = false ∧ s.fetchByte u = .idle) ∨ s.fetchByte u = .stray ∨
    ∃ port src n pos below i, s.stackOf u = ⟨port, .feed src n pos, false⟩ :: below ∧ s.inst port = some i ∧
      s.fetchByte u = .run u port (.wire i.regs.state i.regs.escapePending (s.read (src.base + pos))) := by
  by_cases h : s.running u = true
  · obtain ⟨port, src, n, pos, below, hs⟩ := State.running_iff.mp h
    cases hi : s.inst port with
    | none => right; left; simp [State.fetchByte, hs, hi]
    | some i => right; right; exact ⟨port, src, n, pos, below, i, hs, hi, State.fetchByte_at hs hi⟩
  · left
    refine ⟨by simpa using h, ?_⟩
    unfold State.fetchByte
    split
    · rename_i port src n pos below hs
      exact absurd (State.running_iff.mpr ⟨port, src, n, pos, below, hs⟩) h
    · rfl

/-- A move comes from a thread's P_FEED at a byte, or is the first input's, whose thread is not inside one. -/
theorem State.nextMove_cases (s : State) :
    (∃ u, s.nextMove.1 = s.fetchByte u) ∨ s.nextMove.1 = .idle ∨
    (∃ inp tail, s.input = inp :: tail ∧ s.running inp.thread = false ∧ s.nextMove = (inp.move, tail)) := by
  unfold State.nextMove
  split
  · split
    · exact .inl ⟨_, rfl⟩
    · exact .inr (.inl rfl)
  · exact .inl ⟨_, rfl⟩
  · rename_i inp tail hne heq
    split
    · exact .inl ⟨_, rfl⟩
    · rename_i h
      exact .inr (.inr ⟨inp, tail, heq, by simpa using h, rfl⟩)

/-- A wire byte is run only for the P_FEED that is at it, with the registers of its instance. -/
theorem State.nextMove_wire {st : ParserState} {ep : Bool} {b : Byte} (h : s.nextMove.1 = .run th p (.wire st ep b)) :
    ∃ src n pos below i, s.stackOf th = ⟨p, .feed src n pos, false⟩ :: below ∧ s.inst p = some i ∧
      st = i.regs.state ∧ ep = i.regs.escapePending ∧ b = s.read (src.base + pos) := by
  rcases State.nextMove_cases s with ⟨u, hu⟩ | hu | ⟨inp, tail, -, -, hu⟩
  · rcases State.fetchByte_cases s u with ⟨-, hf⟩ | hf | ⟨port, src, n, pos, below, i, hs, hi, hf⟩
    · rw [hu, hf] at h; cases h
    · rw [hu, hf] at h; cases h
    · rw [hu, hf] at h
      cases h
      exact ⟨src, n, pos, below, i, hs, hi, rfl, rfl, rfl⟩
  · rw [hu] at h; cases h
  · rw [hu] at h
    cases inp <;> cases h

/-- Every other move is the first input's, of a thread that is not inside a P_FEED at a byte. -/
theorem State.nextMove_input {mv : Move} (h : s.nextMove = (mv, rest)) (h1 : mv ≠ .idle) (h2 : mv ≠ .stray)
    (h3 : ∀ u q st ep b, mv ≠ .run u q (.wire st ep b)) :
    ∃ inp, s.input = inp :: rest ∧ s.running inp.thread = false ∧ mv = inp.move := by
  rcases State.nextMove_cases s with ⟨u, hu⟩ | hu | ⟨inp, tail, hi, hr, hu⟩
  · rw [h] at hu
    rcases State.fetchByte_cases s u with ⟨-, hf⟩ | hf | ⟨port, src, n, pos, below, i, hs, hi, hf⟩
    · exact absurd (hu.trans hf) h1
    · exact absurd (hu.trans hf) h2
    · exact absurd (hu.trans hf) (h3 _ _ _ _ _)
  · rw [h] at hu; exact absurd hu h1
  · rw [h] at hu
    cases hu
    exact ⟨inp, hi, hr, rfl⟩

/-- A command that is run is the first input. -/
theorem State.nextMove_command {c : Command} (h : s.nextMove = (.run th p (.command c), rest)) :
    s.input = .command th p c :: rest ∧ s.running th = false := by
  obtain ⟨inp, h1, h2, h3⟩ := State.nextMove_input h (by simp) (by simp) (by simp)
  cases inp <;> cases h3
  exact ⟨h1, h2⟩

/-- An input of a thread that is not inside a P_FEED at a byte is taken. -/
theorem State.nextMove_take {inp : HostInput} (h : s.input = inp :: rest) (hr : s.running inp.thread = false)
    (hs : ∀ u, inp ≠ .slot u) : s.nextMove = (inp.move, rest) := by
  unfold State.nextMove
  rw [h]
  cases inp with
  | slot u => exact absurd rfl (hs u)
  | command u q c => simp [HostInput.thread] at hr; simp [HostInput.thread, hr]
  | handlerReturn u => simp [HostInput.thread] at hr; simp [HostInput.thread, hr]
  | write u a v => simp [HostInput.thread] at hr; simp [HostInput.thread, hr]
  | endInstance u q => simp [HostInput.thread] at hr; simp [HostInput.thread, hr]

theorem runWord_next {w : Encoded} (h : runWord w s = .next t) : ∃ i, decode w = .ok i ∧ exec i s = .next t := by
  unfold runWord at h
  split at h
  · rename_i i hi; exact ⟨i, hi, h⟩
  · cases h
  · cases h

/-- What a step can do. -/
theorem step_next (h : step s = .next t) :
    (∃ rest, s.nextMove = (.idle, rest) ∧ t = { s with input := rest }) ∨
    (∃ u q w rest i, s.nextMove = (.run u q w, rest) ∧ decode w = .ok i ∧ exec i (s.serving rest u q) = .next t) ∨
    (∃ u rest, s.nextMove = (.handlerReturn u, rest) ∧ (s.serving rest u s.cur.port).handlerReturn = .next t) ∨
    (∃ u a v rest, s.nextMove = (.write u a v, rest) ∧ (s.serving rest u s.cur.port).hostWrite a v = .next t) ∨
    (∃ u q rest, s.nextMove = (.endInstance u q, rest) ∧ (s.serving rest u q).endInstance = .next t) := by
  unfold step at h
  split at h
  · rename_i rest hm; exact .inl ⟨rest, hm, by simpa using h.symm⟩
  · rename_i u q w rest hm
    obtain ⟨i, hi, hx⟩ := runWord_next h
    exact .inr (.inl ⟨u, q, w, rest, i, hm, hi, hx⟩)
  · rename_i u rest hm; exact .inr (.inr (.inl ⟨u, rest, hm, h⟩))
  · rename_i u a v rest hm; exact .inr (.inr (.inr (.inl ⟨u, a, v, rest, hm, h⟩)))
  · rename_i u q rest hm; exact .inr (.inr (.inr (.inr ⟨u, q, rest, hm, h⟩)))
  · cases h

/-- A step that takes a command runs the instruction it decodes to. -/
theorem step_command {c : Command} {i : Instr} (h : s.input = .command th p c :: rest) (hr : s.running th = false)
    (hd : decode (.command c) = .ok i) : step s = exec i (s.serving rest th p) := by
  have hm := State.nextMove_take h hr (by simp)
  simp only [HostInput.move] at hm
  simp [step, hm, runWord, hd]

end Sys2Proof.Machine
end

