-- ==== Sys2Proof/Laws/Effects.lean ====
section
/-! SUPPORT. What overlap of buffers means, everything a command can do, and everything a step can do. -/

namespace Sys2Proof

/-- Two buffers overlap exactly when an address lies in both. -/
theorem BufRef.overlaps_iff (r q : BufRef) :
    r.overlaps q = true ↔ ∃ a, r.base ≤ a ∧ a < r.base + r.size ∧ q.base ≤ a ∧ a < q.base + q.size := by
  simp only [BufRef.overlaps, Bool.and_eq_true, bne_iff_ne, decide_eq_true_eq]
  constructor
  · rintro ⟨⟨⟨h1, h2⟩, h3⟩, h4⟩
    exact ⟨max r.base q.base, by omega, by omega, by omega, by omega⟩
  · rintro ⟨a, h1, h2, h3, h4⟩
    refine ⟨⟨⟨?_, ?_⟩, ?_⟩, ?_⟩ <;> omega

/-- Two buffers do not overlap exactly when no address lies in both. -/
theorem BufRef.overlaps_false (r q : BufRef) : r.overlaps q = false ↔
    ∀ a, r.base ≤ a → a < r.base + r.size → q.base ≤ a → a < q.base + q.size → False := by
  rw [← Bool.not_eq_true, BufRef.overlaps_iff]
  constructor
  · intro h a h1 h2 h3 h4; exact h ⟨a, h1, h2, h3, h4⟩
  · rintro h ⟨a, h1, h2, h3, h4⟩; exact h a h1 h2 h3 h4

/-- A part of a buffer overlaps nothing that the buffer does not. -/
theorem BufRef.overlaps_part {r q q' : BufRef} (h : r.overlaps q = false) (h1 : q.base ≤ q'.base)
    (h2 : q'.base + q'.size ≤ q.base + q.size) : r.overlaps q' = false := by
  rw [BufRef.overlaps_false] at h ⊢
  intro a h3 h4 h5 h6
  exact h a h3 h4 (by omega) (by omega)

end Sys2Proof

namespace Sys2Proof.Machine

variable {s t : State}

/-- What no lent buffer overlaps lies outside each of them. -/
theorem State.lentTo_outside {p : Nat} {i : Inst} {r : BufRef} {a : Nat} (h : s.lentTo r = false) (hi : s.inst p = some i)
    (h1 : i.rxBuffer.base ≤ a) (h2 : a < i.rxBuffer.base + i.rxCapacity) : a < r.base ∨ r.base + r.size ≤ a := by
  simp only [State.lentTo, List.any_eq_false] at h
  have h3 := (Bool.not_eq_true _ ▸ h _ (Store.mem_of_get hi))
  rw [BufRef.overlaps_false] at h3
  by_contra hc
  exact h3 a h1 h2 (by omega) (by omega)

/-- The same for the buffers lent to other instances than the one at `p`. -/
theorem State.lentToOther_outside {p q : Nat} {i : Inst} {r : BufRef} {a : Nat} (h : s.lentToOther p r = false)
    (hq : q ≠ p) (hi : s.inst q = some i) (h1 : i.rxBuffer.base ≤ a) (h2 : a < i.rxBuffer.base + i.rxCapacity) :
    a < r.base ∨ r.base + r.size ≤ a := by
  simp only [State.lentToOther, List.any_eq_false] at h
  have h3 : ¬ i.lent.overlaps r = true := by
    have := h _ (Store.mem_of_get hi)
    simpa [hq] using this
  rw [Bool.not_eq_true, BufRef.overlaps_false] at h3
  by_contra hc
  exact h3 a h1 h2 (by omega) (by omega)

@[simp] theorem State.lentTo_nothing (s : State) (a : Nat) : s.lentTo ⟨a, 0⟩ = false := by
  simp [State.lentTo, BufRef.overlaps]

/-- No other thread has an operation on the instance being served. -/
theorem State.busyElsewhere_false (h : s.busyElsewhere = false) {u : Nat} {f : Frame} (hf : f ∈ s.stackOf u)
    (hp : f.port = s.cur.port) : u = s.cur.thread := by
  obtain ⟨e, he, rfl, hfe⟩ := State.frame_of_stackOf hf
  by_contra hu
  simp only [State.busyElsewhere, List.any_eq_false] at h
  exact h e he (by simpa [hu] using ⟨f, hfe, hp⟩)

/-- This thread has no operation on the instance being served. -/
theorem State.inOwnHandler_false (h : s.inOwnHandler = false) {f : Frame} (hf : f ∈ s.stack) : f.port ≠ s.cur.port := by
  simp only [State.inOwnHandler, List.any_eq_false] at h
  simpa using h f hf

/-- Everything a command can do: put out a result, after writing bytes where no lent buffer lies, if any; configure an instance
that has no operation in progress; or begin an operation that waits or is at its first byte. -/
theorem exec_command_next {op : Instr} (hc : ∀ j, byteEffect j op = none) (h : exec op s = .next t) :
    s.busyElsewhere = false ∧
    ((∃ base bs st v, s.lentTo ⟨base, bs.length⟩ = false ∧ t = (s.setMem (s.mem.writeBytes base bs)).report st v) ∨
     (∃ j : Inst, s.inOwnHandler = false ∧ j.regs = Regs.initial ∧ j.rxWritten = 0 ∧ t = (s.initInst j).report .OK none) ∨
     (∃ f es, f.port = s.cur.port ∧ s.FrameInv f ∧ (f.isFeed = true → s.inOwnHandler = false) ∧
      t = ({ s with out := s.out ++ es }).push f)) := by
  have quiet : ∀ st v, ∃ base bs st' v', s.lentTo ⟨base, List.length bs⟩ = false ∧
      s.report st v = (s.setMem (s.mem.writeBytes base bs)).report st' v' :=
    fun st v => ⟨0, [], st, v, by simp, rfl⟩
  cases op
  case crc32 src n => obtain ⟨h1, -, rfl⟩ := execCrc32_next h; exact ⟨h1, .inl (quiet _ _)⟩
  case escsize src n => obtain ⟨h1, -, rfl⟩ := execEscsize_next h; exact ⟨h1, .inl (quiet _ _)⟩
  case encBuf src len dst cap =>
    obtain ⟨i, -, h1, -, h2⟩ := execEncBuf_next h
    rcases h2 with rfl | ⟨-, hl, rfl⟩
    · exact ⟨h1, .inl (quiet _ _)⟩
    · exact ⟨h1, .inl ⟨_, _, _, _, hl, rfl⟩⟩
  case encSink src len flush =>
    obtain ⟨i, hi, h1, hn, rfl⟩ := execEncSink_next h
    refine ⟨h1, ?_⟩
    unfold encSinkWith
    split
    · exact .inl (quiet _ _)
    · split
      · exact .inl (quiet _ _)
      · cases hev : sinkEvents i (s.srcBytes src len.toNat) flush with
        | nil => exact .inl (quiet _ _)
        | cons e es =>
          refine .inr (.inr ⟨⟨s.cur.port, .sink src len.toNat es (sinkStatus i flush), true⟩, _, rfl,
            ⟨i, hi, ?_, rfl, ?_⟩, by simp [Frame.isFeed], rfl⟩)
          · simpa [BufRef.holds] using hn
          · unfold sinkStatus; split <;> simp
  case pInit o rx cap hp hb hf c =>
    obtain ⟨h1, h2, -, rfl⟩ := execPInit_next h
    exact ⟨h1, .inr (.inl ⟨_, h2, rfl, rfl, rfl⟩)⟩
  case pFeed src n =>
    obtain ⟨i, hi, h1, h2, hn, ho, rfl⟩ := execPFeed_next h
    refine ⟨h1, ?_⟩
    by_cases h0 : 0 < n
    · rw [State.continueFeed_more _ _ _ h0]
      refine .inr (.inr ⟨⟨s.cur.port, .feed src n 0, false⟩, [], rfl, ⟨i, hi, ?_⟩, fun _ => h2, ?_⟩)
      · exact ⟨by omega, by simpa [BufRef.holds] using hn, fun _ => h0, ho⟩
      · simp
    · rw [State.continueFeed_end _ _ _ h0]
      exact .inl (quiet _ _)
  all_goals exact absurd (hc ⟨.LE, ⟨0, 0⟩, 0, false, false, false, ⟨0⟩, Regs.initial, 0, 0⟩) (by simp [byteEffect])

/-- A command decodes to no wire byte class. -/
theorem decodeCommand_class {c : Command} {op : Instr} (h : decode (.command c) = .ok op) :
    ∀ j, byteEffect j op = none := by
  have key : ∀ o : Option Instr, checkOperands o = .ok op → o = some op := fun _ ho => (checkOperands_ok ho).1
  have hsrc : ∀ (k : BufRef → Nat → Instr), readSrc k c.slots = some op → ∃ r n, op = k r n := by
    intro k hk
    unfold readSrc at hk
    split at hk
    · exact ⟨_, _, by simpa using hk.symm⟩
    · cases hk
  intro j
  simp only [decode, decodeCommand] at h
  split at h
  · obtain ⟨r, n, rfl⟩ := hsrc _ (key _ h); rfl
  split at h
  · obtain ⟨r, n, rfl⟩ := hsrc _ (key _ h); rfl
  split at h
  · have h := key _ h
    unfold readEncBuf at h
    split at h
    · obtain ⟨x, -, rfl⟩ := Option.map_eq_some_iff.mp h; rfl
    · cases h
  split at h
  · have h := key _ h
    unfold readEncSink at h
    split at h
    · split at h
      · cases h; rfl
      · cases h
    · cases h
  split at h
  · have h := key _ h
    unfold readInit at h
    split at h
    · split at h
      · cases h; rfl
      · cases h
    · cases h
  split at h
  · obtain ⟨r, n, rfl⟩ := hsrc _ (key _ h); rfl
  · cases h

/-- What a step can do, with its effects. -/
theorem step_effect (h : step s = .next t) :
    (∃ rest, s.nextMove = (.idle, rest) ∧ t = { s with input := rest }) ∨
    (∃ u q c rest op, s.nextMove = (.run u q (.command c), rest) ∧ s.running u = false ∧
      (∀ j, byteEffect j op = none) ∧ exec op (s.serving rest u q) = .next t) ∨
    (∃ u q st ep b rest src n pos below i, s.nextMove = (.run u q (.wire st ep b), rest) ∧
      s.stackOf u = ⟨q, .feed src n pos, false⟩ :: below ∧ s.inst q = some i ∧
      s.storeRefused q i (i.pByte b).store = none ∧
      (s.serving rest u q).ByteDone t q src n pos below (i.afterByte s.mem (i.pByte b)).1
        (i.afterByte s.mem (i.pByte b)).2.1 (i.afterByte s.mem (i.pByte b)).2.2) ∨
    (∃ u rest, s.nextMove = (.handlerReturn u, rest) ∧ (s.serving rest u s.cur.port).handlerReturn = .next t) ∨
    (∃ u a v rest, s.nextMove = (.write u a v, rest) ∧ (s.serving rest u s.cur.port).hostWrite a v = .next t) ∨
    (∃ u q rest, s.nextMove = (.endInstance u q, rest) ∧ (s.serving rest u q).endInstance = .next t) := by
  rcases step_next h with h | ⟨u, q, w, rest, op, hm, hd, hx⟩ | h | h | h
  · exact .inl h
  · cases w with
    | command c => exact .inr (.inl ⟨u, q, c, rest, op, hm, (State.nextMove_command hm).2, decodeCommand_class hd, hx⟩)
    | wire st ep b =>
      obtain ⟨src, n, pos, below, i, hs, hi, rfl, rfl, -⟩ := State.nextMove_wire (congrArg Prod.fst hm)
      right; right; left
      have hop : op = decodeWire i.regs.state i.regs.escapePending b := by simpa [decode] using hd.symm
      subst hop
      have hat : (s.serving rest u q).AtByte q src n pos below i := ⟨by simpa using hs, by simpa using hi⟩
      rw [exec_byte hat (byteEffect_decodeWire i b)] at hx
      obtain ⟨h1, h2⟩ := State.finishByte_next hx
      exact ⟨u, q, _, _, b, rest, src, n, pos, below, i, hm, hs, hi, h1, h2⟩
  · exact .inr (.inr (.inr (.inl h)))
  · exact .inr (.inr (.inr (.inr (.inl h))))
  · exact .inr (.inr (.inr (.inr (.inr h))))

/-- A byte of a P_FEED stores at most at `received_count` of its instance's buffer. -/
theorem Inst.pByte_store {i : Inst} {b : Byte} {k : Nat} {v : Byte} (h : (i.pByte b).store = some (k, v)) :
    i.regs.state = .RP ∧ k = i.regs.receivedCount ∧ i.regs.receivedCount < i.regs.expectedTotalLen - 4 :=
  byteEffect_store (byteEffect_decodeWire i b) h

/-- A byte of memory that a wire byte does not store to reads as before. -/
theorem Inst.rxStore_read {i : Inst} {m : Memory} {x : Option (Nat × Byte)} {a : Nat}
    (h : ∀ k v, x = some (k, v) → a ≠ i.rxBuffer.base + k) : (i.rxStore m x).read a = m.read a := by
  cases x with
  | none => rfl
  | some kv => exact Memory.read_write_other _ _ (h _ _ rfl)

/-- A handler's return changes no instance and no memory. -/
theorem State.handlerReturn_insts (h : s.handlerReturn = .next t) : t.insts = s.insts ∧ t.mem = s.mem := by
  obtain ⟨port, work, rest, -, rfl⟩ := State.handlerReturn_next h
  cases work <;> simp

end Sys2Proof.Machine
end

