-- ==== Sys2Proof/Laws/Read.lean ====
section
/-! SUPPORT. What a read gives: the byte that host memory holds, but for the bytes of a lent receive buffer that its parser has
not written since P_INIT. -/

namespace Sys2Proof.Machine

variable {s t : State} {i j : Inst} {m : Memory} {a k n p : Nat}

theorem Inst.unknownLoan_none : i.unknownLoan a = none ↔
    a < i.rxBuffer.base + i.rxWritten ∨ i.rxBuffer.base + i.rxCapacity ≤ a := by
  unfold Inst.unknownLoan
  split <;> rename_i h
  · simp; omega
  · simp; omega

/-- A byte that the parser has written, or that is not lent, is known. -/
theorem Inst.rxRead_known (h : k < i.rxWritten ∨ i.rxCapacity ≤ k) : i.rxRead m k = m.read (i.rxBuffer.base + k) := by
  have h1 : i.unknownLoan (i.rxBuffer.base + k) = none := Inst.unknownLoan_none.mpr (by omega)
  simp [Inst.rxRead, h1, Memory.readUnder]

/-- A byte of a lent buffer that the parser has not written is a free value. -/
theorem Inst.rxRead_unknown (h : i.rxWritten ≤ k) (hk : k < i.rxCapacity) :
    i.rxRead m k = Config.lentByte i.loan (i.rxBuffer.base + k) := by
  simp [Inst.rxRead, Inst.unknownLoan, h, hk, Memory.readUnder]

/-- Where the parser has written, its own reads are those of memory. -/
theorem Inst.rxRead_bytes (h : n ≤ i.rxWritten) : (List.range n).map (i.rxRead m) = m.bytes i.rxBuffer.base n :=
  List.map_congr_left fun k hk => Inst.rxRead_known (.inl (by have := List.mem_range.mp hk; omega))

/-- An address that no instance holds unknown reads as memory holds it. -/
theorem State.read_known (h : ∀ e ∈ s.insts, e.2.unknownLoan a = none) : s.read a = s.mem.read a := by
  have h1 : (s.insts.findSome? fun e => e.2.unknownLoan a) = none := List.findSome?_eq_none_iff.mpr h
  simp [State.read, h1, Memory.readUnder]

/-- An address that is not lent reads as memory holds it. -/
theorem State.read_unlent (h : s.lentTo (oneByte a) = false) : s.read a = s.mem.read a := by
  refine State.read_known fun e he => Inst.unknownLoan_none.mpr ?_
  simp only [State.lentTo, List.any_eq_false] at h
  have h1 := h e he
  rw [Bool.not_eq_true, BufRef.overlaps_false] at h1
  by_contra hc
  exact h1 a (by simp [Inst.lent, BufRef.first]; omega) (by simp [Inst.lent, BufRef.first]; omega) (by simp [oneByte])
    (by simp [oneByte])

/-- Which loan an unknown address has. -/
theorem Inst.unknownLoan_some {loan : Nat} : i.unknownLoan a = some loan ↔
    (i.rxBuffer.base + i.rxWritten ≤ a ∧ a < i.rxBuffer.base + i.rxCapacity) ∧ i.loan = loan := by
  unfold Inst.unknownLoan
  split <;> simp_all

/-- An address that some instance holds unknown is the free value of the loan of one that does. -/
theorem State.read_unknown {e : Nat × Inst} (he : e ∈ s.insts) (h : e.2.unknownLoan a ≠ none) :
    ∃ x ∈ s.insts, x.2.unknownLoan a = some x.2.loan ∧ s.read a = Config.lentByte x.2.loan a := by
  cases hf : (s.insts.findSome? fun e => e.2.unknownLoan a) with
  | none => exact absurd (List.findSome?_eq_none_iff.mp hf e he) h
  | some loan =>
    obtain ⟨x, hx, hl⟩ := List.exists_of_findSome?_eq_some hf
    obtain rfl := (Inst.unknownLoan_some.mp hl).2
    exact ⟨x, hx, hl, by simp [State.read, hf, Memory.readUnder]⟩

/-- Where only the entry of one key gives something, that is what is found. -/
theorem Store.findSome_get {β γ : Type} {f : Nat × β → Option γ} {l : List (Nat × β)} {v : β} {c : γ}
    (hg : Store.get l k = some v) (ho : ∀ e ∈ l, e.1 ≠ k → f e = none) (hf : f (k, v) = some c) : l.findSome? f = some c := by
  induction l with
  | nil => simp [Store.get] at hg
  | cons e l ih =>
    obtain ⟨b, w⟩ := e
    by_cases hb : b = k
    · subst hb
      obtain rfl : w = v := by simpa [Store.get] using hg
      simp [hf]
    · rw [List.findSome?_cons, ho _ List.mem_cons_self hb]
      exact ih (by simpa [Store.get, hb] using hg) fun e he => ho e (List.mem_cons_of_mem _ he)

/-- A byte that one instance alone is lent and has not written is the free value of its loan. -/
theorem State.read_unknown_own (hi : s.inst p = some i) (ho : s.lentToOther p (oneByte a) = false)
    (h : i.rxBuffer.base + i.rxWritten ≤ a ∧ a < i.rxBuffer.base + i.rxCapacity) : s.read a = Config.lentByte i.loan a := by
  have hf : (s.insts.findSome? fun e => e.2.unknownLoan a) = some i.loan := by
    refine Store.findSome_get hi (fun e he hp => Inst.unknownLoan_none.mpr ?_) (Inst.unknownLoan_some.mpr ⟨h, rfl⟩)
    simp only [State.lentToOther, List.any_eq_false, Bool.and_eq_true, not_and, bne_iff_ne, Bool.not_eq_true] at ho
    have h1 := ho e he hp
    rw [BufRef.overlaps_false] at h1
    by_contra hc
    exact h1 a (by simp [Inst.lent, BufRef.first]; omega) (by simp [Inst.lent, BufRef.first]; omega) (by simp [oneByte])
      (by simp [oneByte])
  simp [State.read, hf, Memory.readUnder]

/-- A read depends on the instances and memory alone. -/
theorem State.read_congr (hi : t.insts = s.insts) (hm : t.mem.read a = s.mem.read a) : t.read a = s.read a := by
  unfold State.read
  rw [hi]
  cases (s.insts.findSome? fun e => e.2.unknownLoan a) <;> simp [Memory.readUnder, hm]

/-- A new entry that finds nothing, in the place of one that finds nothing, changes nothing that is found. -/
theorem Store.findSome_set {β γ : Type} {f : Nat × β → Option γ} {l : List (Nat × β)} {v : β}
    (hv : f (k, v) = none) (hold : ∀ w, Store.get l k = some w → f (k, w) = none) :
    (Store.set l k v).findSome? f = l.findSome? f := by
  induction l with
  | nil => simp [Store.set, hv]
  | cons e l ih =>
    obtain ⟨b, w⟩ := e
    simp only [Store.set]
    split
    · simp [hv]
    · split
      · rename_i hb
        subst hb
        have := hold w (by simp [Store.get])
        simp [hv, this]
      · rename_i hb
        rw [List.findSome?_cons, List.findSome?_cons, ih fun x hx => hold x (by simpa [Store.get, hb] using hx)]

/-- An instance changes no read outside its lent buffer. -/
theorem State.read_setInst (hi : s.inst p = some i) (hl : j.lent = i.lent) (ht : t.insts = Store.set s.insts p j)
    (hm : t.mem.read a = s.mem.read a) (ha : a < i.lent.base ∨ i.lent.base + i.lent.size ≤ a) : t.read a = s.read a := by
  have hn : ∀ x : Inst, x.lent = i.lent → x.unknownLoan a = none := by
    intro x hx
    rw [← hx] at ha
    exact Inst.unknownLoan_none.mpr (by simp [Inst.lent, BufRef.first] at ha; omega)
  have hw : ∀ w, Store.get s.insts p = some w → w.unknownLoan a = none := fun w hw => by
    obtain rfl : i = w := by simpa [State.inst] using hi.symm.trans hw
    exact hn i rfl
  have hf : t.insts.findSome? (fun e => e.2.unknownLoan a) = s.insts.findSome? fun e => e.2.unknownLoan a := by
    rw [ht]
    exact Store.findSome_set (f := fun e : Nat × Inst => e.2.unknownLoan a) (hn j hl) hw
  unfold State.read
  rw [hf]
  cases (s.insts.findSome? fun e => e.2.unknownLoan a) <;> simp [Memory.readUnder, hm]

/-! ### A placed byte -/

theorem BufRef.le_foldr_max (rs : List BufRef) (a : Nat) :
    a ≤ rs.foldr (fun r a => max (r.base + r.size) a) a ∧
      ∀ r ∈ rs, r.base + r.size ≤ rs.foldr (fun r a => max (r.base + r.size) a) a := by
  induction rs with
  | nil => simp
  | cons q rs ih =>
    obtain ⟨h1, h2⟩ := ih
    simp only [List.foldr_cons]
    refine ⟨by omega, fun r hr => ?_⟩
    rcases List.mem_cons.mp hr with rfl | hr
    · omega
    · have := h2 r hr; omega

/-- No receive buffer reaches the fresh address. -/
theorem State.lent_le_fresh {e : Nat × Inst} (he : e ∈ s.insts) :
    e.2.rxBuffer.base + e.2.rxCapacity ≤ s.freshAddress :=
  (BufRef.le_foldr_max _ _).2 e.2.lent (List.mem_append_left _ (List.mem_map.mpr ⟨e, he, rfl⟩))

/-- A placed byte is the byte that its P_FEED reads. -/
theorem State.placeByte_read (s : State) (st : ParserState) (ep : Bool) (b : Byte) :
    (s.placeByte st ep b).read s.freshAddress = b := by
  rw [State.read_known fun e he => Inst.unknownLoan_none.mpr ?_]
  · simp [State.placeByte]
  · rcases Store.mem_set he with rfl | h
    · exact .inl (by simp [placedInst])
    · exact .inr (State.lent_le_fresh h)

/-! ### Sequences -/

@[simp] theorem State.bytes_length (s : State) (base n : Nat) : (s.bytes base n).length = n := by simp [State.bytes]

@[simp] theorem State.bytes_zero (s : State) (base : Nat) : s.bytes base 0 = [] := rfl

/-- Two states that read alike on a range read the same sequence there. -/
theorem State.bytes_congr {base : Nat} (h : ∀ k, k < n → s.read (base + k) = t.read (base + k)) :
    s.bytes base n = t.bytes base n :=
  List.map_congr_left fun k hk => h k (List.mem_range.mp hk)

theorem State.bytes_cons (s : State) (base n : Nat) : s.bytes base (n + 1) = s.read base :: s.bytes (base + 1) n := by
  simp [State.bytes, List.range_succ_eq_map, Function.comp_def, Nat.add_assoc, Nat.add_comm 1]

theorem State.bytes_add (s : State) (base k l : Nat) : s.bytes base (k + l) = s.bytes base k ++ s.bytes (base + k) l := by
  induction k generalizing base with
  | zero => simp [State.bytes]
  | succ k ih =>
    rw [show k + 1 + l = (k + l) + 1 by omega, State.bytes_cons, State.bytes_cons, ih]
    simp [Nat.add_assoc, Nat.add_comm 1]

/-- Where no lent buffer lies, a sequence is read as memory holds it. -/
theorem State.bytes_unlent {base : Nat} (h : s.lentTo ⟨base, n⟩ = false) : s.bytes base n = s.mem.bytes base n := by
  refine List.map_congr_left fun k hk => State.read_unlent ?_
  have hk := List.mem_range.mp hk
  simp only [State.lentTo, List.any_eq_false, Bool.not_eq_true] at h ⊢
  exact fun e he => BufRef.overlaps_part (h e he) (by simp [oneByte]) (by simp [oneByte]; omega)

end Sys2Proof.Machine
end

