-- ==== Sys2Proof/Laws/Alike.lean ====
section
/-! SUPPORT. States that differ only in their instances: looking one up, updating one, and the tests before an effect, under
any relation of instances; and what the encoder's commands answer in two such states. -/

namespace Sys2Proof.Machine

/-- Two instance lists with the same ports, whose instances are related. -/
abbrev InstsRel (R : Inst → Inst → Prop) : List (Nat × Inst) → List (Nat × Inst) → Prop :=
  List.Forall₂ fun a b => a.1 = b.1 ∧ R a.2 b.2

variable {R : Inst → Inst → Prop} {l m : List (Nat × Inst)}

/-- A port is listed in both or in neither. -/
theorem InstsRel.get (h : InstsRel R l m) (p : Nat) : (Store.get l p = none ∧ Store.get m p = none) ∨
    ∃ i j, Store.get l p = some i ∧ Store.get m p = some j ∧ R i j := by
  induction h with
  | nil => left; simp
  | cons h1 h2 ih =>
    rename_i a b l m
    obtain ⟨a1, a2⟩ := a
    obtain ⟨b1, b2⟩ := b
    simp at h1
    obtain ⟨rfl, h1⟩ := h1
    by_cases hp : a1 = p
    · right; exact ⟨a2, b2, by simp [Store.get, hp], by simp [Store.get, hp], h1⟩
    · simpa [Store.get, hp] using ih

/-- A test that related instances answer alike finds one in both or in neither. -/
theorem InstsRel.any (h : InstsRel R l m) (f g : Nat × Inst → Bool) (hfg : ∀ p i j, R i j → f (p, i) = g (p, j)) :
    l.any f = m.any g := by
  induction h with
  | nil => rfl
  | cons h1 h2 ih =>
    rename_i a b l m
    obtain ⟨a1, a2⟩ := a
    obtain ⟨b1, b2⟩ := b
    simp at h1
    obtain ⟨rfl, h1⟩ := h1
    simp [ih, hfg _ _ _ h1]

/-- What related instances give alike is found alike. -/
theorem InstsRel.findSome {γ : Type} (h : InstsRel R l m) (f g : Nat × Inst → Option γ)
    (hfg : ∀ p i j, R i j → f (p, i) = g (p, j)) : l.findSome? f = m.findSome? g := by
  induction h with
  | nil => rfl
  | cons h1 h2 ih =>
    rename_i a b l m
    obtain ⟨a1, a2⟩ := a
    obtain ⟨b1, b2⟩ := b
    simp at h1
    obtain ⟨rfl, h1⟩ := h1
    simp only [List.findSome?_cons, ih, hfg _ _ _ h1]

/-- Instances with the same lent buffers lend the same bytes. -/
theorem InstsRel.lentTo {s t : State} (h : InstsRel R s.insts t.insts) (hl : ∀ i j, R i j → i.lent = j.lent) (r : BufRef) :
    s.lentTo r = t.lentTo r :=
  h.any _ _ fun _ i j hij => by show i.lent.overlaps r = j.lent.overlaps r; rw [hl i j hij]

/-- Where related instances hold the same bytes unknown and memory agrees, reads agree. -/
theorem InstsRel.read {s t : State} (h : InstsRel R s.insts t.insts) {a : Nat}
    (hu : ∀ i j, R i j → i.unknownLoan a = j.unknownLoan a) (hm : s.mem.read a = t.mem.read a) : s.read a = t.read a := by
  unfold State.read
  rw [h.findSome (fun e => e.2.unknownLoan a) (fun e => e.2.unknownLoan a) fun _ i j hij => hu i j hij]
  cases (t.insts.findSome? fun e => e.2.unknownLoan a) <;> simp [Memory.readUnder, hm]

theorem InstsRel.set (h : InstsRel R l m) (p : Nat) {i j : Inst} (hij : R i j) :
    InstsRel R (Store.set l p i) (Store.set m p j) := by
  induction h with
  | nil => exact .cons ⟨rfl, hij⟩ .nil
  | cons h1 h2 ih =>
    rename_i a b l m
    obtain ⟨a1, a2⟩ := a
    obtain ⟨b1, b2⟩ := b
    simp at h1
    obtain ⟨rfl, h1⟩ := h1
    simp only [Store.set]
    split
    · exact .cons ⟨rfl, hij⟩ (.cons ⟨rfl, h1⟩ h2)
    · split
      · exact .cons ⟨rfl, hij⟩ h2
      · exact .cons ⟨rfl, h1⟩ ih

theorem InstsRel.erase (h : InstsRel R l m) (p : Nat) : InstsRel R (Store.erase l p) (Store.erase m p) := by
  induction h with
  | nil => exact .nil
  | cons h1 h2 ih =>
    rename_i a b l m
    obtain ⟨a1, a2⟩ := a
    obtain ⟨b1, b2⟩ := b
    simp at h1
    obtain ⟨rfl, h1⟩ := h1
    simp only [Store.erase]
    split
    · exact ih
    · exact .cons ⟨rfl, h1⟩ ih

/-! ### Answers under a relation that every refusal keeps -/

variable {Rel : Answer → Answer → Prop} {s t : State}

theorem rel_if {b : Prop} [Decidable b] {x y x' y' : Answer} (h1 : Rel x x') (h2 : Rel y y') :
    Rel (if b then x else y) (if b then x' else y') := by
  split <;> assumption

theorem rel_accept {k k' : State → Answer} (hr : ∀ e, Rel (.refused e) (.refused e))
    (hb : s.busyElsewhere = t.busyElsewhere) (h : Rel (k s) (k' t)) : Rel (s.accept k) (t.accept k') := by
  unfold State.accept
  rw [hb]
  exact rel_if (hr _) h

theorem rel_acceptOutside {k k' : State → Answer} (hr : ∀ e, Rel (.refused e) (.refused e))
    (hb : s.busyElsewhere = t.busyElsewhere) (ho : s.inOwnHandler = t.inOwnHandler) (h : Rel (k s) (k' t)) :
    Rel (s.acceptOutside k) (t.acceptOutside k') := by
  unfold State.acceptOutside
  refine rel_accept hr hb ?_
  show Rel (if s.inOwnHandler then .refused .reentrant else k s) (if t.inOwnHandler then .refused .reentrant else k' t)
  rw [ho]
  exact rel_if (hr _) h

theorem rel_checked {b : Bool} {k k' : State → Answer} (hr : ∀ e, Rel (.refused e) (.refused e)) (h : Rel (k s) (k' t)) :
    Rel (s.checked b k) (t.checked b k') := by
  unfold State.checked
  exact rel_if h (hr _)

theorem rel_withInst {k k' : Inst → Answer} (hr : ∀ e, Rel (.refused e) (.refused e)) (hR : InstsRel R s.insts t.insts)
    (hp : s.cur.port = t.cur.port) (h : ∀ i j, R i j → Rel (k i) (k' j)) : Rel (s.withInst k) (t.withInst k') := by
  unfold State.withInst State.inst
  rw [hp]
  rcases hR.get t.cur.port with ⟨h1, h2⟩ | ⟨i, j, h1, h2, hij⟩
  · rw [h1, h2]; exact hr _
  · rw [h1, h2]; exact h i j hij

/-- CRC32, ESCSIZE, ENC_BUF and ENC_SINK answer alike in two states that differ only in memory and in instances of one
configuration, where their source reads alike: putting out an item, writing bytes where nothing is lent and emitting an event
keep the relation. -/
theorem rel_encoder (hcfg : ∀ i j, R i j → { i with regs := j.regs, rxWritten := j.rxWritten } = j)
    (hr : ∀ e, Rel (.refused e) (.refused e)) (hfl : ∀ e, Rel (.fault e) (.fault e))
    (he : { s with insts := t.insts, mem := t.mem } = t) (hR : InstsRel R s.insts t.insts)
    (hput : ∀ x, Rel (.next (s.put x)) (.next (t.put x)))
    (hwrite : ∀ base bs x, s.lentTo ⟨base, List.length bs⟩ = false →
      Rel (.next ((s.setMem (s.mem.writeBytes base bs)).put x)) (.next ((t.setMem (t.mem.writeBytes base bs)).put x)))
    (hwait : ∀ e f, Rel (.next (s.emitAndWait e f)) (.next (t.emitAndWait e f)))
    {op : Instr} {src dst : BufRef} {n cap : Nat} {len : BitVec 16} {flush : Bool}
    (hop : op = .crc32 src n ∨ op = .escsize src n ∨ op = .encBuf src len dst cap ∨ op = .encSink src len flush)
    (hsrc : op = .crc32 src n ∨ op = .escsize src n → s.srcBytes src n = t.srcBytes src n)
    (hlen : op = .encBuf src len dst cap ∨ op = .encSink src len flush →
      s.srcBytes src len.toNat = t.srcBytes src len.toNat) : Rel (exec op s) (exec op t) := by
  have hb : s.busyElsewhere = t.busyElsewhere := by rw [← he]; rfl
  have hp : s.cur.port = t.cur.port := by rw [← he]
  rcases hop with rfl | rfl | rfl | rfl
  · show Rel (execCrc32 src n s) (execCrc32 src n t)
    unfold execCrc32
    refine rel_accept hr hb (rel_checked hr ?_)
    rw [hsrc (.inl rfl)]; exact hput _
  · show Rel (execEscsize src n s) (execEscsize src n t)
    unfold execEscsize
    refine rel_accept hr hb (rel_checked hr ?_)
    rw [hsrc (.inr rfl)]; exact hput _
  · show Rel (execEncBuf src len dst cap s) (execEncBuf src len dst cap t)
    unfold execEncBuf
    refine rel_accept hr hb (rel_checked hr (rel_withInst hr hR hp ?_))
    intro i j hij
    have hl : ∀ r, s.lentTo r = t.lentTo r := fun r => hR.any _ _ (fun p i j hij => by
      show i.lent.overlaps r = j.lent.overlaps r; rw [← hcfg i j hij]; rfl)
    have hrx : ∀ r, s.receiveInUse r = t.receiveInUse r := fun r => hR.any _ _ (fun p i j hij => by
      show (s.feeding p && i.lent.overlaps r) = (t.feeding p && j.lent.overlaps r)
      rw [← hcfg i j hij, ← he]; rfl)
    have hz : encBufHazard s (src.first len.toNat) (dst.first cap) = encBufHazard t (src.first len.toNat) (dst.first cap) := by
      simp only [encBufHazard, hrx]; rw [← he]; rfl
    have ho : i.pOrder = j.pOrder := by rw [← hcfg i j hij]
    rw [hz, ho, hlen (.inl rfl)]
    refine rel_if (hr _) ?_
    unfold encBufInto
    refine rel_if (hput _) ?_
    unfold writeFrame
    rw [← hl]
    cases h : s.lentTo ⟨dst.base, (frameBytes j.pOrder (t.srcBytes src len.toNat)).length⟩ with
    | true => exact hr _
    | false =>
      rw [if_neg Bool.false_ne_true, if_neg Bool.false_ne_true]
      exact rel_if (hwrite _ _ _ h) (hfl _)
  · show Rel (execEncSink src len flush s) (execEncSink src len flush t)
    unfold execEncSink
    refine rel_accept hr hb (rel_checked hr (rel_withInst hr hR hp ?_))
    intro i j hij
    have hc : ∀ u, encSinkWith Config.pFlushCheck i src len flush u = encSinkWith Config.pFlushCheck j src len flush u := by
      intro u; rw [← hcfg i j hij]; rfl
    rw [hc]
    unfold encSinkWith
    rw [hlen (.inr rfl), hp]
    split
    · exact hput _
    · split
      · exact hput _
      · cases sinkEvents j (t.srcBytes src len.toNat) flush with
        | nil => exact hput _
        | cons e es => exact hwait _ _

end Sys2Proof.Machine
end

