-- ==== Sys2Proof/Laws/Fold.lean ====
section
/-! SUPPORT. The invariants of the parser under one byte, and P_FEED as the fold of P_BYTE. -/

namespace Sys2Proof.Machine

/-- A body byte keeps the parser's invariants. -/
theorem Inst.ParserInv.bodyStep {i : Inst} (h : i.ParserInv) (m : Memory) (d : Byte) (hs : i.regs.state = .RP) :
    (i.afterByte m ((i.regs.setEscape false).bodyStep i.pOrder d)).1.ParserInv := by
  have h1 := h.body_len hs
  have h2 := h.count_lt hs
  have h3 := h.len_max
  have h4 := h.written hs
  have h5 := h.written_le
  unfold Regs.bodyStep Inst.afterByte Inst.toAwaiting
  simp only [Regs.setEscape]
  by_cases hlt : i.regs.receivedCount < i.regs.expectedTotalLen - 4
  · have : ¬ (i.regs.receivedCount + 1 = i.regs.expectedTotalLen) := by omega
    simp only [hlt, if_true, this, decide_false]
    constructor <;> simp [Inst.noteStore, hs] <;> omega
  · simp only [hlt, if_false]
    by_cases hc : i.regs.receivedCount + 1 = i.regs.expectedTotalLen
    · simp only [hc, decide_true, if_true]
      constructor <;> simp [Inst.noteStore] <;> omega
    · simp only [hc, decide_false]
      constructor <;> simp [Inst.noteStore, hs] <;> omega

/-- P_BYTE keeps the parser's invariants (R19). -/
theorem Inst.ParserInv.pByte {i : Inst} (h : i.ParserInv) (m : Memory) (b : Byte) :
    (i.afterByte m (i.pByte b)).1.ParserInv := by
  have data : ∀ d, i.regs.state ≠ .AM →
      (i.afterByte m ((i.regs.setEscape false).dataStep i.pOrder i.rxCapacity d)).1.ParserInv := by
    intro d hs
    have hd := d.isLt
    have hw := h.written_le
    unfold Regs.dataStep
    cases hst : i.regs.state with
    | AM => exact absurd hst hs
    | RL1 =>
      simp only [Regs.setEscape, hst]
      have h3 := h.count_zero (.inl hst)
      cases ho : i.pOrder <;> constructor <;>
        simp [Inst.afterByte, Inst.noteStore, Regs.lengthFirst, ho, h3] <;> omega
    | RL2 =>
      simp only [Regs.setEscape, hst]
      have h3 := h.count_zero (.inr hst)
      have h4 := h.len_partial hst
      simp only [Inst.afterByte, Inst.noteStore, Regs.lengthSecond]
      have key : ∀ etl, etl ≤ 65539 → Inst.ParserInv { i with regs :=
          ⟨bodyState i.rxCapacity etl, false, etl, i.regs.receivedCount, i.regs.runningChecksum⟩ } := by
        intro etl he
        unfold bodyState
        split <;> constructor <;> simp [h3] <;> omega
      refine key _ ?_
      cases ho : i.pOrder <;> simp only [ho] at h4 <;> simp [Regs.bodyLen] <;> omega
    | RP =>
      have := h.bodyStep m d hst
      simp only [Regs.setEscape, hst] at this ⊢
      exact this
  unfold Inst.pByte
  split
  · have hw := h.written_le
    constructor <;> simp [Inst.afterByte, Inst.noteStore, Regs.markerStep, hw]
  · split
    · exact h
    · rename_i hs
      have esc : (i.afterByte m ⟨i.regs.setEscape true, none, false⟩).1.ParserInv := by
        obtain ⟨h1, h2, h3, h4, h5, h6, h7, h8, h9, h10⟩ := h
        constructor <;> simp only [Inst.afterByte, Inst.noteStore, Regs.setEscape] <;>
          first | assumption | exact fun h => absurd h hs
      unfold unstuff
      by_cases he : i.regs.escapePending = true
      · simp only [he, if_true]; exact data _ hs
      · by_cases hb : b = ESCAPE
        · simp only [he, hb, if_true]; exact esc
        · simp only [he, hb]; exact data _ hs

/-- What a byte leaves of the written count. -/
theorem Inst.afterByte_rxWritten (i : Inst) (m : Memory) (e : ByteEffect) :
    (i.afterByte m e).1.rxWritten = (i.noteStore e.store).rxWritten := by
  unfold Inst.afterByte Inst.toAwaiting
  cases e.store <;> dsimp only <;> split <;> rfl

/-- A byte makes known at most the index `received_count` in RP. -/
theorem Inst.ParserInv.written_step {i : Inst} {k : Nat} (h : i.ParserInv) (m : Memory) (b : Byte) (hk : i.rxWritten ≤ k) :
    (i.afterByte m (i.pByte b)).1.rxWritten ≤ k ∨ (i.regs.state = .RP ∧ k = i.regs.receivedCount) := by
  rw [Inst.afterByte_rxWritten]
  cases hst : (i.pByte b).store with
  | none => exact .inl hk
  | some kv =>
    obtain ⟨h1, h2, h3⟩ := Inst.pByte_store hst
    have h4 := h.written h1
    by_cases hc : k = i.regs.receivedCount
    · exact .inr ⟨h1, hc⟩
    · left; simp only [Inst.noteStore]; omega

/-! ### Memory under a byte and under a sequence of bytes -/

theorem Memory.bytes_cons (m : Memory) (a k : Nat) : m.bytes a (k + 1) = m.read a :: m.bytes (a + 1) k := by
  simp [Memory.bytes, List.range_succ_eq_map, Function.comp_def, Nat.add_assoc, Nat.add_comm 1]

theorem Memory.bytes_add (m : Memory) (a k l : Nat) : m.bytes a (k + l) = m.bytes a k ++ m.bytes (a + k) l := by
  induction k generalizing a with
  | zero => simp
  | succ k ih =>
    rw [show k + 1 + l = (k + l) + 1 by omega, Memory.bytes_cons, Memory.bytes_cons, ih]
    simp [Nat.add_assoc, Nat.add_comm 1]

/-- A byte leaves the source it came from: the source does not lie in the receive buffer. -/
theorem Inst.ParserInv.source_kept {i : Inst} {b : Byte} {m : Memory} {src : BufRef} {n a k : Nat} (h : i.ParserInv)
    (hd : (src.first n).overlaps i.lent = false) (ha : src.base ≤ a) (hk : a + k ≤ src.base + n) :
    (i.afterByte m (i.pByte b)).2.1.bytes a k = m.bytes a k := by
  apply Memory.bytes_congr
  intro j hj
  rw [Inst.afterByte_mem]
  apply Inst.rxStore_read
  intro l v hst hc
  obtain ⟨h1, rfl, h2⟩ := Inst.pByte_store hst
  have := h.body_len h1
  rw [BufRef.overlaps_false] at hd
  exact hd (a + j) (by simp [BufRef.first]; omega) (by simp [BufRef.first]; omega)
    (by simp [BufRef.first, Inst.lent]; omega) (by simp [BufRef.first, Inst.lent]; omega)

/-- The fold over a sequence in two parts. -/
theorem Inst.feedBytes_append (i : Inst) (m : Memory) (a b : List Byte) : i.feedBytes m (a ++ b) =
    let x := i.feedBytes m a
    let y := x.1.feedBytes x.2.1 b
    (y.1, y.2.1, x.2.2 ++ y.2.2) := by
  induction a generalizing i m with
  | nil => simp [Inst.feedBytes]
  | cons c a ih => simp [Inst.feedBytes, ih]

/-- The fold keeps the parser's invariants and the receive buffer's place. -/
theorem Inst.ParserInv.feedBytes {i : Inst} (h : i.ParserInv) (m : Memory) (a : List Byte) :
    (i.feedBytes m a).1.ParserInv ∧ (i.feedBytes m a).1.lent = i.lent := by
  induction a generalizing i m with
  | nil => exact ⟨h, rfl⟩
  | cons c a ih =>
    obtain ⟨h1, h2⟩ := ih (h.pByte m c) (i.afterByte m (i.pByte c)).2.1
    exact ⟨h1, by simp only [Inst.feedBytes]; rw [h2, Inst.afterByte_lent]⟩

/-- The fold leaves a source that does not lie in the receive buffer. -/
theorem Inst.ParserInv.feedBytes_source {i : Inst} (h : i.ParserInv) (m : Memory) (l : List Byte) {src : BufRef}
    {n a k : Nat} (hd : (src.first n).overlaps i.lent = false) (ha : src.base ≤ a) (hk : a + k ≤ src.base + n) :
    (i.feedBytes m l).2.1.bytes a k = m.bytes a k := by
  induction l generalizing i m with
  | nil => rfl
  | cons c l ih =>
    simp only [Inst.feedBytes]
    rw [ih (h.pByte m c) _ (by rw [Inst.afterByte_lent]; exact hd), h.source_kept hd ha hk]

/-! ### Stuffed bytes -/

/-- What one data byte does at the level of the fold. -/
def Inst.dataByte (i : Inst) (m : Memory) (d : Byte) : Inst × Memory × List Event :=
  let r := i.afterByte m ((i.regs.setEscape false).dataStep i.pOrder i.rxCapacity d)
  (r.1, r.2.1, r.2.2.toList)

/-- A stuffed byte, one wire byte or two, is one data byte. -/
theorem Inst.feedBytes_stuff (i : Inst) (m : Memory) (b : Byte) (hs : i.regs.state ≠ .AM)
    (he : i.regs.escapePending = false) : i.feedBytes m (stuff b) = i.dataByte m b := by
  unfold stuff
  split
  · rename_i hr
    have h1 : b ^^^ FLIP ≠ MARKER := by
      simp [Reserved] at hr
      rcases hr with rfl | rfl <;> decide
    have h2 := flip_flip b
    have e1 : i.pByte ESCAPE = ⟨i.regs.setEscape true, none, false⟩ := by
      simp [Inst.pByte, hs, he, unstuff, MARKER, ESCAPE]
    have e3 : i.afterByte m ⟨i.regs.setEscape true, none, false⟩ = ({ i with regs := i.regs.setEscape true }, m, none) := rfl
    simp only [Inst.feedBytes, e1, e3]
    have e2 : Inst.pByte { i with regs := i.regs.setEscape true } (b ^^^ FLIP) = (i.regs.setEscape false).dataStep i.pOrder i.rxCapacity b := by
      simp only [Inst.pByte, h1, if_false]
      simp [Regs.setEscape, hs, unstuff, h2]
    rw [e2]
    have : ∀ e, Inst.afterByte { i with regs := i.regs.setEscape true } m e = i.afterByte m e := fun e => rfl
    rw [this]
    simp [Inst.dataByte]
  · rename_i hr
    have hm : b ≠ MARKER := by rintro rfl; simp [Reserved] at hr
    have hx : b ≠ ESCAPE := by rintro rfl; simp [Reserved] at hr
    have e2 : i.pByte b = (i.regs.setEscape false).dataStep i.pOrder i.rxCapacity b := by
      simp [Inst.pByte, hm, hs, he, unstuff, hx]
    simp [Inst.feedBytes, e2, Inst.dataByte]

/-- The first byte of a stuffed sequence. -/
theorem Inst.feedBytes_stuffSeq_cons (i : Inst) (m : Memory) (b : Byte) (d : List Byte) (hs : i.regs.state ≠ .AM)
    (he : i.regs.escapePending = false) : i.feedBytes m (stuffSeq (b :: d)) =
      let x := i.dataByte m b
      let y := x.1.feedBytes x.2.1 (stuffSeq d)
      (y.1, y.2.1, x.2.2 ++ y.2.2) := by
  rw [stuffSeq_cons, Inst.feedBytes_append, Inst.feedBytes_stuff i m b hs he]

end Sys2Proof.Machine
end

