-- ==== Sys2Proof/Laws/Feed.lean ====
section
/-! SUPPORT. Runs of steps, and one step of a P_FEED in progress: what it leaves of the lists of instances and threads. -/

namespace Sys2Proof.Machine

variable {s u v : State} {t p n pos : Nat} {src r : BufRef} {i j : Inst} {f : Frame} {fs below : List Frame}

theorem runSteps_succ (k : Nat) (s : State) : runSteps (k + 1) s =
    match step s with
    | .next u => runSteps k u
    | .fault e => .fault e
    | .refused e => .refused e := by
  have h := Host.Core.run.eq_2 Sys2Proof.core s k
  have e : Sys2Proof.core.step s = step s := rfl
  unfold runSteps
  rw [h, e]
  cases step s <;> rfl

theorem runSteps_next {k : Nat} (h : step s = .next u) : runSteps (k + 1) s = runSteps k u := by
  rw [runSteps_succ, h]

theorem runSteps_add {k l : Nat} (h : runSteps k s = .next u) : runSteps (k + l) s = runSteps l u := by
  induction k generalizing s with
  | zero => cases h; simp
  | succ k ih =>
    rw [runSteps_succ] at h
    rw [show k + 1 + l = (k + l) + 1 by omega, runSteps_succ]
    cases hs : step s with
    | next w => rw [hs] at h; exact ih h
    | fault e => rw [hs] at h; cases h
    | refused e => rw [hs] at h; cases h

/-- `u` has no instance but at `p`, and no thread but `t`, that `s` has not, and no operation in progress that `s` has not but
with source `r`. -/
structure State.Within (s u : State) (t p : Nat) (r : BufRef) : Prop where
  insts : ∀ e ∈ u.insts, e.1 ≠ p → e ∈ s.insts
  threads : ∀ e ∈ u.threads, e.1 ≠ t → e ∈ s.threads
  frames : ∀ f ∈ u.frames, f ∈ s.frames ∨ f.uses = r

theorem State.Within.refl (s : State) (t p : Nat) (r : BufRef) : s.Within s t p r :=
  ⟨fun _ he _ => he, fun _ he _ => he, fun _ he => .inl he⟩

theorem State.Within.trans (h1 : s.Within u t p r) (h2 : u.Within v t p r) : s.Within v t p r := by
  refine ⟨fun e he hp => h1.insts e (h2.insts e he hp) hp, fun e he hp => h1.threads e (h2.threads e he hp) hp,
    fun f hf => ?_⟩
  rcases h2.frames f hf with h | h
  · exact h1.frames f h
  · exact .inr h

/-- A new stack for `t`, of operations it had or with source `r`, and a new instance at `p`. -/
theorem State.Within.setStack {x : State} (hx : x.threads = s.threads) (hc : x.cur.thread = t)
    (hu : u.threads = (x.setStack fs).threads) (hi : u.insts = s.insts ∨ ∃ j, u.insts = Store.set s.insts p j)
    (hf : ∀ f ∈ fs, f ∈ s.stackOf t ∨ f.uses = r) : s.Within u t p r := by
  have hm : ∀ e ∈ u.threads, e = (t, fs) ∨ e ∈ s.threads := by
    intro e he
    rw [hu] at he
    cases fs with
    | nil => rw [← hx]; exact .inr (Store.mem_erase he).1
    | cons f fs => rw [← hx, ← hc]; exact Store.mem_set he
  refine ⟨?_, ?_, ?_⟩
  · intro e he hp
    rcases hi with hi | ⟨j, hi⟩
    · rwa [hi] at he
    · rw [hi] at he
      rcases Store.mem_set he with rfl | h
      · exact absurd rfl hp
      · exact h
  · intro e he ht
    rcases hm e he with rfl | h
    · exact absurd rfl ht
    · exact h
  · intro f hff
    obtain ⟨e, he, hfe⟩ := List.mem_flatMap.mp hff
    rcases hm e he with rfl | h
    · rcases hf f hfe with h | h
      · exact .inl (State.mem_frames_of_stackOf h)
      · exact .inr h
    · exact .inl (List.mem_flatMap.mpr ⟨e, h, hfe⟩)

/-- Beginning or going on with an operation. -/
theorem State.Within.push {x : State} (h : s.Within x t p r) (hc : x.cur.thread = t) (hu : u.threads = (x.push f).threads)
    (hi : u.insts = x.insts) (hf : f.uses = r) : s.Within u t p r := by
  refine h.trans (State.Within.setStack (x := x) (fs := f :: x.stack) rfl hc hu (.inl hi) ?_)
  intro g hg
  rcases List.mem_cons.mp hg with rfl | hg
  · exact .inr hf
  · left; rw [State.stack, hc] at hg; exact hg

/-- What may be written freely stays so. -/
theorem State.Within.receiveFree (h : s.Within u t p r) (hf : s.ReceiveFree p i) (hr : r.overlaps i.lent = false)
    (hl : j.lent = i.lent) : u.ReceiveFree p j := by
  obtain ⟨h1, h2⟩ := hf
  simp only [State.ReceiveFree, State.lentToOther, State.sourceInUse, List.any_eq_false, hl] at h1 h2 ⊢
  refine ⟨fun e he => ?_, fun f hf => ?_⟩
  · by_cases hp : e.1 = p
    · simp [hp]
    · exact h1 e (h.insts e he hp)
  · rcases h.frames f hf with h | h
    · exact h2 f h
    · rw [h, hr]; simp

/-- Finishing a byte. -/
theorem State.finishByte_within {e : ByteEffect} (ht : s.cur.thread = t) (hs : s.stackOf t = f :: below)
    (h : s.finishByte below p src n pos i e = .next u) : s.Within u t p (src.first n) := by
  simp only [State.finishByte] at h
  split at h
  · cases h
  · obtain rfl := by simpa using h.symm
    generalize i.afterByte s.mem e = r
    obtain ⟨j, m, ev⟩ := r
    have h0 : s.Within ((((s.setStack below).setInst p j).setMem m).atPort p) t p (src.first n) :=
      State.Within.setStack (x := s) (fs := below) rfl ht rfl (.inr ⟨j, by simp⟩)
        fun f hf => .inl (by rw [hs]; simp [hf])
    cases ev with
    | none =>
      by_cases hp : pos + 1 < n
      · refine State.Within.push h0 (by simpa using ht) (f := ⟨p, .feed src n (pos + 1), false⟩) ?_ ?_ rfl
        · simp [State.afterEvent, hp, State.continueFeed_more]
        · simp [State.afterEvent]
      · have : (State.afterEvent ((((s.setStack below).setInst p j).setMem m).atPort p) none p src n (pos + 1)).threads =
            ((((s.setStack below).setInst p j).setMem m).atPort p).threads := by
          simp [State.afterEvent, hp, State.continueFeed_end]
        refine ⟨fun e he => h0.insts e (by simpa [State.afterEvent] using he), fun e he => h0.threads e (this ▸ he),
          fun f hf => h0.frames f ?_⟩
        rw [State.frames, this] at hf; exact hf
    | some ev =>
      exact State.Within.push h0 (by simpa using ht) (f := ⟨p, .feed src n (pos + 1), true⟩) rfl rfl rfl

/-- What finishing a byte leaves of the instances and of memory. -/
theorem State.finishByte_insts {e : ByteEffect} (h : s.finishByte below p src n pos i e = .next u) :
    u.insts = Store.set s.insts p (i.afterByte s.mem e).1 ∧ u.mem = (i.afterByte s.mem e).2.1 := by
  simp only [State.finishByte] at h
  split at h
  · cases h
  · obtain rfl := by simpa using h.symm
    cases h : (i.afterByte s.mem e).2.2 <;> simp [State.afterEvent]

/-- A byte changes no read of a buffer that does not overlap the receive buffer. -/
theorem State.finishByte_bytes {b : Byte} {a k : Nat} (h : s.finishByte below p src n pos i (i.pByte b) = .next u)
    (hi : s.inst p = some i) (hinv : i.ParserInv) (hd : r.overlaps i.lent = false) (ha : r.base ≤ a)
    (hk : a + k ≤ r.base + r.size) : u.bytes a k = s.bytes a k := by
  obtain ⟨h1, h2⟩ := State.finishByte_insts h
  refine State.bytes_congr fun l hl => ?_
  refine State.read_setInst hi (Inst.afterByte_lent _ _ _) h1 ?_ ?_
  · have := hinv.source_kept (b := b) (m := s.mem) (k := 1) (src := r) (n := r.size) hd (a := a + l) (by omega) (by omega)
    rw [h2]; simpa [Memory.bytes] using this
  · rw [BufRef.overlaps_false] at hd
    by_contra hc
    exact hd (a + l) (by omega) (by omega) (by omega) (by omega)

/-- A byte of an instance whose receive buffer may be written freely is refused by nothing. -/
theorem State.ReceiveFree.storeRefused {b : Byte} (hf : s.ReceiveFree p i) (hinv : i.ParserInv) :
    s.storeRefused p i (i.pByte b).store = none := by
  cases hst : (i.pByte b).store with
  | none => rfl
  | some kv =>
    obtain ⟨k, v⟩ := kv
    obtain ⟨h1, rfl, h2⟩ := Inst.pByte_store hst
    have h3 := hinv.body_len h1
    obtain ⟨h4, h5⟩ := hf
    rw [State.storeRefused_some]
    simp only [State.lentToOther, State.sourceInUse, List.any_eq_false, Bool.and_eq_true, not_and, bne_iff_ne,
      Bool.not_eq_true] at h4 h5 ⊢
    have hb : ∀ q : BufRef, q.overlaps i.lent = false →
        q.overlaps (oneByte (i.rxBuffer.base + i.regs.receivedCount)) = false :=
      fun q hq => BufRef.overlaps_part hq (by simp [Inst.lent, BufRef.first, oneByte])
        (by simp [Inst.lent, BufRef.first, oneByte]; omega)
    exact ⟨fun e he hp => hb _ (h4 e he hp), fun f hff => hb _ (h5 f hff)⟩

theorem State.running_congr (h : u.stackOf t = s.stackOf t) : u.running t = s.running t := by simp [State.running, h]

/-- The only thread whose P_FEED is at a byte is the first one. -/
theorem State.firstRunning_eq (h : s.running t = true) (ho : ∀ v, v ≠ t → s.running v = false) :
    s.firstRunning = some t := by
  obtain ⟨port, src, n, pos, below, hs⟩ := State.running_iff.mp h
  obtain ⟨e, he, ht, -⟩ := State.frame_of_stackOf (s := s) (t := t) (f := ⟨port, .feed src n pos, false⟩) (by rw [hs]; simp)
  unfold State.firstRunning
  cases hf : (s.threads.map (·.1)).find? fun t => s.running t with
  | none =>
    rw [List.find?_eq_none] at hf
    exact absurd h (by simpa using hf t (List.mem_map.mpr ⟨e, he, ht⟩))
  | some v =>
    have hv := List.find?_some hf
    by_cases hvt : v = t
    · rw [hvt]
    · rw [ho v hvt] at hv; cases hv

end Sys2Proof.Machine
end

