-- ==== Sys2Proof/Laws/PerInstr.lean ====
section
/-! SUPPORT. Statements for all instructions, one lemma for each constructor: the encoder writes each command with as many
operand slots as its opcode has (R40), and each wire byte class as a byte of that class (R39). -/

namespace Sys2Proof.Laws.SlotCount

/-- A command is encoded with the slots of its opcode. -/
def Statement (i : Instr) : Prop := ∀ c, encode i = .command c → slotCount c.opcode = some c.slots.length

theorem crc32 (src : BufRef) (n : Nat) : Statement (.crc32 src n) := by rintro c ⟨⟩; rfl
theorem escsize (src : BufRef) (n : Nat) : Statement (.escsize src n) := by rintro c ⟨⟩; rfl
theorem encBuf (src : BufRef) (len : BitVec 16) (dst : BufRef) (dstCap : Nat) :
    Statement (.encBuf src len dst dstCap) := by rintro c ⟨⟩; rfl
theorem encSink (src : BufRef) (len : BitVec 16) (flush : Bool) : Statement (.encSink src len flush) := by
  rintro c ⟨⟩; rfl
theorem pInit (order : ByteOrder) (rx : BufRef) (rxCap : Nat) (hasPacket hasByte hasFlush : Bool) (ctx : Ctx) :
    Statement (.pInit order rx rxCap hasPacket hasByte hasFlush ctx) := by rintro c ⟨⟩; rfl
theorem pFeed (src : BufRef) (n : Nat) : Statement (.pFeed src n) := by rintro c ⟨⟩; rfl
theorem marker : Statement .marker := by rintro c ⟨⟩
theorem noise (b : Byte) : Statement (.noise b) := by rintro c ⟨⟩
theorem escapedData (b : Byte) : Statement (.escapedData b) := by rintro c ⟨⟩
theorem escape : Statement .escape := by rintro c ⟨⟩
theorem data (b : Byte) : Statement (.data b) := by rintro c ⟨⟩

end Sys2Proof.Laws.SlotCount

namespace Sys2Proof.Laws.WireClass

/-- A well-formed wire byte class is encoded as a byte that R39 classifies as it. -/
def Statement (i : Instr) : Prop :=
  i.wf = true → ∀ st ep b, encode i = .wire st ep b → decodeWire st ep b = i

theorem crc32 (src : BufRef) (n : Nat) : Statement (.crc32 src n) := by rintro - st ep b ⟨⟩
theorem escsize (src : BufRef) (n : Nat) : Statement (.escsize src n) := by rintro - st ep b ⟨⟩
theorem encBuf (src : BufRef) (len : BitVec 16) (dst : BufRef) (dstCap : Nat) :
    Statement (.encBuf src len dst dstCap) := by rintro - st ep b ⟨⟩
theorem encSink (src : BufRef) (len : BitVec 16) (flush : Bool) : Statement (.encSink src len flush) := by
  rintro - st ep b ⟨⟩
theorem pInit (order : ByteOrder) (rx : BufRef) (rxCap : Nat) (hasPacket hasByte hasFlush : Bool) (ctx : Ctx) :
    Statement (.pInit order rx rxCap hasPacket hasByte hasFlush ctx) := by rintro - st ep b ⟨⟩
theorem pFeed (src : BufRef) (n : Nat) : Statement (.pFeed src n) := by rintro - st ep b ⟨⟩
theorem marker : Statement .marker := by rintro - st ep b ⟨⟩; rfl
theorem noise (b : Byte) : Statement (.noise b) := by
  rintro h st ep b ⟨⟩
  have hb : b ≠ MARKER := by simpa [Instr.wf] using h
  simp [decodeWire, hb]
theorem escapedData (b : Byte) : Statement (.escapedData b) := by
  rintro h st ep b ⟨⟩
  have hb : b ≠ MARKER := by simpa [Instr.wf] using h
  simp [decodeWire, hb]
theorem escape : Statement .escape := by rintro - st ep b ⟨⟩; rfl
theorem data (b : Byte) : Statement (.data b) := by
  rintro h st ep b ⟨⟩
  have hb := not_reserved (b := b) (by simpa [Instr.wf] using h)
  simp [decodeWire, hb.1, hb.2]

end Sys2Proof.Laws.WireClass
end

