-- ==== Sys2Proof/Machine/Asm.lean ====
section
/-! DEFINITION. The assembler syntax in which the spec writes operations (spec/30_encoding.md R43): lines, their text, and what
the host does to issue one. It has no semantics of its own (spec/92_eei_decisions.md D25). -/

namespace Sys2Proof.Machine

/-- A line of R43. The bytes stand for the source buffer: `src` = the listed bytes, `n` or `N` = their count. -/
inductive AsmLine where
  | crc32 (bytes : List Byte)
  | escsize (bytes : List Byte)
  | encBuf (bytes : List Byte) (cap : Nat)
  | encSink (bytes : List Byte) (flush : Bool)
  | pInit (order : ByteOrder) (rxCap : Nat) (hasPacket hasByte hasFlush : Bool) (ctx : Ctx)
  | pFeed (bytes : List Byte)
  deriving DecidableEq, Repr

/-- A hex digit, as R43 writes it: no `0x`. -/
def asmDigit (n : Nat) : String := String.singleton (if n < 10 then Char.ofNat (48 + n) else Char.ofNat (55 + n))

/-- A byte as two hex digits. -/
def asmByte (b : Byte) : String := asmDigit (b.toNat / 16) ++ asmDigit (b.toNat % 16)

/-- `[b0 b1 ...]`. -/
def asmBytes (bs : List Byte) : String := "[" ++ String.intercalate " " (bs.map asmByte) ++ "]"

/-- The letters P, B, F of the sinks that are present, or `-`. -/
def asmSinks (p b f : Bool) : String :=
  if p || b || f then (if p then "P" else "") ++ (if b then "B" else "") ++ (if f then "F" else "") else "-"

/-- The text of a line (R43). -/
def AsmLine.text : AsmLine → String
  | .crc32 bs => "CRC32 " ++ asmBytes bs
  | .escsize bs => "ESCSIZE " ++ asmBytes bs
  | .encBuf bs cap => "ENC_BUF " ++ asmBytes bs ++ ", cap=" ++ toString cap
  | .encSink bs flush => "ENC_SINK " ++ asmBytes bs ++ ", flush=" ++ toString (bitCode flush)
  | .pInit o cap p b f ctx =>
    "P_INIT order=" ++ (match o with | .LE => "LE" | .BE => "BE") ++ ", rx_cap=" ++ toString cap ++ ", sinks=" ++
      asmSinks p b f ++ ", ctx=" ++ toString ctx.handle
  | .pFeed bs => "P_FEED " ++ asmBytes bs

/-- The command of a line, its source bytes lying at `src` and its fresh buffer (`dst` of ENC_BUF, `rx` of P_INIT) at
`buf`. -/
def AsmLine.command (src buf : Nat) : AsmLine → Command
  | .crc32 bs => ⟨0x01, [src, bs.length, bs.length]⟩
  | .escsize bs => ⟨0x02, [src, bs.length, bs.length]⟩
  | .encBuf bs cap => ⟨0x10, [src, bs.length, bs.length, buf, cap, cap]⟩
  | .encSink bs flush => ⟨0x11, [src, bs.length, bs.length, bitCode flush]⟩
  | .pInit o cap p b f ctx => ⟨0x20, [o.code, buf, cap, cap, bitCode p, bitCode b, bitCode f, ctx.handle]⟩
  | .pFeed bs => ⟨0x21, [src, bs.length, bs.length]⟩

/-- The source bytes of a line. -/
def AsmLine.bytes : AsmLine → List Byte
  | .crc32 bs => bs
  | .escsize bs => bs
  | .encBuf bs _ => bs
  | .encSink bs _ => bs
  | .pInit _ _ _ _ _ _ => []
  | .pFeed bs => bs

/-- The host's writes of a byte sequence from an address on. -/
def hostWrites (t a : Nat) : List Byte → List HostInput
  | [] => []
  | b :: bs => .write t a b :: hostWrites t (a + 1) bs

/-- What a host thread does to issue a line at a port: write the source bytes, then issue the command. -/
def AsmLine.inputs (t p src buf : Nat) (l : AsmLine) : List HostInput :=
  hostWrites t src l.bytes ++ [.command t p (l.command src buf)]

end Sys2Proof.Machine
end

