-- ==== Sys2Proof/Tests/Slice0.lean ====
section
/-! SUPPORT. Tests: words written out from spec/30_encoding.md, the vectors of spec/95_test_vectors.md, one step of each
instruction, and for every obligation with hypotheses a state and operands that meet them. -/

namespace Sys2Proof.Tests

open Sys2Proof Sys2Proof.Machine

/-! ### Small states -/

/-- The answer is a next state with this property. -/
def nextWith (p : State → Bool) : Answer → Bool
  | .next s => p s
  | _ => false

/-- The answer is this refusal. -/
def refusedWith (r : Refusal) : Answer → Bool
  | .refused q => q == r
  | _ => false

/-- An instance with a 16-byte receive buffer at 1000, all sinks and ctx 0 (95_test_vectors.md section 2.8), whose parser has
written no byte since P_INIT. -/
def unit16 (o : ByteOrder) (r : Regs) : Inst := ⟨o, ⟨1000, 16⟩, 16, true, true, true, ⟨0⟩, r, 0, 0⟩

/-- Registers in the order of section 2.8's tuples. -/
def regs (st : ParserState) (ep : Bool) (etl count : Nat) (sum : Word) : Regs := ⟨st, ep, etl, count, sum⟩

/-- A state that serves thread 0 at port 0, with one instance there and source bytes at 100. -/
def quiet (i : Inst) (src : List Byte) : State :=
  { State.reset with insts := [(0, i)], mem := Memory.writeBytes [] 100 src }

/-- That state with operations in progress on thread 0. -/
def during (i : Inst) (src : List Byte) (f : Frame) (fs : List Frame) : State :=
  { quiet i src with threads := [(0, f :: fs)] }

/-- A P_FEED of 5 bytes on port 0 that is at byte 1. -/
def feedFrame : Frame := ⟨0, .feed ⟨100, 5⟩ 5 1, false⟩

/-- The state in which that P_FEED is at a byte. -/
def feeding (i : Inst) : State := during i [0, 0, 0, 0, 0] feedFrame []

/-- A state with inputs. -/
def withInput (s : State) (inp : List HostInput) : State := { s with input := inp }

/-- Nothing is in progress, so no thread has a P_FEED at a byte. -/
theorem quiet_running (i : Inst) (src : List Byte) (inp : List HostInput) (v : Nat) :
    (withInput (quiet i src) inp).running v = false := rfl

/-! ### WellFormed refuses ill-formed terms -/

theorem test_wf_short_source : Instr.wf (.crc32 ⟨100, 4⟩ 5) = false ∧ Instr.wf (.escsize ⟨100, 0⟩ 1) = false ∧
    Instr.wf (.pFeed ⟨100, 4⟩ 5) = false ∧ Instr.wf (.encSink ⟨100, 4⟩ 5 true) = false ∧
    Instr.wf (.encBuf ⟨100, 4⟩ 5 ⟨200, 16⟩ 16) = false := by decide

theorem test_wf_short_destination : Instr.wf (.encBuf ⟨100, 5⟩ 5 ⟨200, 16⟩ 17) = false ∧
    Instr.wf (.pInit .LE ⟨200, 15⟩ 16 true true true ⟨0⟩) = false := by decide

theorem test_wf_byte_classes : Instr.wf (.noise 0x7E) = false ∧ Instr.wf (.escapedData 0x7E) = false ∧
    Instr.wf (.data 0x7E) = false ∧ Instr.wf (.data 0x7D) = false := by decide

theorem test_wf_accepts : Instr.wf (.crc32 ⟨100, 5⟩ 5) = true ∧ Instr.wf (.escsize ⟨100, 0⟩ 0) = true ∧
    Instr.wf (.encBuf ⟨100, 5⟩ 5 ⟨200, 16⟩ 16) = true ∧ Instr.wf (.encSink ⟨100, 5⟩ 5 false) = true ∧
    Instr.wf (.pInit .LE ⟨200, 16⟩ 16 true true true ⟨0⟩) = true ∧ Instr.wf (.pFeed ⟨100, 5⟩ 5) = true ∧
    Instr.wf .marker = true ∧ Instr.wf (.noise 0x7D) = true ∧ Instr.wf (.escapedData 0x7D) = true ∧
    Instr.wf .escape = true ∧ Instr.wf (.data 0x5E) = true := by decide

/-! ### Words written out from R40 and R39 -/

/-- What the decoder makes of a word. -/
def decoded (e : Encoded) : Option Instr := (decode e).toOption

theorem test_decode_crc32 : decoded (.command ⟨0b00000001, [100, 5, 5]⟩) = some (.crc32 ⟨100, 5⟩ 5) := by decide

theorem test_decode_escsize : decoded (.command ⟨0b00000010, [7, 9, 3]⟩) = some (.escsize ⟨7, 9⟩ 3) := by decide

theorem test_decode_encBuf : decoded (.command ⟨0b00010000, [100, 65535, 65535, 7, 9, 8]⟩) =
    some (.encBuf ⟨100, 65535⟩ 0xFFFF ⟨7, 9⟩ 8) := by decide

theorem test_decode_encSink : decoded (.command ⟨0b00010001, [100, 3, 2, 1]⟩) = some (.encSink ⟨100, 3⟩ 2 true) := by decide

theorem test_decode_pInit : decoded (.command ⟨0b00100000, [1, 50, 9, 8, 1, 0, 0, 7]⟩) =
    some (.pInit .BE ⟨50, 9⟩ 8 true false false ⟨7⟩) ∧
    decoded (.command ⟨0b00100000, [0, 50, 9, 8, 0, 1, 1, 7]⟩) = some (.pInit .LE ⟨50, 9⟩ 8 false true true ⟨7⟩) := by decide

theorem test_decode_pFeed : decoded (.command ⟨0b00100001, [100, 12, 11]⟩) = some (.pFeed ⟨100, 12⟩ 11) := by decide

theorem test_decode_marker : decoded (.wire .AM false 0x7E) = some .marker ∧ decoded (.wire .RP true 0x7E) = some .marker := by
  decide

theorem test_decode_noise : decoded (.wire .AM false 0x7D) = some (.noise 0x7D) ∧
    decoded (.wire .AM true 0x00) = some (.noise 0x00) := by decide

theorem test_decode_escapedData : decoded (.wire .RL1 true 0x7D) = some (.escapedData 0x7D) ∧
    decoded (.wire .RP true 0x5E) = some (.escapedData 0x5E) := by decide

theorem test_decode_escape : decoded (.wire .RL2 false 0x7D) = some .escape := by decide

theorem test_decode_data : decoded (.wire .RL1 false 0x5E) = some (.data 0x5E) ∧
    decoded (.wire .RP false 0x01) = some (.data 0x01) := by decide

/-- Section 2.9: opcode 0x03 is undefined; `N` = 65536 does not fit its slot. -/
theorem test_decode_rejects : decoded (.command ⟨0x03, [100, 5, 5]⟩) = none ∧
    decoded (.command ⟨0x10, [100, 70000, 65536, 7, 9, 8]⟩) = none ∧ decoded (.command ⟨0x11, [100, 3, 2, 2]⟩) = none ∧
    decoded (.command ⟨0x01, [100, 5, 6]⟩) = none ∧ decoded (.command ⟨0x01, [100, 5]⟩) = none := by decide

/-- Every opcode-table word is placed where the next step runs it, right after reset. -/
theorem test_placed_words_run : ∀ w ∈ [0x01, 0x02, 0x10, 0x11, 0x20, 0x21, 0x7E, 0x04, 0x08, 0x7D, 0x41],
    (decodeTableWord 8 w).isSome = true ∧ nextWith (fun _ => true) (step (State.reset.withFetchWord 8 w)) = true := by
  decide +kernel

/-- R43's text of lines of 95_test_vectors.md section 3, but for the padding after the mnemonic. -/
theorem test_asm_text :
    AsmLine.text (.pInit .BE 8 true true false ⟨1⟩) = "P_INIT order=BE, rx_cap=8, sinks=PB, ctx=1" ∧
    AsmLine.text (.encBuf [0x41, 0x42] 16) = "ENC_BUF [41 42], cap=16" ∧
    AsmLine.text (.encSink [0x7E, 0x7D] false) = "ENC_SINK [7E 7D], flush=0" ∧
    AsmLine.text (.pFeed [0x00, 0xFF]) = "P_FEED [00 FF]" := by
  decide +kernel

/-! ### Vectors of 95_test_vectors.md for the pure functions -/

/-- Section 2.1. -/
theorem test_crc_vectors : ∀ v ∈ ([([], 0x00000000), ([0x00], 0xD202EF8D), ([0x01], 0xA505DF1B), ([0xFF], 0xFF000000),
    ([0x41], 0xD3D99E8B), ([0x7E], 0x65BFB3B6), ([0x7D], 0xFCB6E20C), ([0x2B], 0x7EBE16CD), ([0xA9], 0x7D08F4C1),
    ([0x5E], 0x5ED1937E), ([0xEB], 0xE5DAD47D), ([0x7E, 0x7D], 0xDED14B06), ([0x48, 0x49], 0x76792EC6),
    ([0x01, 0x02, 0x03, 0x04, 0x05], 0x470B99F4),
    ([0x31, 0x32, 0x33, 0x34, 0x35, 0x36, 0x37, 0x38, 0x39], 0xCBF43926)] : List (List Byte × Word)), crc32 v.1 = v.2 := by
  decide +kernel

/-- Sections 2.2 and 2.3. -/
theorem test_stuff_vectors : stuff 0x7E = [0x7D, 0x5E] ∧ stuff 0x7D = [0x7D, 0x5D] ∧ stuff 0x5E = [0x5E] ∧
    stuff 0x5D = [0x5D] ∧ stuff 0x7F = [0x7F] ∧ stuff 0x00 = [0x00] ∧ stuff 0xFF = [0xFF] ∧ escSize [] = 0 ∧
    escSize [0x7E, 0x7D, 0x01] = 5 ∧ escSize [0x5E, 0x5D, 0x7F] = 3 ∧ escSize [0x7E, 0x7E, 0x7E, 0x7E] = 8 := by decide

/-- Section 2.4. -/
theorem test_unstuff_vectors : unstuff false 0x41 = (false, some 0x41) ∧ unstuff false 0x7D = (true, none) ∧
    unstuff true 0x5E = (false, some 0x7E) ∧ unstuff true 0x5D = (false, some 0x7D) ∧
    unstuff true 0x7D = (false, some 0x5D) ∧ unstuff true 0x41 = (false, some 0x61) ∧
    unstuff false 0x5E = (false, some 0x5E) := by decide

/-- Section 2.5. -/
theorem test_frame_vectors :
    frameBytes .LE [] = [0x7E, 0x00, 0x00, 0x00, 0x00, 0x00, 0x00] ∧
    frameBytes .BE [0x01] = [0x7E, 0x00, 0x01, 0x01, 0xA5, 0x05, 0xDF, 0x1B] ∧
    frameBytes .LE [0x01, 0x02, 0x03, 0x04, 0x05] =
      [0x7E, 0x05, 0x00, 0x01, 0x02, 0x03, 0x04, 0x05, 0xF4, 0x99, 0x0B, 0x47] ∧
    frameBytes .BE [0x7E, 0x7D] = [0x7E, 0x00, 0x02, 0x7D, 0x5E, 0x7D, 0x5D, 0xDE, 0xD1, 0x4B, 0x06] ∧
    frameBytes .LE [0x2B] = [0x7E, 0x01, 0x00, 0x2B, 0xCD, 0x16, 0xBE, 0x7D, 0x5E] ∧
    frameBytes .BE [0xA9] = [0x7E, 0x00, 0x01, 0xA9, 0x7D, 0x5D, 0x08, 0xF4, 0xC1] ∧
    frameSize .LE [0x2B] = 9 ∧ frameSize .BE [0x7E, 0x7D] = 11 := by
  decide +kernel

/-- Section 2.5, last row: the length 0x007E has its low byte escaped, and so has the payload byte 7D. -/
theorem test_escaped_length : stuffSeq (lenBytes .LE 126) = [0x7D, 0x5E, 0x00] ∧
    stuffSeq (lenBytes .BE 126) = [0x00, 0x7D, 0x5E] ∧ escSize ((List.range 126).map (BitVec.ofNat 8)) = 127 := by
  decide +kernel

/-- Section 2.8: each row of the register trace of `P_FEED F5` under LE with a 16-byte buffer, from the row before. -/
theorem test_parser_trace_le : ∀ v ∈ [(regs .AM false 0 0 0, (0x7E : Byte), regs .RL1 false 0 0 0),
    (regs .RL1 false 0 0 0, 0x05, regs .RL2 false 5 0 0), (regs .RL2 false 5 0 0, 0x00, regs .RP false 9 0 0),
    (regs .RP false 9 0 0, 0x01, regs .RP false 9 1 0), (regs .RP false 9 4 0, 0x05, regs .RP false 9 5 0),
    (regs .RP false 9 5 0, 0xF4, regs .RP false 9 6 0xF4000000),
    (regs .RP false 9 6 0xF4000000, 0x99, regs .RP false 9 7 0x99F40000),
    (regs .RP false 9 7 0x99F40000, 0x0B, regs .RP false 9 8 0x0B99F400)],
    ((unit16 .LE v.1).pByte v.2.1).regs = v.2.2 := by decide

/-- Section 2.8: rows of the trace under BE. -/
theorem test_parser_trace_be : ∀ v ∈ [(regs .RL1 false 0 0 0, (0x00 : Byte), regs .RL2 false 0 0 0),
    (regs .RL2 false 0 0 0, 0x02, regs .RP false 6 0 0), (regs .RP false 6 0 0, 0x7D, regs .RP true 6 0 0),
    (regs .RP true 6 0 0, 0x5E, regs .RP false 6 1 0), (regs .RP true 6 1 0, 0x5D, regs .RP false 6 2 0),
    (regs .RP false 6 2 0, 0xDE, regs .RP false 6 3 0x000000DE),
    (regs .RP false 6 4 0x0000DED1, 0x4B, regs .RP false 6 5 0x00DED14B)],
    ((unit16 .BE v.1).pByte v.2.1).regs = v.2.2 := by decide

/-- Section 2.8, P-3, P-4, P-5, P-11 and P-17: the length check at its corners. -/
theorem test_length_corners :
    ((regs .RL2 false 5 0 0).lengthSecond .LE 8 0x00) = regs .AM false 9 0 0 ∧
    ((regs .RL2 false 5 0 0).lengthSecond .LE 9 0x00) = regs .RP false 9 0 0 ∧
    ((regs .RL2 false 0 0 0).lengthSecond .LE 16 0x00) = regs .AM false 4 0 0 ∧
    ((regs .RL2 false 255 0 0).lengthSecond .LE 16 0xFF) = regs .AM false 65539 0 0 ∧
    ((regs .RL2 false 1280 0 0).lengthSecond .BE 16 0x00) = regs .AM false 1284 0 0 := by decide

/-! ### One step of each instruction -/

theorem test_crc32_step : nextWith (fun t => t.out = outputs 0 0 0 [.result .OK (some (.crc 0x470B99F4))])
    (exec (.crc32 ⟨100, 5⟩ 5) (quiet (unit16 .LE .initial) [0x01, 0x02, 0x03, 0x04, 0x05])) = true := by decide +kernel

/-- Section 2.9: with no instance. -/
theorem test_crc32_no_instance : nextWith (fun t => t.out = outputs 0 3 0 [.result .OK (some (.crc 0xA505DF1B))])
    (step { State.reset with mem := [(100, 0x01)], input := [.command 0 3 ⟨0x01, [100, 1, 1]⟩] }) = true := by decide +kernel

theorem test_escsize_step : nextWith (fun t => t.out = outputs 0 0 0 [.result .OK (some (.count 5))])
    (exec (.escsize ⟨100, 3⟩ 3) (quiet (unit16 .LE .initial) [0x7E, 0x7D, 0x01])) = true := by decide

/-- Section 2.6: the frame is written, and the byte after it is as before. -/
theorem test_encBuf_step : nextWith
    (fun t => t.out = outputs 0 0 0 [.result .OK (some (.count 11))] ∧
      t.mem.bytes 102 12 = [0x7E, 0x02, 0x00, 0x7D, 0x5E, 0x7D, 0x5D, 0x06, 0x4B, 0xD1, 0xDE, 0xAA])
    (exec (.encBuf ⟨100, 2⟩ 2 ⟨102, 12⟩ 12) (quiet (unit16 .LE .initial)
      [0x7E, 0x7D, 0, 0, 0, 0, 0, 0, 0, 0, 0, 0, 0, 0xAA])) = true := by
  decide +kernel

/-- Section 2.6: a destination one byte too short; section 2.9: one that overlaps the source. -/
theorem test_encBuf_errors :
    nextWith (fun t => t.out = outputs 0 0 0 [.result .BUFFER_TOO_SMALL (some (.count 0))] ∧ t.mem = [(100, 0x2B)])
      (exec (.encBuf ⟨100, 1⟩ 1 ⟨200, 8⟩ 8) (quiet (unit16 .LE .initial) [0x2B])) = true ∧
    refusedWith .bufferHazard (exec (.encBuf ⟨100, 2⟩ 2 ⟨101, 16⟩ 16) (quiet (unit16 .LE .initial) [1, 2])) = true := by
  decide +kernel

/-- Section 2.7: the first event, and the status that the operation will end with, under both readings of P_FLUSH_CHECK. -/
theorem test_encSink_step :
    ((encSinkWith .AT_FLUSH (unit16 .LE .initial) ⟨100, 1⟩ 1 true (quiet (unit16 .LE .initial) [0x7E])).out =
      outputs 0 0 0 [.event (.onByte 0x7E ⟨0⟩)]) ∧
    (sinkEvents (unit16 .LE .initial) [0x7E] true = ([0x7E, 0x01, 0x00, 0x7D, 0x5E, 0xB6, 0xB3, 0xBF, 0x65].map
      fun b => Event.onByte b ⟨0⟩) ++ [.onFlush ⟨0⟩]) ∧
    (sinkStatus { unit16 .LE .initial with hasFlushSink := false } true = .CALLBACK_MISSING) := by
  decide +kernel

/-- Section 2.7: sinks B only with flush = 1, and F only. -/
theorem test_encSink_missing :
    (encSinkWith .UPFRONT { unit16 .LE .initial with hasFlushSink := false } ⟨100, 1⟩ 1 true
      (quiet (unit16 .LE .initial) [0x7E])).out = outputs 0 0 0 [.result .CALLBACK_MISSING none] ∧
    (encSinkWith .AT_FLUSH { unit16 .LE .initial with hasFlushSink := false } ⟨100, 1⟩ 1 true
      (quiet (unit16 .LE .initial) [0x7E])).out = outputs 0 0 0 [.event (.onByte 0x7E ⟨0⟩)] ∧
    (encSinkWith .AT_FLUSH { unit16 .LE .initial with hasByteSink := false } ⟨100, 1⟩ 1 false
      (quiet (unit16 .LE .initial) [0x7E])).out = outputs 0 0 0 [.result .CALLBACK_MISSING none] := by
  decide +kernel

/-- R59 (section 3, program 2, line 1), over a parser in the middle of a frame. -/
theorem test_pInit_step : nextWith
    (fun t => t.inst 0 = some ⟨.BE, ⟨500, 8⟩, 8, true, true, false, ⟨1⟩, regs .AM false 0 0 0, 0, 0⟩ ∧
      t.loans = 1 ∧ t.out = outputs 0 0 0 [.result .OK none])
    (exec (.pInit .BE ⟨500, 8⟩ 8 true true false ⟨1⟩) (quiet (unit16 .LE (regs .RP true 9 3 7)) [])) = true := by decide

/-- R68, and section 2.8, P-19. -/
theorem test_pFeed_step :
    nextWith (fun t => t.stack = [⟨0, .feed ⟨100, 2⟩ 2 0, false⟩] ∧ t.out = [])
      (exec (.pFeed ⟨100, 2⟩ 2) (quiet (unit16 .LE .initial) [0x7E, 0x05])) = true ∧
    nextWith (fun t => t.stack = [] ∧ t.inst 0 = some (unit16 .LE .initial) ∧ t.out = outputs 0 0 0 [.result .OK none])
      (exec (.pFeed ⟨100, 0⟩ 0) (quiet (unit16 .LE .initial) [])) = true := by decide

/-- Section 2.9: not initialised, and from inside an event of the same instance. -/
theorem test_pFeed_refused :
    refusedWith .notInitialised (exec (.pFeed ⟨100, 0⟩ 0) State.reset) = true ∧
    refusedWith .reentrant (exec (.pFeed ⟨100, 0⟩ 0)
      (during (unit16 .LE .initial) [] ⟨0, .feed ⟨100, 1⟩ 1 1, true⟩ [])) = true := by decide

/-- The registers of port 0 after a step. -/
def regsAre (r : Regs) (t : State) : Bool := (t.inst 0).map (·.regs) = some r

/-- P-10: a marker clears a pending escape. -/
theorem test_marker_step : nextWith (regsAre (regs .RL1 false 0 0 0))
    (exec .marker (feeding (unit16 .LE (regs .RP true 9 1 0)))) = true := by decide

/-- P-1: 0x7D in AM is noise, and the P_FEED goes on at the next byte. -/
theorem test_noise_step : nextWith
    (fun t => regsAre (regs .AM false 9 9 5) t ∧ t.stack = [⟨0, .feed ⟨100, 5⟩ 5 2, false⟩])
    (exec (.noise 0x7D) (feeding (unit16 .LE (regs .AM false 9 9 5)))) = true := by decide

/-- P-8: the pair `7D 41` yields 0x61. -/
theorem test_escapedData_step : nextWith (fun t => regsAre (regs .RP false 5 1 0) t ∧ t.mem.read 1000 = 0x61)
    (exec (.escapedData 0x41) (feeding (unit16 .LE (regs .RP true 5 0 0)))) = true := by decide +kernel

theorem test_escape_step : nextWith (regsAre (regs .RP true 6 1 0))
    (exec .escape (feeding (unit16 .BE (regs .RP false 6 1 0)))) = true := by decide

/-- In the middle of a body of 9 bytes (5 of them payload), `k` of them received. -/
def bodyUnit (o : ByteOrder) (k : Nat) : Inst := { unit16 o (regs .RP false 9 k 0) with rxWritten := min k 5 }

/-- The same with all payload bytes and three checksum bytes received, before the last row of section 2.8's trace. -/
def lastUnit : Inst := { unit16 .LE (regs .RP false 9 8 0x0B99F400) with rxWritten := 5 }

/-- The last row of the LE trace of section 2.8: on_packet. -/
theorem test_data_delivers : nextWith
    (fun t => regsAre (regs .AM false 9 9 0x470B99F4) t ∧
      t.out = outputs 0 0 0 [.event (.onPacket [0x01, 0x02, 0x03, 0x04, 0x05] 5 ⟨0⟩)] ∧
      t.stack = [⟨0, .feed ⟨100, 5⟩ 5 2, true⟩])
    (exec (.data 0x47) { feeding lastUnit with
      mem := Memory.writeBytes [] 1000 [0x01, 0x02, 0x03, 0x04, 0x05] }) = true := by decide +kernel

/-- W5: a payload byte changed, no event. -/
theorem test_data_drops : nextWith (fun t => regsAre (regs .AM false 9 9 0x470B99F4) t ∧ t.out = [])
    (exec (.data 0x47) { feeding lastUnit with
      mem := Memory.writeBytes [] 1000 [0x00, 0x02, 0x03, 0x04, 0x05] }) = true := by decide +kernel

/-- Section 2.9: a host write of rx[0] between two P_FEED calls. -/
theorem test_lent_write_refused : refusedWith .lentBufferWritten
    (step (withInput (quiet (unit16 .LE .initial) []) [.write 0 1000 0x55])) = true := by decide

/-- The line `P_FEED [7E]` as a thread issues it: one write, then the command; the first step is the write. -/
theorem test_asm_inputs : AsmLine.inputs 0 0 100 0 (.pFeed [0x7E]) = [.write 0 100 0x7E, .command 0 0 ⟨0x21, [100, 1, 1]⟩] ∧
    nextWith (fun t => t.mem = [(100, 0x7E)])
      (step (withInput State.reset (AsmLine.inputs 0 0 100 0 (.pFeed [0x7E])))) = true := by decide

/-! ### Canonical memory -/

theorem test_reset_memory_wf : Memory.wf State.reset.mem = true := rfl

theorem test_memory_wf_refuses : Memory.wf [(2, 0), (1, 0)] = false ∧ Memory.wf [(1, 0), (1, 0)] = false := by decide

theorem test_memory_write_keeps_order : Memory.write [(1, 7), (3, 9)] 2 8 = [(1, 7), (2, 8), (3, 9)] ∧
    Memory.write [(1, 7), (3, 9)] 3 8 = [(1, 7), (3, 8)] := by decide

/-! ### Witnesses: what the obligations' hypotheses ask for exists

Each theorem `witness_<Name>` shows values that meet the hypotheses of `Obligations.<Name>` together, each clause by its own
values, at the ends of its range where it has one. -/

/-- A next state with a property is a next state. -/
theorem nextWith_next {p : State → Bool} {a : Answer} (h : nextWith p a = true) : ∃ t, a = .next t ∧ p t = true := by
  cases a with
  | next s => exact ⟨s, rfl, h⟩
  | fault _ => exact absurd h (by simp [nextWith])
  | refused _ => exact absurd h (by simp [nextWith])

/-- With one instance, the invariant of the instances is that of this one. -/
theorem one_parserInv {s : State} {i : Inst} (h : s.insts = [(0, i)]) (hi : i.ParserInv) : s.ParserInv := by
  intro p j hj
  unfold State.inst at hj
  rw [h] at hj
  simp only [Store.get] at hj
  split at hj
  · cases hj; exact hi
  · exact absurd hj (by simp)

theorem bodyUnit_parserInv (o : ByteOrder) {k : Nat} (hk : k < 9) : (bodyUnit o k).ParserInv := by
  constructor <;> simp [bodyUnit, unit16, regs, hk]

theorem initial_parserInv (o : ByteOrder) : (unit16 o .initial).ParserInv := by
  constructor <;> simp [unit16, Regs.initial]

/-- The state with an instance just initialised and five source bytes. -/
def ready : State := quiet (unit16 .LE .initial) [0x7E, 0x7D, 0x03, 0x04, 0x05]

/-- A second instance, whose receive buffer begins with that of the first. -/
def shared : State := { feeding (bodyUnit .LE 0) with insts := [(0, bodyUnit .LE 0), (1, unit16 .LE .initial)] }

theorem witness_WireBytesFollowTheClassTable : (0x7D : Byte) ≠ 0x7E ∧ (0x5E : Byte) ≠ 0x7E ∧ (0x5E : Byte) ≠ 0x7D ∧
    ParserState.RL1 ≠ .AM ∧ ParserState.RL2 ≠ .AM ∧ ParserState.RP ≠ .AM := by decide

theorem witness_DecodeOfEncodeIsTheInstruction : Instr.wf (.encBuf ⟨0, 65535⟩ 65535 ⟨70000, 131081⟩ 131081) = true := by decide

theorem witness_IllegalCommandsAreRefused_opcode : ∃ s : State,
    s.input = [.command 0 0 ⟨0x03, []⟩] ∧ s.running 0 = false ∧ (0x03 : Byte) ∉ [0x01, 0x02, 0x10, 0x11, 0x20, 0x21] :=
  ⟨withInput ready [.command 0 0 ⟨0x03, []⟩], rfl, rfl, by decide⟩

theorem witness_IllegalCommandsAreRefused_operand : ∃ s : State,
    s.input = [.command 0 0 ⟨0x10, [100, 65536, 65536, 200, 9, 9]⟩] ∧ s.running 0 = false ∧
    ((0x21 : Byte) ∈ [0x01, 0x02, 0x21] ∧ 4 < 5) ∧ 65535 < 65536 ∧ 1 < 2 :=
  ⟨withInput ready [.command 0 0 ⟨0x10, [100, 65536, 65536, 200, 9, 9]⟩], rfl, rfl, by decide⟩

theorem witness_StepRunsTheDecodedCommand : ∃ s : State, s.input = [.command 0 0 ⟨0x01, [100, 5, 5]⟩] ∧ s.running 0 = false ∧
    decode (.command ⟨0x01, [100, 5, 5]⟩) = .ok (.crc32 ⟨100, 5⟩ 5) :=
  ⟨withInput ready [.command 0 0 ⟨0x01, [100, 5, 5]⟩], rfl, rfl, rfl⟩

theorem witness_StepRunsTheByteOfAFeed : (feeding (bodyUnit .LE 0)).stackOf 0 = [feedFrame] ∧
    (feeding (bodyUnit .LE 0)).inst 0 = some (bodyUnit .LE 0) ∧
    (withInput (feeding (bodyUnit .LE 0)) [.slot 0]).input = .slot 0 :: [] ∧
    (∃ x xs, (withInput (feeding (bodyUnit .LE 0)) [.handlerReturn 0]).input = x :: xs ∧ x.thread = 0 ∧ ∀ u, x ≠ .slot u) ∧
    (feeding (bodyUnit .LE 0)).input = [] ∧ (feeding (bodyUnit .LE 0)).firstRunning = some 0 :=
  ⟨rfl, rfl, rfl, ⟨.handlerReturn 0, [], rfl, rfl, by simp⟩, rfl, rfl⟩

theorem witness_IdleBlockKeepsItsState : ready.input = [] ∧ ∀ t, ready.running t = false := ⟨rfl, fun _ => rfl⟩

theorem witness_HandlerReturnGoesOn : ∀ work ∈ [Work.feed ⟨100, 5⟩ 5 4, .feed ⟨100, 5⟩ 5 5, .sink ⟨100, 5⟩ 5 [] .OK,
    .sink ⟨100, 5⟩ 5 [.onByte 1 ⟨0⟩] .OK], ∃ s : State, s.input = [.handlerReturn 0] ∧ s.stackOf 0 = [⟨0, work, true⟩] :=
  fun work _ => ⟨withInput (during (unit16 .LE .initial) [] ⟨0, work, true⟩ []) [.handlerReturn 0], rfl, rfl⟩

theorem witness_PlacedWordRunsNext : decodeTableWord 8 0x10 = some (.encBuf ⟨0, 0⟩ 0 ⟨0, 0⟩ 0) ∧
    decodeTableWord 8 0x7E = some .marker ∧ decodeTableWord 8 0x04 = some (.noise 4) ∧
    decodeTableWord 8 0x08 = some (.escapedData 8) ∧ decodeTableWord 8 0x7D = some .escape ∧
    decodeTableWord 8 0x41 = some (.data 0x41) := by decide

theorem witness_Crc32Operation : ready.busyElsewhere = false ∧ 5 ≤ (⟨100, 5⟩ : BufRef).size ∧
    (⟨100, 5⟩ : BufRef).size < 6 ∧ 0 < [(0x01 : Byte)].length ∧ 7 < 8 ∧
    decode (.command ⟨0x01, [100, 5, 5]⟩) = .ok (.crc32 ⟨100, 5⟩ 5) := ⟨by decide, by decide, by decide, by decide, by decide, rfl⟩

theorem witness_StuffEscapesTheReservedBytes : (0x7F : Byte) ≠ 0x7E ∧ (0x7F : Byte) ≠ 0x7D ∧ stuff 0x7D = [0x7D, 0x5D] := by
  decide

theorem witness_EscsizeOperation : ready.busyElsewhere = false ∧ 5 ≤ (⟨100, 5⟩ : BufRef).size ∧
    (⟨100, 5⟩ : BufRef).size < 6 ∧ (∀ b ∈ [(0x7E : Byte), 0x7D], b = 0x7E ∨ b = 0x7D) ∧
    (∀ b ∈ [(0x5E : Byte), 0x7F], b ≠ 0x7E ∧ b ≠ 0x7D) ∧
    decode (.command ⟨0x02, [100, 5, 5]⟩) = .ok (.escsize ⟨100, 5⟩ 5) :=
  ⟨by decide, by decide, by decide, by decide, by decide, rfl⟩

theorem witness_UnstuffInvertsStuff : (0x7E : Byte) ≠ 0x7D := by decide

theorem witness_MarkerValueArrivesOnlyEscaped : (0x5E : Byte) ≠ 0x7E ∧ (unstuff true 0x5E).2 = some 0x7E := by decide

theorem witness_FrameSizeIsTheLength : (List.replicate 65535 (0x7E : Byte)).length ≤ 65535 :=
  List.length_replicate.le

/-- A destination one byte too short; one of exactly the frame's size; one that begins with a lent buffer. -/
theorem witness_EncBufOperation : ready.busyElsewhere = false ∧ ready.inst 0 = some (unit16 .LE .initial) ∧
    frameSize .LE (ready.srcBytes ⟨100, 2⟩ 2) = 11 ∧ 2 ≤ (⟨100, 5⟩ : BufRef).size ∧
    encBufHazard ready (⟨100, 2⟩ : BufRef) ⟨200, 10⟩ = false ∧ encBufHazard ready (⟨100, 2⟩ : BufRef) ⟨200, 11⟩ = false ∧
    ready.lentTo ⟨200, 11⟩ = false ∧ encBufHazard ready (⟨100, 2⟩ : BufRef) ⟨1015, 11⟩ = false ∧
    ready.lentTo ⟨1015, 11⟩ = true := by decide +kernel

/-- An ENC_SINK waits for its last handler, which the step returns from. -/
theorem witness_NoStepFaults : (∃ t, exec (.pFeed ⟨100, 0⟩ 0) ready = .next t) ∧ ∃ s t : State, step s = .next t ∧
    (⟨0, .sink ⟨100, 1⟩ 1 [] .CALLBACK_MISSING, true⟩ : Frame) ∈ s.stackOf 0 ∧
    ∀ u f src n todo final, f ∈ s.stackOf u → f.work = .sink src n todo final → final = .OK ∨ final = .CALLBACK_MISSING := by
  refine ⟨⟨_, rfl⟩, withInput (during (unit16 .LE .initial) [] ⟨0, .sink ⟨100, 1⟩ 1 [] .CALLBACK_MISSING, true⟩ [])
    [.handlerReturn 0], _, rfl, List.mem_cons_self, ?_⟩
  intro u f src n todo final hf hw
  by_cases hu : 0 = u
  · subst hu
    obtain rfl := List.mem_singleton.mp hf
    cases hw
    exact .inr rfl
  · exact absurd hf (by simp [State.stackOf, withInput, during, Store.get, hu])

/-- The four clauses differ in the sinks of the instance and the flush operand only. -/
theorem witness_EncSinkBegins : ∀ hb hf : Bool, ∃ i : Inst, i.hasByteSink = hb ∧ i.hasFlushSink = hf ∧
    (quiet i [1]).busyElsewhere = false ∧ (quiet i [1]).inst 0 = some i ∧ (1#16).toNat ≤ (⟨100, 1⟩ : BufRef).size :=
  fun hb hf => ⟨{ unit16 .LE .initial with hasByteSink := hb, hasFlushSink := hf }, rfl, rfl, rfl, rfl, by decide⟩

/-- A command at a quiet state that nothing is in progress in. -/
theorem quiet_issues (i : Inst) (src : List Byte) (c : Command) (rest : List HostInput) :
    (withInput (quiet i src) (.command 0 0 c :: rest)).Issues 0 0 c rest := ⟨rfl, rfl, rfl⟩

theorem witness_EncSinkRunEmitsTheFrame : ∃ s : State, s.inst 0 = some (unit16 .LE .initial) ∧
    (0#16).toNat ≤ (⟨100, 0⟩ : BufRef).size ∧ 1 ≤ 1 ∧
    s.Issues 0 0 ⟨0x11, [100, 0, 0, 1]⟩ (returns 0 ((frameBytes .LE (s.srcBytes ⟨100, 0⟩ 0)).length + 2 - 1)) :=
  ⟨withInput (quiet (unit16 .LE .initial) []) (.command 0 0 ⟨0x11, [100, 0, 0, 1]⟩ :: returns 0 8), rfl, by decide, by decide,
    quiet_issues _ _ _ _⟩

theorem witness_EncBufAndEncSinkAgree : ∃ s t1 : State, s.inst 0 = some (unit16 .LE .initial) ∧
    (unit16 .LE .initial).hasByteSink = true ∧ (unit16 .LE .initial).hasFlushSink = true ∧
    s.Issues 0 0 ⟨0x11, [100, 0, 0, 1]⟩ (returns 0 (frameSize .LE (s.srcBytes ⟨100, 0⟩ 0) + 1)) ∧
    exec (.encBuf ⟨100, 0⟩ 0 ⟨200, 7⟩ 7) { s with cur := ⟨0, 0⟩ } = .next t1 ∧ frameSize .LE (s.srcBytes ⟨100, 0⟩ 0) ≤ 7 := by
  obtain ⟨t1, h, -⟩ := nextWith_next (p := fun _ => true) (a := exec (.encBuf ⟨100, 0⟩ 0 ⟨200, 7⟩ 7)
    (withInput (quiet (unit16 .LE .initial) []) (.command 0 0 ⟨0x11, [100, 0, 0, 1]⟩ :: returns 0 8))) (by decide +kernel)
  exact ⟨withInput (quiet (unit16 .LE .initial) []) (.command 0 0 ⟨0x11, [100, 0, 0, 1]⟩ :: returns 0 8), t1, rfl, rfl, rfl,
    quiet_issues _ _ _ _, h, by decide +kernel⟩

theorem witness_PInitOperation : ready.busyElsewhere = false ∧ ready.inOwnHandler = false ∧ 16 ≤ (⟨500, 16⟩ : BufRef).size ∧
    (⟨500, 16⟩ : BufRef).size < 17 ∧ 4 < 5 ∧
    decode (.command ⟨0x20, [0, 500, 16, 16, 1, 1, 1, 0]⟩) = .ok (.pInit .LE ⟨500, 16⟩ 16 true true true ⟨0⟩) :=
  ⟨by decide, by decide, by decide, by decide, by decide, rfl⟩

/-- Over a buffer whose first byte the host wrote; the first and the last byte a parser has not written; the address before a
lent buffer, the last byte a parser has written and the first after the buffer. -/
theorem witness_LentBytesHoldNoKnownValue : ready.busyElsewhere = false ∧ ready.inOwnHandler = false ∧
    16 ≤ (⟨100, 16⟩ : BufRef).size ∧ ready.mem.read 100 = 0x7E ∧
    (∀ k ∈ [4, 15], (bodyUnit .LE 4).rxWritten ≤ k ∧ k < (bodyUnit .LE 4).rxCapacity ∧
      (feeding (bodyUnit .LE 4)).inst 0 = some (bodyUnit .LE 4) ∧
      (feeding (bodyUnit .LE 4)).lentToOther 0 (oneByte (1000 + k)) = false) ∧
    (∀ a ∈ [999, 1004, 1016], ∀ e ∈ (feeding (bodyUnit .LE 5)).insts,
      a < e.2.rxBuffer.base + e.2.rxWritten ∨ e.2.rxBuffer.base + e.2.rxCapacity ≤ a) ∧
    (bodyUnit .LE 5).ParserInv ∧ (bodyUnit .LE 5).regs.state = .RP ∧
    4 < min (bodyUnit .LE 5).regs.receivedCount ((bodyUnit .LE 5).regs.expectedTotalLen - 4) :=
  ⟨by decide, by decide, by decide, by decide, by decide, by decide, bodyUnit_parserInv _ (by decide), rfl, by decide⟩

theorem witness_PFeedBegins : ready.busyElsewhere = false ∧ ready.inOwnHandler = false ∧
    ready.inst 0 = some (unit16 .LE .initial) ∧ 1 ≤ (⟨999, 1⟩ : BufRef).size ∧
    (⟨999, 1⟩ : BufRef).overlaps (unit16 .LE .initial).lent = false ∧
    (⟨999, 0⟩ : BufRef).overlaps (unit16 .LE .initial).lent = false := by decide

/-- The P_FEED of `feeding` is at a byte. Also the witness of MarkerStartsAFrame, NoiseIsDiscarded, EscapeOnlySetsTheFlag and
ByteClassesAreThePByteStages, which ask for no more. -/
theorem witness_AtByte (i : Inst) : (feeding i).AtByte 0 ⟨100, 5⟩ 5 1 [] i := ⟨rfl, rfl⟩

theorem witness_NoiseIsDiscarded : (0x7D : Byte) ≠ 0x7E := by decide

theorem witness_LengthStep : ∀ st ∈ [ParserState.RL1, .RL2], ∃ i : Inst, i.regs.state = st ∧
    (feeding i).AtByte 0 ⟨100, 5⟩ 5 1 [] i := fun st _ => ⟨unit16 .LE (regs st false 0 0 0), rfl, rfl, rfl⟩

/-- The last payload byte; one that may be stored, one that lies in another instance's buffer, one in a source in use. -/
theorem witness_PayloadByteIsStored : (bodyUnit .LE 4).regs.state = .RP ∧ (bodyUnit .LE 4).ParserInv ∧
    (bodyUnit .LE 4).regs.receivedCount < (bodyUnit .LE 4).regs.expectedTotalLen - 4 ∧
    (feeding (bodyUnit .LE 4)).lentToOther 0 (oneByte 1004) = false ∧
    (feeding (bodyUnit .LE 4)).sourceInUse (oneByte 1004) = false ∧
    shared.AtByte 0 ⟨100, 5⟩ 5 1 [] (bodyUnit .LE 0) ∧ shared.lentToOther 0 (oneByte 1000) = true ∧
    ∃ s : State, s.AtByte 0 ⟨100, 5⟩ 5 1 [] (bodyUnit .LE 0) ∧ s.lentToOther 0 (oneByte 1000) = false ∧
      s.sourceInUse (oneByte 1000) = true :=
  ⟨rfl, bodyUnit_parserInv _ (by decide), by decide, by decide, by decide, ⟨rfl, rfl⟩, by decide,
    { feeding (bodyUnit .LE 0) with
      threads := [(0, [feedFrame]), (1, [⟨2, .sink ⟨1000, 1⟩ 1 [] .OK, true⟩])] }, ⟨rfl, rfl⟩, by decide, by decide⟩

theorem witness_ChecksumByteIsShifted : ∀ k ∈ [5, 7], (bodyUnit .BE k).regs.state = .RP ∧
    (bodyUnit .BE k).regs.expectedTotalLen - 4 ≤ (bodyUnit .BE k).regs.receivedCount ∧
    (bodyUnit .BE k).regs.receivedCount + 1 ≠ (bodyUnit .BE k).regs.expectedTotalLen := by decide

theorem witness_FrameEndDeliversValidFrames : (bodyUnit .LE 8).regs.state = .RP ∧ (bodyUnit .LE 8).ParserInv ∧
    (bodyUnit .LE 8).regs.receivedCount + 1 = (bodyUnit .LE 8).regs.expectedTotalLen :=
  ⟨rfl, bodyUnit_parserInv _ (by decide), rfl⟩

theorem witness_WireByteNeedsAFeed : ready.running ready.cur.thread = false ∧
    ∃ s : State, s.stack = [feedFrame] ∧ s.inst 0 = none := ⟨rfl, { feeding (bodyUnit .LE 0) with insts := [] }, rfl, rfl⟩

/-- The bytes of the empty frame, at 100. -/
def emptyFrame : List Byte := [0x7E, 0x00, 0x00, 0x00, 0x00, 0x00, 0x00]

/-- A frame of one payload byte, 0x01 (section 2.5). -/
def oneFrame : List Byte := [0x7E, 0x01, 0x00, 0x01, 0x1B, 0xDF, 0x05, 0xA5]

/-- The state in which a thread issues a P_FEED of that frame and will take one event. -/
def feedOne : State :=
  withInput (quiet (unit16 .LE .initial) oneFrame) (.command 0 0 ⟨0x21, [100, 8, 8]⟩ :: returns 0 1)

theorem feedOne_free : feedOne.ReceiveFree 0 (unit16 .LE .initial) ∧
    (⟨100, 8⟩ : BufRef).overlaps (unit16 .LE .initial).lent = false := by
  unfold State.ReceiveFree; decide

theorem witness_PFeedRunIsTheFoldOfPByte : feedOne.inst 0 = some (unit16 .LE .initial) ∧
    (unit16 .LE .initial).ParserInv ∧ feedOne.ReceiveFree 0 (unit16 .LE .initial) ∧
    (⟨100, 8⟩ : BufRef).overlaps (unit16 .LE .initial).lent = false ∧ (∀ v, feedOne.running v = false) ∧
    ((unit16 .LE .initial).feedBytes feedOne.mem (feedOne.srcBytes ⟨100, 8⟩ 8)).2.2.length = 1 ∧
    feedOne.Issues 0 0 ⟨0x21, [100, 8, 8]⟩ (returns 0 1) ∧ (feedOne.serving [] 0 0).inOwnHandler = false :=
  ⟨rfl, initial_parserInv _, feedOne_free.1, feedOne_free.2, fun _ => rfl, by decide +kernel, quiet_issues _ _ _ _, rfl⟩

theorem witness_SplitDeliveryDoesNotMatter : feedOne.inst 0 = some (unit16 .LE .initial) ∧
    (unit16 .LE .initial).ParserInv ∧ feedOne.ReceiveFree 0 (unit16 .LE .initial) ∧ 3 + 5 ≤ (⟨100, 8⟩ : BufRef).size ∧
    (⟨100, 3 + 5⟩ : BufRef).overlaps (unit16 .LE .initial).lent = false ∧ (∀ v, feedOne.running v = false) ∧
    (feedOne.serving [] 0 0).busyElsewhere = false ∧ (feedOne.serving [] 0 0).inOwnHandler = false :=
  ⟨rfl, initial_parserInv _, feedOne_free.1, by decide, feedOne_free.2, fun _ => rfl, rfl, rfl⟩

theorem witness_EncodedFrameIsDeliveredOnce : feedOne.inst 0 = some (unit16 .LE .initial) ∧
    (unit16 .LE .initial).ParserInv ∧ feedOne.ReceiveFree 0 (unit16 .LE .initial) ∧
    (⟨100, 8⟩ : BufRef).overlaps (unit16 .LE .initial).lent = false ∧ (∀ v, feedOne.running v = false) ∧
    feedOne.srcBytes ⟨100, 8⟩ 8 = frameBytes .LE [0x01] ∧ [(0x01 : Byte)].length + 4 ≤ (unit16 .LE .initial).rxCapacity ∧
    (unit16 .LE .initial).hasPacketSink = true ∧ feedOne.Issues 0 0 ⟨0x21, [100, 8, 8]⟩ (returns 0 1) ∧
    (feedOne.serving [] 0 0).inOwnHandler = false :=
  ⟨rfl, initial_parserInv _, feedOne_free.1, feedOne_free.2, fun _ => rfl, by decide +kernel, by decide, rfl,
    quiet_issues _ _ _ _, rfl⟩

theorem witness_UninitialisedInstanceRefuses : ready.busyElsewhere = false ∧ State.reset.inst State.reset.cur.port = none ∧
    State.reset.busyElsewhere = false ∧ State.reset.inOwnHandler = false ∧ 5 ≤ (⟨100, 5⟩ : BufRef).size ∧
    (5#16).toNat ≤ (⟨100, 5⟩ : BufRef).size ∧ 7 ≤ (⟨200, 7⟩ : BufRef).size := by decide

/-- A handler of an event of port 0: another operation there, and one on port 1. -/
def inHandler (port : Nat) : State :=
  { during (unit16 .LE .initial) [] ⟨0, .feed ⟨100, 5⟩ 5 1, true⟩ [] with
    insts := [(0, unit16 .LE .initial), (1, ⟨.LE, ⟨2000, 16⟩, 16, true, true, true, ⟨0⟩, .initial, 0, 1⟩)], cur := ⟨0, port⟩ }

theorem witness_NestingInHandlers :
    (∃ f ∈ (inHandler 0).stack, f.port = (inHandler 0).cur.port) ∧ (inHandler 0).busyElsewhere = false ∧
    (∃ i, (inHandler 0).inst (inHandler 0).cur.port = some i) ∧
    encBufHazard (inHandler 0) ⟨300, 1⟩ ⟨400, 8⟩ = false ∧ (inHandler 0).lentTo ⟨400, 8⟩ = false ∧
    (inHandler 1).busyElsewhere = false ∧ (∃ i, (inHandler 1).inst (inHandler 1).cur.port = some i ∧
      (⟨300, 1⟩ : BufRef).overlaps i.lent = false) ∧ ∀ f ∈ (inHandler 1).stack, f.port ≠ (inHandler 1).cur.port :=
  ⟨⟨_, List.mem_cons_self, rfl⟩, by decide, ⟨_, rfl⟩, by decide, by decide, by decide, ⟨_, rfl, by decide⟩, by decide⟩

theorem witness_ConcurrentUseIsRefused : ∃ s : State, (1 : Nat) ≠ s.cur.thread ∧
    (⟨0, .feed ⟨100, 5⟩ 5 1, true⟩ : Frame) ∈ s.stackOf 1 ∧ s.cur.port = 0 :=
  ⟨{ ready with threads := [(1, [⟨0, .feed ⟨100, 5⟩ 5 1, true⟩])] }, by decide, List.mem_cons_self, rfl⟩

/-- The last byte lent, and the first one after it. -/
theorem witness_HostWritesSpareLentBuffers : ∃ s : State, s.input = [.write 0 1016 0x55] ∧ s.running 0 = false ∧
    (∃ p i, s.inst p = some i ∧ i.rxBuffer.base ≤ 1015 ∧ 1015 < i.rxBuffer.base + i.rxCapacity) ∧
    (∀ e ∈ s.insts, 1016 < e.2.rxBuffer.base ∨ e.2.rxBuffer.base + e.2.rxCapacity ≤ 1016) ∧
    ∀ f ∈ s.frames, 1016 < f.uses.base ∨ f.uses.base + f.uses.size ≤ 1016 :=
  ⟨withInput ready [.write 0 1016 0x55], rfl, rfl, ⟨0, _, rfl, by decide, by decide⟩, by decide, by decide⟩

theorem witness_EndOfAnInstance : (∃ s : State, s.input = [.endInstance 0 0] ∧ s.running 0 = false ∧
      (∀ u f, f ∈ s.stackOf u → f.port ≠ 0) ∧ (s.serving [] 0 0).busyElsewhere = false) ∧
    ∃ s : State, s.input = [.endInstance 0 0] ∧ s.running 0 = false ∧
      ∃ f, f ∈ s.stackOf 0 ∧ f.port = 0 :=
  ⟨⟨withInput ready [.endInstance 0 0], rfl, rfl, fun _ _ h =>
      absurd h (by simp [State.stackOf, withInput, ready, quiet, State.reset]), rfl⟩,
    ⟨withInput (inHandler 0) [.endInstance 0 0], rfl, rfl, _, List.mem_cons_self, rfl⟩⟩

/-- Among them an ENC_BUF into the source of the operation in progress, at its first byte and at its last. -/
theorem witness_BufferHazardsAreRefused :
    (∃ s : State, s.input = [.write 0 104 0] ∧ s.running 0 = false ∧
      ∃ f ∈ s.stackOf 0, f.uses.base ≤ 104 ∧ 104 < f.uses.base + f.uses.size) ∧
    (ready.busyElsewhere = false ∧ ready.inst 0 = some (unit16 .LE .initial) ∧ ready.inOwnHandler = false) ∧
    ((101 ≤ 101 ∧ 101 < 101 + 8) ∧ 100 ≤ 101 ∧ 101 < 100 + (2#16).toNat) ∧
    (∃ s : State, s.busyElsewhere = false ∧ s.inst s.cur.port = some (unit16 .LE .initial) ∧
      ∃ f ∈ s.stackOf 0, f.isFeed = true ∧ s.inst f.port = some (unit16 .LE .initial)) ∧
    ((unit16 .LE .initial).rxBuffer.base ≤ 1015 ∧ 1015 < (unit16 .LE .initial).rxBuffer.base + 16) ∧
    ((inHandler 0).busyElsewhere = false ∧ (inHandler 0).inst (inHandler 0).cur.port = some (unit16 .LE .initial) ∧
      ∀ a ∈ [100, 104], ∃ f ∈ (inHandler 0).stackOf 0, f.uses.base ≤ a ∧ a < f.uses.base + f.uses.size) ∧
    (94 ≤ 100 ∧ 100 < 94 + 7) ∧ (104 ≤ 104 ∧ 104 < 104 + 7) :=
  ⟨⟨withInput (inHandler 0) [.write 0 104 0], rfl, rfl, _, List.mem_cons_self, by decide, by decide⟩, by decide, by decide,
    ⟨inHandler 0, by decide, rfl, _, List.mem_cons_self, rfl, rfl⟩, by decide,
    ⟨by decide, rfl, fun a ha => ⟨_, List.mem_cons_self, by revert a; decide⟩⟩, by decide, by decide⟩

theorem witness_EncoderSideIgnoresTheParser :
    (∃ t, exec (.encBuf ⟨100, 0⟩ 0 ⟨200, 6⟩ 6) ready = .next t) ∧
    ready.SameButRegs { ready with insts := [(0, unit16 .LE (regs .RP true 9 3 7))] } ∧
    ready.SameButReceive { ready with
      insts := [(0, { unit16 .LE (regs .RP true 9 3 7) with rxWritten := 3 })], mem := ready.mem.write 1015 0x55 } ∧
    ready.lentTo ⟨984, 16⟩ = false ∧ ready.lentTo ⟨1016, 5⟩ = false := by
  obtain ⟨t, h, -⟩ := nextWith_next (p := fun _ => true) (a := exec (.encBuf ⟨100, 0⟩ 0 ⟨200, 6⟩ 6) ready) (by decide +kernel)
  refine ⟨⟨t, h⟩, ⟨rfl, .cons ⟨rfl, rfl⟩ .nil⟩, ⟨rfl, .cons ⟨rfl, rfl⟩ .nil, fun a ha => ?_⟩, by decide, by decide⟩
  show ready.mem.read a = (ready.mem.write 1015 0x55).read a
  refine (Memory.read_write_other _ _ ?_).symm
  rintro rfl
  exact absurd ha (by decide)

theorem witness_OnlyTheEncoderReportsErrors : (∃ t, exec (.pFeed ⟨100, 0⟩ 0) ready = .next t) ∧
    (∀ src len dst cap, Instr.pFeed ⟨100, 0⟩ 0 ≠ .encBuf src len dst cap) ∧
    ∀ src len flush, Instr.pFeed ⟨100, 0⟩ 0 ≠ .encSink src len flush := ⟨⟨_, rfl⟩, by simp, by simp⟩

theorem witness_ErrorsArePrecise : ∃ t, exec (.encBuf ⟨100, 0⟩ 0 ⟨200, 6⟩ 6) ready = .next t ∧
    t.out = ready.out ++ [⟨0, 0, 0, .result .BUFFER_TOO_SMALL (some (.count 0))⟩] ∧ Status.BUFFER_TOO_SMALL ≠ .OK := by
  obtain ⟨t, h, ht⟩ := nextWith_next
    (p := fun t => t.out = ready.out ++ [⟨0, 0, 0, .result .BUFFER_TOO_SMALL (some (.count 0))⟩])
    (a := exec (.encBuf ⟨100, 0⟩ 0 ⟨200, 6⟩ 6) ready) (by decide +kernel)
  exact ⟨t, h, of_decide_eq_true ht, by decide⟩

/-- A step of port 0's P_FEED, and the instance at port 1. -/
theorem witness_InstancesAreIsolated : ∃ s t : State, ∃ i : Inst, step s = .next t ∧ s.inst 1 = some i ∧
    (∀ th w, s.nextMove.1 ≠ .run th 1 w) ∧ (∀ th, s.nextMove.1 ≠ .endInstance th 1) ∧ i.rxBuffer.base ≤ 2015 ∧
    2015 < i.rxBuffer.base + i.rxCapacity :=
  ⟨withInput (inHandler 0) [.handlerReturn 0], _, _, rfl, rfl, by simp [State.nextMove, withInput, State.running, inHandler,
    during, State.stackOf, Store.get, HostInput.thread, HostInput.move], by simp [State.nextMove, withInput, State.running,
    inHandler, during, State.stackOf, Store.get, HostInput.thread, HostInput.move], by decide, by decide⟩

/-- A P_FEED about to store 0x05 over 0x00 in byte 4 of the receive buffer, the last byte of the payload. -/
def storing : State :=
  { feeding (bodyUnit .LE 4) with mem := [(100, 0), (101, 5), (1004, 0)], input := [.slot 0] }

theorem witness_LentBytesChangeOnlyByTheirParser : ∃ t, step storing = .next t ∧ storing.ParserInv ∧
    storing.inst 0 = some (bodyUnit .LE 4) ∧ t.mem.read 1004 ≠ storing.mem.read 1004 := by
  obtain ⟨t, h, ht⟩ := nextWith_next (p := fun t => t.mem.read 1004 = 5) (a := step storing) (by decide +kernel)
  have h0 : storing.mem.read 1004 = 0 := by decide
  exact ⟨t, h, one_parserInv rfl (bodyUnit_parserInv _ (by decide)), rfl, by rw [of_decide_eq_true ht, h0]; decide⟩

theorem witness_StepsKeepTheCanonicalForm : storing.Canonical ∧ ∃ t, step storing = .next t := by
  obtain ⟨t, h, -⟩ := nextWith_next (p := fun _ => true) (a := step storing) (by decide +kernel)
  exact ⟨⟨by decide, by decide, by decide⟩, t, h⟩

theorem witness_StepsKeepTheParserInvariants : storing.ParserInv ∧ ∃ t, step storing = .next t :=
  ⟨one_parserInv rfl (bodyUnit_parserInv _ (by decide)), witness_StepsKeepTheCanonicalForm.2⟩

/-- The step that stores byte 4: that one becomes known, and byte 5 is still one the parser has not written. -/
theorem witness_LentBytesHoldNoKnownValue_step : ∃ t j, step storing = .next t ∧ storing.ParserInv ∧
    storing.inst 0 = some (bodyUnit .LE 4) ∧ t.inst 0 = some j ∧ (bodyUnit .LE 4).rxWritten = 4 ∧ j.rxWritten = 5 := by
  obtain ⟨t, h, ht⟩ := nextWith_next (p := fun t => (t.inst 0).map (·.rxWritten) = some 5) (a := step storing)
    (by decide +kernel)
  obtain ⟨j, hj, h5⟩ := Option.map_eq_some_iff.mp (of_decide_eq_true ht)
  exact ⟨t, j, h, one_parserInv rfl (bodyUnit_parserInv _ (by decide)), rfl, hj, rfl, h5⟩

theorem storing_stackOf (t : Nat) : storing.stackOf t = if t = 0 then [feedFrame] else [] := by
  by_cases h : t = 0
  · subst h; rfl
  · have h' : ¬ 0 = t := fun e => h e.symm
    simp [State.stackOf, storing, feeding, during, Store.get, h, h']

theorem witness_StepsKeepOperationsNested : storing.OperationsInv ∧ ∃ t, step storing = .next t := by
  refine ⟨⟨?_, ?_, ?_, ?_⟩, witness_StepsKeepTheCanonicalForm.2⟩
  · intro t f hf
    rw [storing_stackOf] at hf
    split at hf
    · rw [List.mem_singleton] at hf
      subst hf
      exact ⟨bodyUnit .LE 4, rfl, by decide, by decide, by decide, by decide⟩
    · exact absurd hf (by simp)
  · intro t f rest g h hg
    rw [storing_stackOf] at h
    split at h <;> simp_all
  · intro t above f below h _ g hg
    rw [storing_stackOf] at h
    split at h
    · cases above <;> simp_all
    · exact absurd h (by simp)
  · intro t u f g hf hg _
    rw [storing_stackOf] at hf hg
    split at hf
    · split at hg
      · omega
      · exact absurd hg (by simp)
    · exact absurd hf (by simp)

/-- Two states that differ in the counters left behind by a frame. -/
theorem witness_CountersInAwaitingAreUnobservable :
    (quiet (unit16 .LE (regs .AM false 9 9 7)) []).Alike (quiet (unit16 .LE .initial) []) ∧
    quiet (unit16 .LE (regs .AM false 9 9 7)) [] ≠ quiet (unit16 .LE .initial) [] :=
  ⟨⟨rfl, .cons ⟨rfl, rfl, rfl, rfl, fun h => absurd rfl h⟩ .nil⟩, by decide⟩

end Sys2Proof.Tests
end

/-! PROOFS. What every step does to the parsers and to the bytes of their lent receive buffers: one inversion lemma for the step,
from which the parser's invariants and the statements about lent bytes follow (spec/10_state.md R16, R19). -/

namespace Sys2Proof.Machine

variable {s t : State} {i j : Inst}

/-! ### Lent bytes -/

/-- Every byte of every lent receive buffer is held by memory as before. -/
def State.KeepsLentBytes (s t : State) : Prop := ∀ p i a, s.inst p = some i → i.rxBuffer.base ≤ a →
  a < i.rxBuffer.base + i.rxCapacity → t.mem.read a = s.mem.read a

theorem State.KeepsLentBytes.of_mem (h : t.mem = s.mem) : s.KeepsLentBytes t := fun _ _ _ _ _ _ => by rw [h]

theorem State.KeepsLentBytes.of_writeBytes {base : Nat} {bs : List Byte} (hl : s.lentTo ⟨base, bs.length⟩ = false)
    (h : t.mem = s.mem.writeBytes base bs) : s.KeepsLentBytes t := fun _ _ _ hi h1 h2 => by
  rw [h, Memory.read_writeBytes_other _ _ _ (State.lentTo_outside hl hi h1 h2)]

/-- The only byte of memory that a wire byte can change is the one it stores to. -/
theorem Inst.rxStore_changed {m : Memory} {x : Option (Nat × Byte)} {a : Nat} (h : (i.rxStore m x).read a ≠ m.read a) :
    ∃ k v, x = some (k, v) ∧ a = i.rxBuffer.base + k := by
  by_contra hc
  exact h (Inst.rxStore_read fun k v hx ha => hc ⟨k, v, hx, ha⟩)

/-! ### What a step does to the parsers -/

/-- The four things a step can do to the parsers and the lent bytes: nothing; P_INIT of one parser; one wire byte for one
parser, which alone can write its buffer; the end of one parser. -/
inductive State.InstEffect (s t : State) : Prop where
  | kept (hi : ∀ q, t.inst q = s.inst q) (hm : s.KeepsLentBytes t)
  | init (u p : Nat) (c : Command) (j : Inst) (hmove : s.nextMove.1 = .run u p (.command c))
      (hregs : j.regs = Regs.initial) (hwritten : j.rxWritten = 0)
      (hi : ∀ q, t.inst q = if q = p then some j else s.inst q) (hm : t.mem = s.mem)
  | byte (u p : Nat) (st : ParserState) (ep : Bool) (b : Byte) (i : Inst)
      (hmove : s.nextMove.1 = .run u p (.wire st ep b)) (hold : s.inst p = some i)
      (hstore : s.storeRefused p i (i.pByte b).store = none)
      (hi : ∀ q, t.inst q = if q = p then some (i.afterByte s.mem (i.pByte b)).1 else s.inst q)
      (hm : t.mem = i.rxStore s.mem (i.pByte b).store)
  | ended (u p : Nat) (hmove : s.nextMove.1 = .endInstance u p)
      (hi : ∀ q, t.inst q = if q = p then none else s.inst q) (hm : t.mem = s.mem)

theorem State.InstEffect.of_insts (hi : t.insts = s.insts) (hm : s.KeepsLentBytes t) : s.InstEffect t :=
  .kept (fun q => by rw [State.inst, State.inst, hi]) hm

theorem step_instEffect (h : step s = .next t) : s.InstEffect t := by
  rcases step_effect h with ⟨rest, -, rfl⟩ | ⟨u, p, c, rest, op, hmove, -, hcmd, hx⟩ |
    ⟨u, p, st, ep, b, rest, src, n, pos, below, i, hmove, -, hi, hstore, hdone⟩ | ⟨u, rest, -, hx⟩ |
    ⟨u, a, v, rest, -, hx⟩ | ⟨u, p, rest, hmove, hx⟩
  · exact .of_insts rfl (.of_mem rfl)
  · obtain ⟨-, ⟨base, bs, st, v, hl, rfl⟩ | ⟨j, -, hr, hw, rfl⟩ | ⟨f, es, -, -, -, rfl⟩⟩ :=
      exec_command_next hcmd hx
    · exact .of_insts rfl (.of_writeBytes hl rfl)
    · exact .init u p c j (congrArg Prod.fst hmove) hr hw (fun q => by simp [State.setInst_inst]) rfl
    · exact .of_insts rfl (.of_mem rfl)
  · obtain ⟨hnew, hother, hmem, -⟩ := hdone
    refine .byte u p st ep b i (congrArg Prod.fst hmove) hi hstore (fun q => ?_) (hmem.trans (Inst.afterByte_mem _ _ _))
    split
    · next hq => rw [hq, hnew]
    · next hq => rw [hother q hq, State.serving_inst]
  · obtain ⟨hi, hm⟩ := State.handlerReturn_insts hx
    exact .of_insts hi (.of_mem hm)
  · obtain ⟨hl, -, rfl⟩ := State.hostWrite_next hx
    exact .of_insts rfl (.of_writeBytes (bs := [v]) hl rfl)
  · obtain ⟨-, -, rfl⟩ := State.endInstance_next hx
    exact .ended u p (congrArg Prod.fst hmove) (fun q => by simp [State.inst, Store.get_erase]) rfl

/-! ### The invariants and the lent bytes of every step -/

/-- P_INIT leaves a parser that meets the invariants. -/
theorem Inst.ParserInv.of_initial (hr : j.regs = Regs.initial) (hw : j.rxWritten = 0) : j.ParserInv := by
  constructor <;> simp [hr, hw, Regs.initial]

/-- Settles O57: a parser after a step is one from before it, one that P_INIT has just configured, or one after a wire byte. -/
theorem stepsKeepTheParserInvariants : Obligations.StepsKeepTheParserInvariants := by
  intro s t hinv h q k hk
  cases step_instEffect h with
  | kept hi _ => exact hinv q k (by rwa [← hi])
  | init u p c j _ hr hw hi _ =>
    rw [hi] at hk
    split at hk
    · obtain rfl := Option.some.inj hk
      exact .of_initial hr hw
    · exact hinv q k hk
  | byte u p st ep b i _ hold _ hi _ =>
    rw [hi] at hk
    split at hk
    · obtain rfl := Option.some.inj hk
      exact (hinv p i hold).pByte s.mem b
    · exact hinv q k hk
  | ended u p _ hi _ =>
    rw [hi] at hk
    split at hk
    · cases hk
    · exact hinv q k hk

/-- Settles O54: only a wire byte changes a lent byte, where it stores it; and that lies in no buffer lent to another parser. -/
theorem lentBytesChangeOnlyByTheirParser : Obligations.LentBytesChangeOnlyByTheirParser := by
  intro s t q a i h hinv hq hlo hhi hne
  cases step_instEffect h with
  | kept _ hm => exact absurd (hm q i a hq hlo hhi) hne
  | init u p c j _ _ _ _ hm => exact absurd (congrArg (Memory.read · a) hm) hne
  | ended u p _ _ hm => exact absurd (congrArg (Memory.read · a) hm) hne
  | byte u p st ep b i' hmove hold hstore _ hm =>
    rw [hm] at hne
    obtain ⟨k, v, hx, rfl⟩ := Inst.rxStore_changed hne
    rw [hx, State.storeRefused_some] at hstore
    have hqp : q = p := by
      by_contra hqp
      have := State.lentToOther_outside hstore.1 hqp hq hlo hhi
      simp [oneByte] at this
    subst hqp
    obtain rfl : i' = i := Option.some.inj (hold.symm.trans hq)
    obtain ⟨hst, rfl, hlt⟩ := Inst.pByte_store hx
    obtain ⟨-, hcap⟩ := (hinv q i' hq).body_len hst
    exact ⟨hst, rfl, hlt, by omega, u, st, ep, b, hmove⟩

/-! ### Bytes that hold no known value -/

/-- A read of a byte that a parser is lent and has not written gives the free value of a loan that holds it unknown. -/
theorem State.read_unwritten {p a : Nat} (hi : s.inst p = some i)
    (ha : i.rxBuffer.base + i.rxWritten ≤ a ∧ a < i.rxBuffer.base + i.rxCapacity) :
    ∃ e ∈ s.insts, s.read a = Config.lentByte e.2.loan a ∧
      e.2.rxBuffer.base + e.2.rxWritten ≤ a ∧ a < e.2.rxBuffer.base + e.2.rxCapacity := by
  have hunk : i.unknownLoan a ≠ none := Inst.unknownLoan_some.mpr ⟨ha, rfl⟩ ▸ Option.some_ne_none i.loan
  obtain ⟨e, he, hloan, hread⟩ := State.read_unknown (Store.mem_of_get hi) hunk
  exact ⟨e, he, hread, (Inst.unknownLoan_some.mp hloan).1⟩

/-- After P_INIT every lent byte is unknown, to the parser and to any other read. -/
theorem execPInit_unknown {order : ByteOrder} {rx : BufRef} {cap : Nat} {hp hb hf : Bool} {ctx : Ctx}
    (h1 : s.busyElsewhere = false) (h2 : s.inOwnHandler = false) (hc : cap ≤ rx.size) :
    ∃ t i, exec (.pInit order rx cap hp hb hf ctx) s = .next t ∧ t.inst s.cur.port = some i ∧ i.rxWritten = 0 ∧
      i.rxBuffer = rx ∧ i.rxCapacity = cap ∧
      (∀ k, k < cap → i.rxRead t.mem k = Config.lentByte s.loans (rx.base + k)) ∧
      ∀ k, k < cap → ∃ loan, t.read (rx.base + k) = Config.lentByte loan (rx.base + k) := by
  have hx := execPInit_eq (o := order) (hp := hp) (hb := hb) (hf := hf) (c := ctx) h1 h2 (rx := rx) (cap := cap)
    (decide_eq_true hc)
  generalize hj : (⟨order, rx, cap, hp, hb, hf, ctx, Regs.initial, 0, s.loans⟩ : Inst) = j at hx
  have hi : ((s.initInst j).report .OK none).inst s.cur.port = some j := by simp
  refine ⟨_, j, hx, hi, ?_⟩
  subst hj
  refine ⟨rfl, rfl, rfl, fun k hk => Inst.rxRead_unknown (Nat.zero_le k) hk, fun k hk => ?_⟩
  obtain ⟨e, -, hread, -⟩ := State.read_unwritten hi ⟨Nat.le_add_right rx.base k, Nat.add_lt_add_left hk rx.base⟩
  exact ⟨e.2.loan, hread⟩

/-- A step makes a byte of a lent buffer known only by its parser's store at `received_count` in RP. -/
theorem step_written (h : step s = .next t) (hinv : s.ParserInv) {q k : Nat} (hq : s.inst q = some i)
    (hj : t.inst q = some j) (hk : i.rxWritten ≤ k) :
    j.rxWritten ≤ k ∨
      (i.regs.state = .RP ∧ k = i.regs.receivedCount ∧ ∃ th st ep b, s.nextMove.1 = .run th q (.wire st ep b)) := by
  have same : s.inst q = some j → j.rxWritten ≤ k := fun h => by rwa [← Option.some.inj (hq.symm.trans h)]
  cases step_instEffect h with
  | kept hi _ => exact .inl (same (by rwa [← hi]))
  | init u p c i' _ _ hw hi _ =>
    rw [hi] at hj
    split at hj
    · obtain rfl := Option.some.inj hj
      exact .inl (by omega)
    · exact .inl (same hj)
  | byte u p st ep b i' hmove hold _ hi _ =>
    rw [hi] at hj
    split at hj
    · next hqp =>
      subst hqp
      obtain rfl := Option.some.inj hj
      obtain rfl : i' = i := Option.some.inj (hold.symm.trans hq)
      rcases (hinv q i' hq).written_step s.mem b hk with hle | ⟨hst, hcount⟩
      · exact .inl hle
      · exact .inr ⟨hst, hcount, u, st, ep, b, hmove⟩
    · exact .inl (same hj)
  | ended u p _ hi _ =>
    rw [hi] at hj
    split at hj
    · cases hj
    · exact .inl (same hj)

/-- Settles O29: after P_INIT by its answer, for a step by `step_written`, and for the reads by the laws about what a read
gives. -/
theorem lentBytesHoldNoKnownValue : Obligations.LentBytesHoldNoKnownValue := by
  refine ⟨fun s order rx cap hp hb hf ctx h1 h2 hc => execPInit_unknown h1 h2 hc, fun i m k => Inst.rxRead_unknown,
    fun s p i k hi hk hc => ?_, fun s t q i j k h hinv hq hj hk => step_written h hinv hq hj hk,
    fun s a ha => State.read_known fun e he => Inst.unknownLoan_none.mpr (ha e he),
    fun i m k hinv hst hk => Inst.rxRead_known (.inl (hk.trans_le (hinv.written hst)))⟩
  have hin : i.rxBuffer.base + i.rxWritten ≤ i.rxBuffer.base + k ∧
      i.rxBuffer.base + k < i.rxBuffer.base + i.rxCapacity := by omega
  exact ⟨State.read_unwritten hi hin, fun ho => State.read_unknown_own hi ho hin⟩

end Sys2Proof.Machine

/-! PROOFS. CRC32, ESCSIZE, ENC_BUF and ENC_SINK against parser registers and lent receive buffers (spec/10_state.md R22). -/

namespace Sys2Proof.Machine

variable {s t : State}

/-! ### What the encoder side changes -/

@[simp] theorem encSinkWith_insts (fc : FlushCheck) (i : Inst) (src : BufRef) (len : BitVec 16) (flush : Bool) (s : State) :
    (encSinkWith fc i src len flush s).insts = s.insts := by
  unfold encSinkWith
  split
  · rfl
  · split <;> simp

@[simp] theorem encSinkWith_mem (fc : FlushCheck) (i : Inst) (src : BufRef) (len : BitVec 16) (flush : Bool) (s : State) :
    (encSinkWith fc i src len flush s).mem = s.mem := by
  unfold encSinkWith
  split
  · rfl
  · split <;> simp

/-- A write where no receive buffer is lent leaves every lent byte. -/
theorem State.writeBytes_lent {base a : Nat} {bs : List Byte} (hl : s.lentTo ⟨base, bs.length⟩ = false)
    {e : Nat × Inst} (he : e ∈ s.insts) (ha : e.2.lent.covers a = true) :
    (s.mem.writeBytes base bs).read a = s.mem.read a := by
  simp only [State.lentTo, List.any_eq_false, Bool.not_eq_true] at hl
  have hno := (BufRef.overlaps_false _ _).mp (hl e he) a
  simp only [BufRef.covers, Bool.and_eq_true, decide_eq_true_eq] at ha
  refine Memory.read_writeBytes_other _ _ _ ?_
  by_contra hc
  exact hno ha.1 ha.2 (by dsimp only; omega) (by dsimp only; omega)

/-- The four operations of the encoder side change no parser and no lent byte. -/
theorem encoder_frame {op : Instr} {src dst : BufRef} {n cap : Nat} {len : BitVec 16} {flush : Bool}
    (hop : op = .crc32 src n ∨ op = .escsize src n ∨ op = .encBuf src len dst cap ∨ op = .encSink src len flush)
    (h : exec op s = .next t) :
    t.insts = s.insts ∧ ∀ e ∈ s.insts, ∀ a, e.2.lent.covers a = true → t.mem.read a = s.mem.read a := by
  rcases hop with rfl | rfl | rfl | rfl
  · obtain ⟨-, -, rfl⟩ := execCrc32_next h
    exact ⟨rfl, fun _ _ _ _ => rfl⟩
  · obtain ⟨-, -, rfl⟩ := execEscsize_next h
    exact ⟨rfl, fun _ _ _ _ => rfl⟩
  · obtain ⟨i, -, -, -, rfl | ⟨-, hl, rfl⟩⟩ := execEncBuf_next h
    · exact ⟨rfl, fun _ _ _ _ => rfl⟩
    · exact ⟨rfl, fun e he a ha => State.writeBytes_lent hl he ha⟩
  · obtain ⟨i, -, -, -, rfl⟩ := execEncSink_next h
    exact ⟨encSinkWith_insts .., fun _ _ _ _ => by rw [encSinkWith_mem]⟩

/-! ### States that differ only in parser registers -/

/-- The relation that `State.SameButRegs` asks of what is listed at one port. -/
abbrev Inst.SameButRegs (i j : Inst) : Prop := { i with regs := j.regs } = j

theorem State.SameButRegs.insts (h : s.SameButRegs t) : InstsRel Inst.SameButRegs s.insts t.insts := h.2

theorem State.SameButRegs.put (h : s.SameButRegs t) (x : Item) : (s.put x).SameButRegs (t.put x) :=
  ⟨congrArg (State.put · x) h.1, h.2⟩

theorem State.SameButRegs.emitAndWait (h : s.SameButRegs t) (e : Event) (f : Frame) :
    (s.emitAndWait e f).SameButRegs (t.emitAndWait e f) := ⟨congrArg (State.emitAndWait · e f) h.1, h.2⟩

theorem State.SameButRegs.mem_eq (h : s.SameButRegs t) : s.mem = t.mem := by
  simpa using congrArg State.mem h.1

theorem State.SameButRegs.setMem (h : s.SameButRegs t) (m : Memory) : (s.setMem m).SameButRegs (t.setMem m) :=
  ⟨congrArg (State.setMem · m) h.1, h.2⟩

/-- Parser registers take no part in a read. -/
theorem State.SameButRegs.read (h : s.SameButRegs t) (a : Nat) : s.read a = t.read a :=
  h.insts.read (fun i j hij => by rw [← hij]; rfl) (by rw [h.mem_eq])

theorem encoder_sameButRegs {op : Instr} {src dst : BufRef} {n cap : Nat} {len : BitVec 16} {flush : Bool}
    (hop : op = .crc32 src n ∨ op = .escsize src n ∨ op = .encBuf src len dst cap ∨ op = .encSink src len flush)
    (h : s.SameButRegs t) : AnswersSameButRegs (exec op s) (exec op t) := by
  have hbytes : ∀ k, s.srcBytes src k = t.srcBytes src k := fun k => State.bytes_congr fun _ _ => h.read _
  refine rel_encoder (Rel := AnswersSameButRegs) (fun i j hij => by rw [← hij]) (fun _ => rfl) (fun _ => rfl) ?_ h.insts
    h.put (fun base bs x _ => ?_) h.emitAndWait hop (fun _ => hbytes _) (fun _ => hbytes _)
  · rw [← h.mem_eq]; exact h.1
  · rw [h.mem_eq]; exact (h.setMem _).put x

/-! ### States that differ in parser registers and in what lent receive buffers hold -/

/-- Writing the same bytes keeps two memories alike where they were alike. -/
theorem Memory.read_writeBytes_congr {m m' : Memory} {a : Nat} (h : m.read a = m'.read a) (base : Nat) (bs : List Byte) :
    (m.writeBytes base bs).read a = (m'.writeBytes base bs).read a := by
  induction bs generalizing m m' base with
  | nil => exact h
  | cons b bs ih => exact ih (by rw [Memory.read_write, Memory.read_write, h]) _

/-- The relation that `State.SameButReceive` asks of what is listed at one port. -/
abbrev Inst.SameButReceive (i j : Inst) : Prop := { i with regs := j.regs, rxWritten := j.rxWritten } = j

theorem State.SameButReceive.insts (h : s.SameButReceive t) : InstsRel Inst.SameButReceive s.insts t.insts := h.2.1

theorem State.SameButReceive.mem_read (h : s.SameButReceive t) {a : Nat} (ha : s.lentTo (oneByte a) = false) :
    s.mem.read a = t.mem.read a := h.2.2 a ha

theorem State.SameButReceive.put (h : s.SameButReceive t) (x : Item) : (s.put x).SameButReceive (t.put x) :=
  ⟨congrArg (State.put · x) h.1, h.2⟩

theorem State.SameButReceive.emitAndWait (h : s.SameButReceive t) (e : Event) (f : Frame) :
    (s.emitAndWait e f).SameButReceive (t.emitAndWait e f) := ⟨congrArg (State.emitAndWait · e f) h.1, h.2⟩

theorem State.SameButReceive.writeBytes (h : s.SameButReceive t) (base : Nat) (bs : List Byte) :
    (s.setMem (s.mem.writeBytes base bs)).SameButReceive (t.setMem (t.mem.writeBytes base bs)) :=
  ⟨congrArg (State.setMem · (t.mem.writeBytes base bs)) h.1, h.insts,
    fun _ ha => Memory.read_writeBytes_congr (h.mem_read ha) base bs⟩

/-- The same buffers are lent in both. -/
theorem State.SameButReceive.lentTo (h : s.SameButReceive t) (r : BufRef) : s.lentTo r = t.lentTo r :=
  h.insts.lentTo (fun i j hij => by rw [← hij]; rfl) r

/-- A part of a buffer that no lent buffer overlaps is overlapped by none. -/
theorem State.lentTo_oneByte {base n a : Nat} (h : s.lentTo ⟨base, n⟩ = false) (h1 : base ≤ a) (h2 : a < base + n) :
    s.lentTo (oneByte a) = false := by
  simp only [State.lentTo, List.any_eq_false, Bool.not_eq_true] at h ⊢
  exact fun e he => BufRef.overlaps_part (h e he) h1 h2

/-- Where no receive buffer is lent, both read the same bytes. -/
theorem State.SameButReceive.srcBytes (h : s.SameButReceive t) {src : BufRef} {n : Nat}
    (hl : s.lentTo (src.first n) = false) : s.srcBytes src n = t.srcBytes src n := by
  refine State.bytes_congr fun k hk => ?_
  have hb : s.lentTo (oneByte (src.base + k)) = false := State.lentTo_oneByte hl (by omega) (by omega)
  rw [State.read_unlent hb, State.read_unlent (h.lentTo _ ▸ hb), h.mem_read hb]

theorem encoder_sameButReceive {op : Instr} {src dst : BufRef} {n cap : Nat} {len : BitVec 16} {flush : Bool}
    (hop : op = .crc32 src n ∨ op = .escsize src n ∨ op = .encBuf src len dst cap ∨ op = .encSink src len flush)
    (h : s.SameButReceive t) (hsrc : op = .crc32 src n ∨ op = .escsize src n → s.lentTo (src.first n) = false)
    (hlen : op = .encBuf src len dst cap ∨ op = .encSink src len flush → s.lentTo (src.first len.toNat) = false) :
    AnswersSameButReceive (exec op s) (exec op t) :=
  rel_encoder (Rel := AnswersSameButReceive) (fun _ _ => id) (fun _ => rfl) (fun _ => rfl) h.1 h.insts h.put
    (fun base bs x _ => (h.writeBytes base bs).put x) h.emitAndWait hop (fun hc => h.srcBytes (hsrc hc))
    (fun he => h.srcBytes (hlen he))

/-- Settles O50: its frame, and `rel_encoder` under the two relations of states. -/
theorem encoderSideIgnoresTheParser : Obligations.EncoderSideIgnoresTheParser :=
  fun _ _ _ _ _ _ _ hop => ⟨fun _ _ h => encoder_frame hop h, fun _ _ h => encoder_sameButRegs hop h,
    fun _ _ h hsrc hlen => encoder_sameButReceive hop h hsrc hlen⟩

end Sys2Proof.Machine

/-! PROOFS. Codes, the step of a command, and the step of a handler's return (spec/10_state.md R11, R20, R21). -/

namespace Sys2Proof.Machine

variable {s : State}

/-- Settles O5, by the tables of codes themselves. -/
theorem stateAndStatusCodes : Obligations.StateAndStatusCodes := ⟨rfl, rfl, rfl, rfl, rfl, rfl, rfl, rfl⟩

/-- Settles O6, by the law about a step that takes a command. -/
theorem stepRunsTheDecodedCommand : Obligations.StepRunsTheDecodedCommand :=
  fun _ _ _ _ _ _ hin hrun hd => step_command hin hrun hd

/-! ### A handler's return -/

/-- A thread whose innermost operation waits is not at a byte. -/
theorem State.running_waiting {th port : Nat} {work : Work} {below : List Frame}
    (h : s.stackOf th = ⟨port, work, true⟩ :: below) : s.running th = false := by simp [State.running, h]

/-- The state in which an operation goes on: off its thread's stack, its port being served. -/
def State.resume (s : State) (port : Nat) (below : List Frame) : State := (s.setStack below).atPort port

section resume

variable (port th : Nat) (below : List Frame)

@[simp] theorem State.resume_insts : (s.resume port below).insts = s.insts := by simp [State.resume]
@[simp] theorem State.resume_mem : (s.resume port below).mem = s.mem := by simp [State.resume]
@[simp] theorem State.resume_input : (s.resume port below).input = s.input := by simp [State.resume]
@[simp] theorem State.resume_out : (s.resume port below).out = s.out := by simp [State.resume]
@[simp] theorem State.resume_cur : (s.resume port below).cur = ⟨s.cur.thread, port⟩ := by simp [State.resume]
@[simp] theorem State.resume_stack : (s.resume port below).stack = below := by simp [State.resume]

theorem State.resume_stackOf_other (h : th ≠ s.cur.thread) : (s.resume port below).stackOf th = s.stackOf th := by
  simp [State.resume, State.setStack_stackOf, h]

end resume

/-- An operation's next state, once the host has taken its event. -/
def State.goOn (s : State) (port : Nat) : Work → State
  | .feed src n pos => s.continueFeed port src n pos
  | .sink src n todo final => s.continueSink port src n todo final

section goOn

variable (port : Nat) (work : Work)

@[simp] theorem State.goOn_insts : (s.goOn port work).insts = s.insts := by cases work <;> simp [State.goOn]
@[simp] theorem State.goOn_mem : (s.goOn port work).mem = s.mem := by cases work <;> simp [State.goOn]
@[simp] theorem State.goOn_input : (s.goOn port work).input = s.input := by cases work <;> simp [State.goOn]

theorem State.continueSink_stackOf_other (src : BufRef) (n : Nat) (todo : List Event) (final : Status) {u : Nat}
    (h : u ≠ s.cur.thread) : (s.continueSink port src n todo final).stackOf u = s.stackOf u := by
  cases todo with
  | nil => rfl
  | cons e es => simp [State.continueSink, State.emitAndWait_stackOf, h]

theorem State.goOn_stackOf_other {u : Nat} (h : u ≠ s.cur.thread) : (s.goOn port work).stackOf u = s.stackOf u := by
  cases work with
  | feed src n pos => exact State.continueFeed_stackOf_other _ _ _ _ _ h
  | sink src n todo final => exact State.continueSink_stackOf_other _ _ _ _ _ h

end goOn

/-- A handler's return lets the operation whose event was taken go on. -/
theorem step_handlerReturn {th port : Nat} {work : Work} {below : List Frame} {rest : List HostInput}
    (hin : s.input = .handlerReturn th :: rest) (hs : s.stackOf th = ⟨port, work, true⟩ :: below) :
    step s = .next (((s.serving rest th s.cur.port).resume port below).goOn port work) := by
  have hmove := State.nextMove_take hin (State.running_waiting hs) (by simp)
  simp only [step, hmove, HostInput.move, State.handlerReturn, State.serving_stack, hs]
  cases work <;> rfl

/-- Settles O9: everything but the thread's own stack and the outputs by the laws of `State.goOn`, and those by the kind of
operation that goes on. -/
theorem handlerReturnGoesOn : Obligations.HandlerReturnGoesOn := by
  intro s t port work below rest hin hs
  refine ⟨_, step_handlerReturn hin hs, by simp, by simp, by simp, fun v hv => ?_, ?_⟩
  · rw [State.goOn_stackOf_other _ _ (by simpa using hv), State.resume_stackOf_other _ _ _ (by simpa using hv),
      State.serving_stackOf]
  · generalize hz : (s.serving rest t s.cur.port).resume port below = z
    have hcur : z.cur = ⟨t, port⟩ := by simp [← hz]
    have hstk : z.stack = below := by simp [← hz]
    have hout : z.out = s.out := by simp [← hz]
    have hown : ∀ u : State, u.cur = z.cur → u.stackOf t = u.stack := fun u hu => by rw [State.stack, hu, hcur]
    match work with
    | .feed src n pos =>
      have hdone := State.continueFeed_done z port src n pos
      simpa [State.goOn, outputs, hown, hcur, hstk, hout] using hdone
    | .sink src n [] final => simp [State.goOn, State.continueSink, outputs, hown, hcur, hstk, hout]
    | .sink src n (e :: es) final => simp [State.goOn, State.continueSink, outputs, hown, hcur, hstk, hout]

end Sys2Proof.Machine

/-! PROOFS. Decoding against encoding, the commands that the step refuses, and the step of a wire byte (spec/30_encoding.md R39,
R40, R42). -/

namespace Sys2Proof

/-! ### Operands -/

theorem checkOperands_wf {i : Instr} (h : i.wf = true) : checkOperands (some i) = .ok i := by simp [checkOperands, h]

/-- Operands from which no well-formed instruction is read are rejected. -/
theorem checkOperands_bad {o : Option Instr} (h : ∀ i, o = some i → i.wf ≠ true) :
    checkOperands o = .error .badOperand := by
  cases o with
  | none => rfl
  | some i => simp [checkOperands, h i rfl]

theorem le_one_of_readBit {n : Nat} {b : Bool} (h : readBit n = some b) : n ≤ 1 := by
  by_contra hn
  simp [readBit_bad (not_le.mp hn)] at h

theorem le_one_of_readOrder {n : Nat} {o : ByteOrder} (h : readOrder n = some o) : n ≤ 1 := by
  by_contra hn
  simp [readOrder_bad (not_le.mp hn)] at h

theorem toNat_of_readLen {n : Nat} {l : BitVec 16} (h : readLen n = some l) : l.toNat = n := by
  unfold readLen at h
  split at h
  · next hn =>
    obtain rfl := Option.some.inj h
    rw [BitVec.toNat_ofNat, Nat.mod_eq_of_lt hn]
  · cases h

/-! ### What a read from slots in range gives -/

theorem readEncBuf_some {base size n dbase dsize cap : Nat} {i : Instr}
    (h : readEncBuf [base, size, n, dbase, dsize, cap] = some i) :
    ∃ len : BitVec 16, len.toNat = n ∧ i = .encBuf ⟨base, size⟩ len ⟨dbase, dsize⟩ cap := by
  obtain ⟨len, hlen, rfl⟩ := Option.map_eq_some_iff.mp h
  exact ⟨len, toNat_of_readLen hlen, rfl⟩

theorem readEncSink_some {base size n flush : Nat} {i : Instr} (h : readEncSink [base, size, n, flush] = some i) :
    ∃ (len : BitVec 16) (f : Bool), len.toNat = n ∧ flush ≤ 1 ∧ i = .encSink ⟨base, size⟩ len f := by
  simp only [readEncSink] at h
  split at h
  · next len f hlen hf =>
    obtain rfl := Option.some.inj h
    exact ⟨len, f, toNat_of_readLen hlen, le_one_of_readBit hf, rfl⟩
  · cases h

theorem readInit_some {order base size cap hp hb hf ctx : Nat} {i : Instr}
    (h : readInit [order, base, size, cap, hp, hb, hf, ctx] = some i) :
    ∃ o p b f, order ≤ 1 ∧ hp ≤ 1 ∧ hb ≤ 1 ∧ hf ≤ 1 ∧ i = .pInit o ⟨base, size⟩ cap p b f ⟨ctx⟩ := by
  simp only [readInit] at h
  split at h
  · next o p b f ho hp hb hf =>
    obtain rfl := Option.some.inj h
    exact ⟨o, p, b, f, le_one_of_readOrder ho, le_one_of_readBit hp, le_one_of_readBit hb, le_one_of_readBit hf, rfl⟩
  · cases h

/-! ### Decoding by opcode -/

section opcodes

variable (slots : List Nat)

theorem decode_crc32 : decode (.command ⟨0x01, slots⟩) = checkOperands (readSrc .crc32 slots) := rfl
theorem decode_escsize : decode (.command ⟨0x02, slots⟩) = checkOperands (readSrc .escsize slots) := rfl
theorem decode_encBuf : decode (.command ⟨0x10, slots⟩) = checkOperands (readEncBuf slots) := rfl
theorem decode_encSink : decode (.command ⟨0x11, slots⟩) = checkOperands (readEncSink slots) := rfl
theorem decode_pInit : decode (.command ⟨0x20, slots⟩) = checkOperands (readInit slots) := rfl
theorem decode_pFeed : decode (.command ⟨0x21, slots⟩) = checkOperands (readSrc .pFeed slots) := rfl

theorem decode_undefined {op : Byte} (h : op ∉ [0x01, 0x02, 0x10, 0x11, 0x20, 0x21]) :
    decode (.command ⟨op, slots⟩) = .error .undefinedOpcode := by
  simp only [List.mem_cons, List.not_mem_nil, or_false, not_or] at h
  simp only [decode, decodeCommand, h, if_false]

end opcodes

theorem decode_wire (st : ParserState) (ep : Bool) (b : Byte) : decode (.wire st ep b) = .ok (decodeWire st ep b) := rfl

/-! ### Bad operands -/

theorem decode_source_short {op : Byte} {base size n : Nat} (hop : op ∈ [0x01, 0x02, 0x21]) (h : size < n) :
    decode (.command ⟨op, [base, size, n]⟩) = .error .badOperand := by
  have hshort : BufRef.holds ⟨base, size⟩ n ≠ true := by simpa [BufRef.holds] using h
  have bad : ∀ i : Instr, i.wf = BufRef.holds ⟨base, size⟩ n → checkOperands (some i) = .error .badOperand := fun i hi =>
    checkOperands_bad fun j hj => by rwa [← Option.some.inj hj, hi]
  simp only [List.mem_cons, List.not_mem_nil, or_false] at hop
  rcases hop with rfl | rfl | rfl
  · exact bad (.crc32 ⟨base, size⟩ n) rfl
  · exact bad (.escsize ⟨base, size⟩ n) rfl
  · exact bad (.pFeed ⟨base, size⟩ n) rfl

theorem decode_encBuf_bad {base size n dbase dsize cap : Nat} (h : 65535 < n ∨ size < n ∨ dsize < cap) :
    decode (.command ⟨0x10, [base, size, n, dbase, dsize, cap]⟩) = .error .badOperand := by
  refine checkOperands_bad fun i hi hw => ?_
  obtain ⟨len, hlen, rfl⟩ := readEncBuf_some hi
  have hmax := len.isLt
  simp [Instr.wf, BufRef.holds] at hw
  omega

theorem decode_encSink_bad {base size n flush : Nat} (h : 65535 < n ∨ size < n ∨ 1 < flush) :
    decode (.command ⟨0x11, [base, size, n, flush]⟩) = .error .badOperand := by
  refine checkOperands_bad fun i hi hw => ?_
  obtain ⟨len, f, hlen, hflush, rfl⟩ := readEncSink_some hi
  have hmax := len.isLt
  simp [Instr.wf, BufRef.holds] at hw
  omega

theorem decode_pInit_bad {order base size cap hp hb hf ctx : Nat}
    (h : 1 < order ∨ size < cap ∨ 1 < hp ∨ 1 < hb ∨ 1 < hf) :
    decode (.command ⟨0x20, [order, base, size, cap, hp, hb, hf, ctx]⟩) = .error .badOperand := by
  refine checkOperands_bad fun i hi hw => ?_
  obtain ⟨o, p, b, f, horder, hhp, hhb, hhf, rfl⟩ := readInit_some hi
  simp [Instr.wf, BufRef.holds] at hw
  omega

/-! ### Decoding and encoding -/

/-- Settles O2: the slots of a command are read back one by one, and a wire byte class by `Laws.WireClass`. -/
theorem decodeOfEncodeIsTheInstruction : Obligations.DecodeOfEncodeIsTheInstruction := by
  intro i h
  cases i with
  | crc32 src n => exact checkOperands_wf h
  | escsize src n => exact checkOperands_wf h
  | encBuf src len dst cap => rw [encode, decode_encBuf, readEncBuf, readLen_toNat]; exact checkOperands_wf h
  | encSink src len flush =>
    rw [encode, decode_encSink, readEncSink, readLen_toNat, readBit_bitCode]; exact checkOperands_wf h
  | pInit order rx cap hp hb hf ctx =>
    simp only [encode, decode_pInit, readInit, readOrder_code, readBit_bitCode]; exact checkOperands_wf h
  | pFeed src n => exact checkOperands_wf h
  | marker => exact congrArg Except.ok (Laws.WireClass.marker h _ _ _ rfl)
  | noise b => exact congrArg Except.ok (Laws.WireClass.noise b h _ _ _ rfl)
  | escapedData b => exact congrArg Except.ok (Laws.WireClass.escapedData b h _ _ _ rfl)
  | escape => exact congrArg Except.ok (Laws.WireClass.escape h _ _ _ rfl)
  | data b => exact congrArg Except.ok (Laws.WireClass.data b h _ _ _ rfl)

/-- Settles O1, row by row of R39's table. -/
theorem wireBytesFollowTheClassTable : Obligations.WireBytesFollowTheClassTable := by
  intro st ep b
  simp only [decode_wire, Except.ok.injEq]
  refine ⟨?_, ?_, ?_, ?_, ?_⟩
  · rintro rfl; rfl
  · rintro (hm : b ≠ MARKER) rfl; simp [decodeWire, hm]
  · rintro (hm : b ≠ MARKER) hst rfl; simp [decodeWire, hm, hst]
  · rintro rfl hst rfl; simp [decodeWire, MARKER, ESCAPE, hst]
  · rintro (hm : b ≠ MARKER) (hx : b ≠ ESCAPE) hst rfl; simp [decodeWire, hm, hx, hst]

/-- Settles O3, by decoding each word. -/
theorem handWrittenWordsDecode : Obligations.HandWrittenWordsDecode :=
  ⟨rfl, rfl, rfl, rfl, rfl, rfl, rfl, rfl, rfl, rfl, rfl⟩

end Sys2Proof

namespace Sys2Proof.Machine

variable {s : State} {th p : Nat} {rest : List HostInput}

/-! ### Commands that the step refuses -/

/-- A step that takes a command decodes it and runs what it decodes to. -/
theorem step_command_runWord {c : Command} (h : s.input = .command th p c :: rest) (hr : s.running th = false) :
    step s = runWord (.command c) (s.serving rest th p) := by
  simp only [step, State.nextMove_take h hr (by simp), HostInput.move]

/-- Settles O4: by what the opcode, or the row of the table with an operand out of range, decodes to. -/
theorem illegalCommandsAreRefused : Obligations.IllegalCommandsAreRefused := by
  refine ⟨fun s t p op slots rest hin hrun hop => ?_, fun s t p c rest hin hrun hbad => ?_,
    fun st ep b => ⟨_, decode_wire st ep b⟩⟩
  · rw [step_command_runWord hin hrun, runWord, decode_undefined slots hop]
  · have hd : decode (.command c) = .error .badOperand := by
      obtain ⟨op, slots⟩ := c
      rcases hbad with ⟨_, _, _, hop, rfl, h⟩ | ⟨_, _, _, _, _, _, rfl, rfl, h⟩ | ⟨_, _, _, _, rfl, rfl, h⟩ |
        ⟨_, _, _, _, _, _, _, _, rfl, rfl, h⟩
      · exact decode_source_short hop h
      · exact decode_encBuf_bad h
      · exact decode_encSink_bad h
      · exact decode_pInit_bad h
    rw [step_command_runWord hin hrun, runWord, hd]

/-! ### The step of a wire byte -/

/-- An input of a thread that is inside a P_FEED at a byte waits, and the byte is served. -/
theorem State.nextMove_wait {inp : HostInput} (h : s.input = inp :: rest) (hr : s.running inp.thread = true)
    (hs : ∀ u, inp ≠ .slot u) : s.nextMove = (s.fetchByte inp.thread, inp :: rest) := by
  unfold State.nextMove
  rw [h]
  cases inp with
  | slot u => exact absurd rfl (hs u)
  | command u q c => exact if_pos hr
  | handlerReturn u => exact if_pos hr
  | write u a v => exact if_pos hr
  | endInstance u q => exact if_pos hr

/-- A step that serves the byte of a P_FEED runs the class of that byte. -/
theorem step_fetchByte {port n pos : Nat} {src : BufRef} {below : List Frame} {i : Inst}
    (hs : s.stackOf th = ⟨port, .feed src n pos, false⟩ :: below) (hi : s.inst port = some i)
    (hm : s.nextMove = (s.fetchByte th, rest)) :
    step s = exec (decodeWire i.regs.state i.regs.escapePending (s.read (src.base + pos))) (s.serving rest th port) := by
  simp only [step, hm, State.fetchByte_at hs hi, runWord, decode_wire]

/-- Settles O7: in each of the three cases the move is the thread's byte. -/
theorem stepRunsTheByteOfAFeed : Obligations.StepRunsTheByteOfAFeed := by
  intro s t port n pos src below i rest hs hi hsched
  refine step_fetchByte hs hi ?_
  rcases hsched with hslot | ⟨rfl, x, xs, hin, rfl, hx⟩ | ⟨hin, rfl, hfirst⟩
  · simp [State.nextMove, hslot]
  · rw [hin, State.nextMove_wait hin (State.running_iff.mpr ⟨_, _, _, _, _, hs⟩) hx]
  · simp [State.nextMove, hin, hfirst]

end Sys2Proof.Machine

/-! PROOFS. The length and checksum fields in both byte orders, and the frame (spec/30_encoding.md R35 to R37;
spec/42_encoder.md R51, R52; spec/43_parser.md R66). -/

namespace Sys2Proof.Machine

/-! ### The length field -/

theorem lenValue_lenBytes (o : ByteOrder) (len : BitVec 16) :
    ∃ c1 c2, lenBytes o len = [c1, c2] ∧ lenValue o c1 c2 = len.toNat := by
  have hmax := len.isLt
  cases o with
  | LE => exact ⟨_, _, rfl, by simp [lenValue, Nat.shiftRight_eq_div_pow]; omega⟩
  | BE => exact ⟨_, _, rfl, by simp [lenValue, Nat.shiftRight_eq_div_pow]; omega⟩

/-- The parser's body length after both length bytes: the declared length and the 4 checksum bytes. -/
theorem Regs.bodyLen_lengthFirst (o : ByteOrder) (r : Regs) (c1 c2 : Byte) :
    (r.lengthFirst o c1).bodyLen o c2 = lenValue o c1 c2 + 4 := by cases o <;> rfl

theorem fieldSeq_take (o : ByteOrder) (p : List Byte) :
    (fieldSeq o p).take 2 = lenBytes o (BitVec.ofNat 16 p.length) := by
  rw [fieldSeq, List.append_assoc, List.take_left' (lenBytes_length _ _)]

/-- Settles O18: the two orders by definition, and the laws of the length field. -/
theorem lengthFieldInBothOrders : Obligations.LengthFieldInBothOrders :=
  ⟨fun _ => ⟨rfl, rfl⟩, fun _ _ => ⟨rfl, rfl⟩, lenValue_lenBytes, fieldSeq_take, Regs.bodyLen_lengthFirst⟩

/-! ### The checksum field -/

theorem crcValue_crcBytes (o : ByteOrder) (c : Word) :
    ∃ d0 d1 d2 d3, crcBytes o c = [d0, d1, d2, d3] ∧ crcValue o d0 d1 d2 d3 = c.toNat := by
  have hmax := c.isLt
  cases o with
  | LE => exact ⟨_, _, _, _, rfl, by simp [crcValue, wordByte, Nat.shiftRight_eq_div_pow]; omega⟩
  | BE => exact ⟨_, _, _, _, rfl, by simp [crcValue, wordByte, Nat.shiftRight_eq_div_pow]; omega⟩

theorem fieldSeq_drop (o : ByteOrder) (p : List Byte) : (fieldSeq o p).drop (2 + p.length) = crcBytes o (crc32 p) := by
  rw [fieldSeq, List.drop_left' (by simp [lenBytes_length])]

/-- A shift in order LE drops the lowest byte and puts the new one on top. -/
theorem checksumShift_LE_toNat (c : Word) (d : Byte) :
    (checksumShift .LE c d).toNat = 2 ^ 24 * d.toNat + c.toNat / 2 ^ 8 := by
  have hc : c.toNat >>> 8 < 2 ^ 24 := by rw [Nat.shiftRight_eq_div_pow]; omega
  have hd : d.toNat <<< 24 < 2 ^ 32 := by rw [Nat.shiftLeft_eq]; omega
  rw [checksumShift, BitVec.or_comm]
  simp only [BitVec.toNat_or, BitVec.toNat_shiftLeft, BitVec.toNat_ushiftRight]
  rw [BitVec.toNat_setWidth_of_le (by omega), Nat.mod_eq_of_lt hd, ← Nat.shiftLeft_add_eq_or_of_lt hc,
    Nat.shiftLeft_eq, Nat.shiftRight_eq_div_pow, Nat.mul_comm]

/-- A shift in order BE drops the highest byte and puts the new one below. -/
theorem checksumShift_BE_toNat (c : Word) (d : Byte) :
    (checksumShift .BE c d).toNat = 2 ^ 8 * (c.toNat % 2 ^ 24) + d.toNat := by
  have hshift : (c.toNat <<< 8) % 2 ^ 32 = (c.toNat % 2 ^ 24) <<< 8 := by simp only [Nat.shiftLeft_eq]; omega
  rw [checksumShift]
  simp only [BitVec.toNat_or, BitVec.toNat_shiftLeft]
  rw [BitVec.toNat_setWidth_of_le (by omega), hshift, ← Nat.shiftLeft_add_eq_or_of_lt d.isLt, Nat.shiftLeft_eq,
    Nat.mul_comm]

/-- Four shifts push out every earlier bit of the register (R66). -/
theorem checksumShift_four (o : ByteOrder) (c : Word) (d0 d1 d2 d3 : Byte) :
    (checksumShift o (checksumShift o (checksumShift o (checksumShift o c d0) d1) d2) d3).toNat =
      crcValue o d0 d1 d2 d3 := by
  have := c.isLt
  have := d0.isLt
  have := d1.isLt
  have := d2.isLt
  have := d3.isLt
  cases o with
  | LE => simp only [checksumShift_LE_toNat, crcValue]; omega
  | BE => simp only [checksumShift_BE_toNat, crcValue]; omega

/-- Settles O19: the two orders by definition, and the laws of the checksum field and of the shift. -/
theorem checksumFieldInBothOrders : Obligations.ChecksumFieldInBothOrders :=
  ⟨fun _ => ⟨rfl, rfl⟩, fun _ _ => ⟨rfl, rfl⟩, crcValue_crcBytes, fun _ _ _ _ => ⟨rfl, rfl⟩, fieldSeq_drop,
    checksumShift_four⟩

/-! ### The frame -/

theorem marker_not_mem_stuff (b : Byte) : MARKER ∉ stuff b := by
  unfold stuff
  split
  · next hr =>
    simp only [Reserved, Bool.or_eq_true, beq_iff_eq] at hr
    rcases hr with rfl | rfl <;> decide
  · next hr =>
    have hb := not_reserved (by simpa using hr)
    simpa using hb.1.symm

theorem marker_not_mem_stuffSeq (d : List Byte) : MARKER ∉ stuffSeq d := by
  intro h
  obtain ⟨b, -, hb⟩ := List.mem_flatMap.mp h
  exact marker_not_mem_stuff b hb

theorem fieldSeq_length (o : ByteOrder) (p : List Byte) : (fieldSeq o p).length = 2 + p.length + 4 := by
  simp only [fieldSeq, List.length_append, lenBytes_length, crcBytes_length]

/-- The frame is the marker and the stuffed field sequence. -/
theorem frameBytes_eq (o : ByteOrder) (p : List Byte) : frameBytes o p = MARKER :: stuffSeq (fieldSeq o p) := by
  simp [frameBytes, fieldSeq, stuffSeq]

theorem stuffSeq_length_bounds (d : List Byte) : d.length ≤ (stuffSeq d).length ∧ (stuffSeq d).length ≤ 2 * d.length := by
  rw [stuffSeq_length]
  exact ⟨length_le_escSize d, escSize_le d⟩

/-- Settles O20: the two forms of the frame, no marker in a stuffed sequence, and its length's bounds for each field. -/
theorem frameIsMarkerAndStuffedFields : Obligations.FrameIsMarkerAndStuffedFields := by
  intro o p
  have hlen := stuffSeq_length_bounds (lenBytes o (BitVec.ofNat 16 p.length))
  have hpay := stuffSeq_length_bounds p
  have hcrc := stuffSeq_length_bounds (crcBytes o (crc32 p))
  rw [lenBytes_length] at hlen
  rw [crcBytes_length] at hcrc
  refine ⟨rfl, fieldSeq_length o p, rfl, frameBytes_eq o p, ?_, hlen.1, hlen.2, hpay.1, hpay.2, hcrc.1, hcrc.2⟩
  rw [frameBytes_eq]
  exact marker_not_mem_stuffSeq _

end Sys2Proof.Machine

/-! PROOFS. The CRC generator's table-driven form and its sensitivity to one byte, and the CRC32 command (spec/40_checksum.md
R44, R45). -/

namespace Sys2Proof.Machine

/-! ### The table-driven step -/

/-- As long as only zeros leave the register, the shifts never add the polynomial. -/
theorem crcShifts_of_low_zero {k : Nat} {x : Word} (h : ∀ j < k, x.getLsbD j = false) :
    Nat.repeat crcShift k x = x >>> k := by
  induction k with
  | zero => simp [Nat.repeat]
  | succ k ih =>
    have hlow : (x >>> k).getLsbD 0 = false := by simpa using h k (by omega)
    calc Nat.repeat crcShift (k + 1) x
        = crcShift (x >>> k) := congrArg crcShift (ih fun j hj => h j (by omega))
      _ = x >>> k >>> 1 := by simp only [crcShift, hlow, Bool.false_eq_true, if_false]
      _ = x >>> (k + 1) := (BitVec.shiftRight_add ..).symm

/-- The register splits into its low byte and the rest, which is only shifted (R44). -/
theorem crcShifts_byte (x : Word) : Nat.repeat crcShift 8 x = (x >>> 8) ^^^ crcStep 0 (x.setWidth 8) := by
  have hlow : ∀ j < 8, (x ^^^ (x.setWidth 8).setWidth 32).getLsbD j = false := by
    intro j hj
    simp [hj, show j < 32 by omega]
  have hrest : (x ^^^ (x.setWidth 8).setWidth 32) >>> 8 = x >>> 8 :=
    BitVec.eq_of_getLsbD_eq fun j _ => by simp
  have hsplit : x = (x ^^^ (x.setWidth 8).setWidth 32) ^^^ (x.setWidth 8).setWidth 32 := by
    rw [BitVec.xor_assoc, BitVec.xor_self, BitVec.xor_zero]
  calc Nat.repeat crcShift 8 x
      = Nat.repeat crcShift 8 ((x ^^^ (x.setWidth 8).setWidth 32) ^^^ (x.setWidth 8).setWidth 32) :=
        congrArg _ hsplit
    _ = (x >>> 8) ^^^ Nat.repeat crcShift 8 ((x.setWidth 8).setWidth 32) := by
        rw [crcShifts_xor, crcShifts_of_low_zero hlow, hrest]
    _ = (x >>> 8) ^^^ crcStep 0 (x.setWidth 8) := by simp [crcStep]

/-- The byte lies wholly in the part that is looked up (R44). -/
theorem crcStep_eq_table (c : Word) (b : Byte) :
    crcStep c b = (c >>> 8) ^^^ crcStep 0 ((c ^^^ b.setWidth 32).setWidth 8) := by
  have hbyte : (c ^^^ b.setWidth 32) >>> 8 = c >>> 8 :=
    BitVec.eq_of_getLsbD_eq fun j _ => by simp
  calc crcStep c b
      = ((c ^^^ b.setWidth 32) >>> 8) ^^^ crcStep 0 ((c ^^^ b.setWidth 32).setWidth 8) := crcShifts_byte _
    _ = (c >>> 8) ^^^ crcStep 0 ((c ^^^ b.setWidth 32).setWidth 8) := by rw [hbyte]

/-! ### The two published vectors -/

theorem crc32_vector_five : crc32 [0x01, 0x02, 0x03, 0x04, 0x05] = 0x470B99F4 := by decide +kernel

theorem crc32_vector_nine : crc32 [0x31, 0x32, 0x33, 0x34, 0x35, 0x36, 0x37, 0x38, 0x39] = 0xCBF43926 := by
  decide +kernel

/-- Settles O11: the step and the fold by definition, the table-driven step by linearity, the vectors by evaluation. -/
theorem crcAlgorithm : Obligations.CrcAlgorithm :=
  ⟨fun _ _ => rfl, fun _ => rfl, crcStep_eq_table, crc32_vector_five, crc32_vector_nine⟩

/-! ### Sensitivity -/

/-- Two inputs that differ in one byte leave different registers: the step of that byte separates them, and no later step
brings two registers together. -/
theorem crcFold_set_inj {d : List Byte} {k : Nat} (hk : k < d.length) {c : Word} {b : Byte}
    (h : (d.set k b).foldl crcStep c = d.foldl crcStep c) : b = d[k] := by
  induction d generalizing k c with
  | nil => simp at hk
  | cons a d ih =>
    cases k with
    | zero => exact crcStep_byte_inj (crcFold_inj d h)
    | succ k => exact ih (Nat.lt_of_succ_lt_succ hk) h

theorem crc32_set_ne {d : List Byte} {k : Nat} (hk : k < d.length) {b : Byte} (hb : b ≠ d[k]) :
    crc32 (d.set k b) ≠ crc32 d :=
  fun h => hb (crcFold_set_inj hk ((BitVec.xor_left_inj _).mp h))

theorem bitFlip_ne (b : Byte) {j : Nat} (hj : j < 8) : b ^^^ (1#8 <<< j) ≠ b := by
  intro h
  have hbit := congrArg (fun v : Byte => v.getLsbD j) h
  simp [hj] at hbit

/-! ### The command -/

/-- Opcode 0x01 decodes only to a CRC32 whose source has the bytes it reads. -/
theorem decode_crc32_ok {slots : List Nat} {i : Instr} (h : decode (.command ⟨0x01, slots⟩) = .ok i) :
    ∃ src n, i = .crc32 src n ∧ n ≤ src.size := by
  obtain ⟨hread, hwf⟩ := checkOperands_ok h
  unfold readSrc at hread
  split at hread
  · cases hread
    exact ⟨_, _, rfl, by simpa [Instr.wf, BufRef.holds] using hwf⟩
  · cases hread

theorem execCrc32_bad {s : State} {src : BufRef} {n : Nat} (h : s.busyElsewhere = false) (hn : src.holds n = false) :
    execCrc32 src n s = .refused .badOperand := by
  rw [execCrc32, State.accept_eq h, State.checked_bad hn]

/-- Settles O12: decoding by the slots of the opcode, the answers by the laws of the command, and the sensitivity because
no two registers step to one. -/
theorem crc32Operation : Obligations.Crc32Operation := by
  refine ⟨fun _ _ => decode_crc32_ok, fun src n hn => ⟨[src.base, src.size, n], ?_⟩, fun s src n hs hn => ?_,
    fun s src n hs hn => ?_, rfl, crc32_vector_five, fun d k j hk hj => crc32_set_ne hk (bitFlip_ne _ hj)⟩
  · exact checkOperands_wf (i := .crc32 src n) (by simpa [Instr.wf, BufRef.holds] using hn)
  · exact execCrc32_eq hs (by simpa [BufRef.holds] using hn)
  · exact execCrc32_bad hs (by simpa [BufRef.holds] using hn)

end Sys2Proof.Machine

/-! PROOFS. Byte stuffing and its inverse, and the ESCSIZE command (spec/41_stuffing.md R46 to R50). -/

namespace Sys2Proof

/-! ### Reserved bytes -/

theorem reserved_iff {b : Byte} : Reserved b = true ↔ b = 0x7E ∨ b = 0x7D := by simp [Reserved, MARKER, ESCAPE]

theorem not_reserved_iff {b : Byte} : Reserved b = false ↔ b ≠ 0x7E ∧ b ≠ 0x7D := by simp [Reserved, MARKER, ESCAPE]

/-- The two flipped reserved bytes are 5E and 5D (R46). -/
theorem reserved_flip {b : Byte} (h : Reserved b = true) : Reserved (b ^^^ FLIP) = false := by
  obtain rfl | rfl := reserved_iff.mp h <;> rfl

end Sys2Proof

namespace Sys2Proof.Machine

/-! ### Stuffing -/

theorem stuff_reserved {b : Byte} (h : Reserved b = true) : stuff b = [ESCAPE, b ^^^ FLIP] := if_pos h

theorem stuff_plain {b : Byte} (h : Reserved b = false) : stuff b = [b] := if_neg (by simp [h])

/-- Only a reserved byte gives a pair, and its second byte is the flipped one. -/
theorem not_reserved_of_stuff_eq_pair {b c : Byte} (hpair : stuff b = [ESCAPE, c]) : Reserved c = false := by
  cases h : Reserved b with
  | true =>
    rw [stuff_reserved h] at hpair
    obtain rfl : b ^^^ FLIP = c := by simpa using hpair
    exact reserved_flip h
  | false => simp [stuff_plain h] at hpair

/-- Settles O13: `stuff` at a reserved and at a plain byte, a flipped reserved byte being plain. -/
theorem stuffEscapesTheReservedBytes : Obligations.StuffEscapesTheReservedBytes := fun b =>
  ⟨rfl, rfl, fun hm he => stuff_plain (not_reserved_iff.mpr ⟨hm, he⟩), marker_not_mem_stuff b,
    fun _ hpair => not_reserved_iff.mp (not_reserved_of_stuff_eq_pair hpair)⟩

theorem stuffSeq_append (d e : List Byte) : stuffSeq (d ++ e) = stuffSeq d ++ stuffSeq e := List.flatMap_append

/-- Settles O14: `stuffSeq` maps each byte and concatenates; its length is summed byte by byte. -/
theorem stuffSeqIsByteByByte : Obligations.StuffSeqIsByteByByte := fun b d e =>
  ⟨rfl, stuffSeq_cons b d, stuffSeq_append d e, stuffSeq_length d⟩

/-! ### Unstuffing -/

@[simp] theorem unstuff_pending (b : Byte) : unstuff true b = (false, some (b ^^^ FLIP)) := rfl

@[simp] theorem unstuff_escape : unstuff false ESCAPE = (true, none) := rfl

theorem unstuff_plain {b : Byte} (h : b ≠ ESCAPE) : unstuff false b = (false, some b) := by simp [unstuff, h]

/-- The decoder takes a stuffed byte, one wire byte or two, as one data byte: the second flip undoes the first. -/
theorem unstuffSeq_stuff_append (b : Byte) (l : List Byte) :
    unstuffSeq false (stuff b ++ l) = ((unstuffSeq false l).1, b :: (unstuffSeq false l).2) := by
  cases h : Reserved b with
  | true => simp [stuff_reserved h, unstuffSeq]
  | false => simp [stuff_plain h, unstuffSeq, unstuff_plain (not_reserved h).2]

theorem unstuffSeq_stuffSeq (d : List Byte) : unstuffSeq false (stuffSeq d) = (false, d) := by
  induction d with
  | nil => rfl
  | cons b d ih => rw [stuffSeq_cons, unstuffSeq_stuff_append, ih]

/-- Settles O16: the three cases by definition, the inverse by induction on the data bytes. -/
theorem unstuffInvertsStuff : Obligations.UnstuffInvertsStuff :=
  ⟨fun b => ⟨unstuff_pending b, unstuff_escape, unstuff_plain⟩, unstuffSeq_stuffSeq⟩

/-- The flip takes 5E to 7E, and no other byte. -/
theorem flip_eq_marker_iff {b : Byte} : b ^^^ FLIP = 0x7E ↔ b = 0x5E :=
  BitVec.xor_left_inj (x := b) (y := 0x5E) FLIP

/-- With no escape pending the data byte is the wire byte itself, if there is one. -/
theorem unstuff_eq_marker_iff {ep : Bool} {b : Byte} (hb : b ≠ 0x7E) :
    (unstuff ep b).2 = some 0x7E ↔ ep = true ∧ b = 0x5E := by
  cases ep with
  | true => simp only [unstuff_pending, Option.some_inj, flip_eq_marker_iff, true_and]
  | false =>
    by_cases he : b = ESCAPE
    · simp [he]
    · simpa [unstuff_plain he] using hb

theorem Inst.pByte_marker (i : Inst) : i.pByte MARKER = ⟨i.regs.markerStep, none, false⟩ := if_pos rfl

/-- Settles O17: the marker test comes first in `P_BYTE`, and only the flip of 5E gives 7E. -/
theorem markerValueArrivesOnlyEscaped : Obligations.MarkerValueArrivesOnlyEscaped :=
  ⟨Inst.pByte_marker, fun _ _ hb => unstuff_eq_marker_iff hb⟩

/-! ### The size of a stuffed sequence -/

theorem escSize_all_reserved {d : List Byte} (h : ∀ b ∈ d, Reserved b = true) : escSize d = 2 * d.length := by
  rw [escSize, List.countP_eq_length.mpr h]; omega

theorem escSize_none_reserved {d : List Byte} (h : ∀ b ∈ d, Reserved b = false) : escSize d = d.length := by
  rw [escSize, List.countP_eq_zero.mpr fun b hb => by simp [h b hb], Nat.add_zero]

theorem escSize_bytes (s : State) (base n : Nat) : escSize (s.bytes base n) =
    n + ((List.range n).filter fun k => s.read (base + k) = 0x7E ∨ s.read (base + k) = 0x7D).length := by
  have hcount : (s.bytes base n).countP Reserved =
      (List.range n).countP fun k => s.read (base + k) = 0x7E ∨ s.read (base + k) = 0x7D := by
    rw [State.bytes, List.countP_map]
    exact List.countP_congr fun k _ => by simp [reserved_iff]
  rw [escSize, hcount, List.countP_eq_length_filter, State.bytes, List.length_map, List.length_range]

/-! ### The command -/

/-- The slots of a source give its command, checked. -/
theorem checkOperands_readSrc_ok {k : BufRef → Nat → Instr} {slots : List Nat} {i : Instr}
    (h : checkOperands (readSrc k slots) = .ok i) : ∃ src n, i = k src n ∧ (k src n).wf = true := by
  obtain ⟨hread, hwf⟩ := checkOperands_ok h
  unfold readSrc at hread
  split at hread
  · cases hread
    exact ⟨_, _, rfl, hwf⟩
  · cases hread

/-- Opcode 0x02 decodes only to an ESCSIZE whose source has the bytes it reads. -/
theorem decode_escsize_ok {slots : List Nat} {i : Instr} (h : decode (.command ⟨0x02, slots⟩) = .ok i) :
    ∃ src n, i = .escsize src n ∧ n ≤ src.size := by
  obtain ⟨src, n, rfl, hwf⟩ := checkOperands_readSrc_ok h
  exact ⟨src, n, rfl, by simpa [Instr.wf, BufRef.holds] using hwf⟩

theorem execEscsize_bad {s : State} {src : BufRef} {n : Nat} (h : s.busyElsewhere = false) (hn : src.holds n = false) :
    execEscsize src n s = .refused .badOperand := by
  rw [execEscsize, State.accept_eq h, State.checked_bad hn]

/-- Settles O15: decoding by the slots of the opcode, the answers by the laws of the command, and the bounds because
`escSize` adds the number of reserved bytes to the length. -/
theorem escsizeOperation : Obligations.EscsizeOperation := by
  refine ⟨fun _ _ => decode_escsize_ok, fun src n hn => ⟨[src.base, src.size, n], ?_⟩, fun s src n hs hn => ?_,
    fun s src n hs hn => ?_, fun d => ⟨length_le_escSize d, escSize_le d, fun h => ?_, fun h => ?_⟩, rfl, rfl, rfl⟩
  · exact checkOperands_wf (i := .escsize src n) (by simpa [Instr.wf, BufRef.holds] using hn)
  · rw [← escSize_bytes]
    exact execEscsize_eq hs (by simpa [BufRef.holds] using hn)
  · exact execEscsize_bad hs (by simpa [BufRef.holds] using hn)
  · exact escSize_all_reserved fun b hb => reserved_iff.mpr (h b hb)
  · exact escSize_none_reserved fun b hb => not_reserved_iff.mpr (h b hb)

end Sys2Proof.Machine

/-! PROOFS. FrameSize, and the ENC_BUF command (spec/42_encoder.md R53 to R55). -/

namespace Sys2Proof.Machine

/-! ### The size of a frame -/

theorem escSize_reverse (d : List Byte) : escSize d.reverse = escSize d := by
  rw [escSize, escSize, List.length_reverse, List.countP_reverse]

theorem lenBytes_BE (l : BitVec 16) : lenBytes .BE l = (lenBytes .LE l).reverse := rfl

theorem crcBytes_BE (c : Word) : crcBytes .BE c = (crcBytes .LE c).reverse := rfl

/-- Each field's bytes under BE are those under LE reversed, and `escSize` does not depend on their order (R53). -/
theorem frameSize_order (p : List Byte) : frameSize .LE p = frameSize .BE p := by
  rw [frameSize, frameSize, lenBytes_BE, crcBytes_BE, escSize_reverse, escSize_reverse]

theorem frameSize_le (o : ByteOrder) (p : List Byte) : frameSize o p ≤ 1 + 4 + 2 * p.length + 8 := by
  have hlen := escSize_le (lenBytes o (BitVec.ofNat 16 p.length))
  have hpay := escSize_le p
  have hcrc := escSize_le (crcBytes o (crc32 p))
  rw [lenBytes_length] at hlen
  rw [crcBytes_length] at hcrc
  unfold frameSize
  omega

/-- No byte of the greatest length field is reserved, and every shorter payload leaves room for two that are (R38). -/
theorem frameSize_le_max (o : ByteOrder) {p : List Byte} (hp : p.length ≤ 65535) : frameSize o p ≤ 131081 := by
  by_cases hmax : p.length = 65535
  · have hlen : escSize (lenBytes o (BitVec.ofNat 16 p.length)) = 2 := by rw [hmax]; cases o <;> rfl
    have hpay := escSize_le p
    have hcrc := escSize_le (crcBytes o (crc32 p))
    rw [crcBytes_length] at hcrc
    unfold frameSize
    omega
  · have hle := frameSize_le o p
    omega

theorem frameBytes_nil (o : ByteOrder) : frameBytes o [] = [0x7E, 0x00, 0x00, 0x00, 0x00, 0x00, 0x00] := by
  cases o <;> decide

theorem frameSize_eq_seven_iff (o : ByteOrder) (p : List Byte) : frameSize o p = 7 ↔ p = [] := by
  constructor
  · intro h
    have hge := frameSize_ge o p
    exact List.eq_nil_of_length_eq_zero (by omega)
  · rintro rfl
    rw [← frameBytes_length, frameBytes_nil]
    rfl

/-- Settles O21: the sum by definition, then the length, the two orders and the bounds of each field's stuffed size. -/
theorem frameSizeIsTheLength : Obligations.FrameSizeIsTheLength := by
  intro o p
  exact ⟨rfl, (frameBytes_length o p).symm, frameSize_order p, frameSize_ge o p, frameSize_le o p,
    frameSize_eq_seven_iff o p, frameBytes_nil o, frameSize_le_max o⟩

/-! ### ENC_BUF -/

section encBuf

variable {s t : State} {src dst : BufRef} {len : BitVec 16} {cap : Nat} {o : ByteOrder} {p : List Byte} {i : Inst}

/-- The state that an ENC_BUF of the frame `f` to `base` leaves. -/
def State.frameWritten (s : State) (base : Nat) (f : List Byte) : State :=
  (s.setMem (s.mem.writeBytes base f)).report .OK (some (.count f.length))

theorem encBufInto_short (h : cap < frameSize o p) :
    encBufInto s o p dst cap = .next (s.report .BUFFER_TOO_SMALL (some (.count 0))) := if_pos (.inr h)

/-- A destination that holds the frame passes both size tests: no frame is shorter than 7 bytes. -/
theorem encBufInto_fits (h : frameSize o p ≤ cap) :
    encBufInto s o p dst cap = writeFrame s dst.base (frameBytes o p) (frameSize o p) := by
  have hge := frameSize_ge o p
  exact if_neg (by omega)

/-- The check of R55 always passes: the computed size is the frame's length. -/
theorem writeFrame_unlent {base : Nat} (h : s.lentTo ⟨base, frameSize o p⟩ = false) :
    writeFrame s base (frameBytes o p) (frameSize o p) = .next (s.frameWritten base (frameBytes o p)) := by
  simp only [writeFrame, State.frameWritten, frameBytes_length, h, Bool.false_eq_true, if_false, if_true]

theorem writeFrame_lent {base : Nat} (h : s.lentTo ⟨base, frameSize o p⟩ = true) :
    writeFrame s base (frameBytes o p) (frameSize o p) = .refused .lentBufferWritten := by
  rw [writeFrame, frameBytes_length, if_pos h]

theorem execEncBuf_eq (h : s.busyElsewhere = false) (hn : src.holds len.toNat = true) (hd : dst.holds cap = true)
    (hi : s.inst s.cur.port = some i) (hz : encBufHazard s (src.first len.toNat) (dst.first cap) = false) :
    execEncBuf src len dst cap s = encBufInto s i.pOrder (s.srcBytes src len.toNat) dst cap := by
  rw [execEncBuf, State.accept_eq h, State.checked_eq (by rw [hn, hd]; rfl), State.withInst_eq hi, hz]
  rfl

/-- An ENC_BUF into a destination that holds the frame, if it answers next, has written it. -/
theorem execEncBuf_next_fits (h : execEncBuf src len dst cap s = .next t) (hi : s.inst s.cur.port = some i)
    (hc : frameSize i.pOrder (s.srcBytes src len.toNat) ≤ cap) :
    t = s.frameWritten dst.base (frameBytes i.pOrder (s.srcBytes src len.toNat)) := by
  obtain ⟨-, h⟩ := State.accept_next h
  obtain ⟨-, h⟩ := State.checked_next h
  rw [State.withInst_eq hi, encBufInto_fits hc] at h
  split at h
  · cases h
  · cases hl : s.lentTo ⟨dst.base, frameSize i.pOrder (s.srcBytes src len.toNat)⟩ with
    | true => rw [writeFrame_lent hl] at h; cases h
    | false => rw [writeFrame_unlent hl] at h; cases h; rfl

end encBuf

/-- Settles O22: the tests pass, and then by whether the frame fits and whether its bytes of the destination are lent. -/
theorem encBufOperation : Obligations.EncBufOperation := by
  intro s src dst len cap i hbusy hi hn hd hz p size
  have hx : exec (.encBuf src len dst cap) s = encBufInto s i.pOrder p dst cap :=
    execEncBuf_eq hbusy (by simpa [BufRef.holds] using hn) (by simpa [BufRef.holds] using hd) hi hz
  refine ⟨fun hc => ?_, fun hc hl => ?_, fun hc hl => ?_⟩
  · rw [hx, encBufInto_short hc]
    rfl
  · refine ⟨s.mem.writeBytes dst.base (frameBytes i.pOrder p), ?_,
      fun k hk => Memory.read_writeBytes s.mem dst.base _ hk, fun a ha => Memory.read_writeBytes_other _ _ _ ?_⟩
    · rw [hx, encBufInto_fits hc, writeFrame_unlent hl, State.frameWritten, frameBytes_length]
      rfl
    · rwa [frameBytes_length]
  · rw [hx, encBufInto_fits hc, writeFrame_lent hl]

end Sys2Proof.Machine

/-! PROOFS. The ENC_SINK command: its first answer, its run, and its agreement with ENC_BUF (spec/42_encoder.md R56 to
R58). -/

namespace Sys2Proof.Machine

variable {s u z : State} {t p : Nat} {src : BufRef} {n : Nat} {len : BitVec 16} {flush : Bool} {fc : FlushCheck} {i : Inst}

/-! ### The first answer -/

/-- ENC_SINK finds a sink missing before it emits anything (R56, R57). -/
def missingAtFirst (fc : FlushCheck) (i : Inst) (flush : Bool) : Bool :=
  !i.hasByteSink || flush && !i.hasFlushSink && decide (fc = .UPFRONT)

theorem encSinkWith_missing (h : missingAtFirst fc i flush = true) :
    encSinkWith fc i src len flush s = s.report .CALLBACK_MISSING none := by
  unfold encSinkWith
  split
  · rfl
  · next hb =>
    have hf : (flush && !i.hasFlushSink && decide (fc = .UPFRONT)) = true := by
      rw [missingAtFirst, Bool.or_eq_true] at h
      exact h.resolve_left hb
    rw [if_pos hf]

theorem encSinkWith_begins (h : missingAtFirst fc i flush = false) : encSinkWith fc i src len flush s =
    s.continueSink s.cur.port src len.toNat (sinkEvents i (s.srcBytes src len.toNat) flush) (sinkStatus i flush) := by
  obtain ⟨hb, hf⟩ := Bool.or_eq_false_iff.mp h
  simp only [encSinkWith, hb, hf, Bool.false_eq_true, if_false]

/-- The events of an ENC_SINK begin with the marker. -/
theorem sinkEvents_cons (i : Inst) (q : List Byte) (flush : Bool) : sinkEvents i q flush = .onByte 0x7E i.ctx ::
    (((frameBytes i.pOrder q).drop 1).map (Event.onByte · i.ctx) ++
      if flush && i.hasFlushSink then [Event.onFlush i.ctx] else []) := rfl

/-- `u` is `s` with the first event of an ENC_SINK emitted and the events `todo` still to come. -/
def State.SinkBegun (s u : State) (src : BufRef) (n : Nat) (e : Event) (todo : List Event) (final : Status) : Prop :=
  u.out = s.out ++ outputs s.cur.thread s.cur.port s.stack.length [.event e] ∧
    u.stack = ⟨s.cur.port, .sink src n todo final, true⟩ :: s.stack ∧ u.insts = s.insts ∧ u.mem = s.mem ∧
    u.input = s.input ∧ u.cur = s.cur ∧ ∀ v, v ≠ s.cur.thread → u.stackOf v = s.stackOf v

theorem State.continueSink_begun (e : Event) (todo : List Event) (final : Status) :
    s.SinkBegun (s.continueSink s.cur.port src n (e :: todo) final) src n e todo final :=
  ⟨rfl, State.emitAndWait_stack _ _ _, rfl, rfl, rfl, rfl, fun _ hv => State.continueSink_stackOf_other _ _ _ _ _ hv⟩

/-- Settles O24: by whether a sink is found missing at first; the events otherwise begin with the marker. -/
theorem encSinkBegins : Obligations.EncSinkBegins := by
  intro s src len flush i hbusy hi hn q missing started bytes
  have hx : exec (.encSink src len flush) s = .next (encSinkWith Config.pFlushCheck i src len flush s) :=
    execEncSink_eq hbusy (by simpa [BufRef.holds] using hn) hi
  have hmissing : missingAtFirst Config.pFlushCheck i flush = true → missing := fun h => by
    show exec _ s = _
    rw [hx, encSinkWith_missing h]
    rfl
  have hstarted : missingAtFirst Config.pFlushCheck i flush = false →
      started (bytes ++ if flush && i.hasFlushSink then [Event.onFlush i.ctx] else []) (sinkStatus i flush) := fun h => by
    refine ⟨_, hx, ?_⟩
    rw [encSinkWith_begins h, sinkEvents_cons]
    exact State.continueSink_begun _ _ _
  refine ⟨fun hb => hmissing (by simp [missingAtFirst, hb]), fun hb hf => ?_, fun hb hf hs => ?_, fun hb hf hs => ?_⟩
  · simpa [hf, sinkStatus] using hstarted (by simp [missingAtFirst, hb, hf])
  · simpa [hf, hs, sinkStatus] using hstarted (by simp [missingAtFirst, hb, hs])
  · cases hc : Config.pFlushCheck with
    | UPFRONT => exact hmissing (by simp [missingAtFirst, hf, hs, hc])
    | AT_FLUSH => simpa [hf, hs, sinkStatus] using hstarted (by simp [missingAtFirst, hb, hc])

/-! ### The run -/

/-- `u` is `s` after the items `xs` were put out for a thread at a port, with memory, instances and operations in progress as
before. -/
structure State.PutOut (s u : State) (t p : Nat) (xs : List Item) : Prop where
  out : u.out = s.out ++ outputs t p (s.stackOf t).length xs
  mem : u.mem = s.mem
  insts : u.insts = s.insts
  stackOf : ∀ v, u.stackOf v = s.stackOf v

theorem State.PutOut.trans {xs ys : List Item} (h1 : s.PutOut z t p xs) (h2 : z.PutOut u t p ys) :
    s.PutOut u t p (xs ++ ys) where
  out := by rw [h2.out, h1.out, h1.stackOf, outputs, outputs, outputs, List.map_append, List.append_assoc]
  mem := h2.mem.trans h1.mem
  insts := h2.insts.trans h1.insts
  stackOf v := (h2.stackOf v).trans (h1.stackOf v)

theorem State.report_putOut (ht : s.cur = ⟨t, p⟩) (st : Status) : s.PutOut (s.report st none) t p [.result st none] where
  out := by simp [outputs, State.stack, ht]
  mem := rfl
  insts := rfl
  stackOf _ := rfl

theorem State.resume_stackOf (s : State) (port : Nat) (below : List Frame) (v : Nat) :
    (s.resume port below).stackOf v = if v = s.cur.thread then below else s.stackOf v := by
  simp [State.resume, State.setStack_stackOf]

/-- When the host has taken an event of an ENC_SINK, the operation goes on from where it stood before, but for the event. -/
theorem step_sinkEvent {rest : List HostInput} (ht : s.cur = ⟨t, p⟩) (hin : s.input = .handlerReturn t :: rest)
    (e : Event) (todo : List Event) (final : Status) :
    ∃ z : State, step (s.continueSink p src n (e :: todo) final) = .next (z.continueSink p src n todo final) ∧
      z.cur = ⟨t, p⟩ ∧ z.input = rest ∧ s.PutOut z t p [.event e] := by
  have hown : s.stack = s.stackOf t := by rw [State.stack, ht]
  have hwaits : (s.emitAndWait e ⟨p, .sink src n todo final, true⟩).stackOf t =
      ⟨p, .sink src n todo final, true⟩ :: s.stackOf t := by
    rw [State.emitAndWait_stackOf, if_pos (by rw [ht]), hown]
  refine ⟨_, step_handlerReturn (s := s.emitAndWait e _) hin hwaits, by simp, by simp, by simp [hown, ht, outputs], by simp,
    by simp, fun v => ?_⟩
  by_cases hv : v = t
  · simp [State.resume_stackOf, hv]
  · simp [State.resume_stackOf, State.emitAndWait_stackOf, ht, hv]

/-- An ENC_SINK whose events the host takes one after another emits them all and ends with its status. -/
theorem runSteps_continueSink (todo : List Event) (final : Status) (ht : s.cur = ⟨t, p⟩)
    (hin : s.input = returns t todo.length) :
    ∃ u, runSteps todo.length (s.continueSink p src n todo final) = .next u ∧ u.input = [] ∧
      s.PutOut u t p (todo.map Item.event ++ [.result final none]) := by
  induction todo generalizing s with
  | nil => exact ⟨_, rfl, hin, State.report_putOut ht final⟩
  | cons e es ih =>
    obtain ⟨z, hstep, hzt, hzin, hfirst⟩ := step_sinkEvent (src := src) (n := n) ht hin e es final
    obtain ⟨u, hrun, huin, hrest⟩ := ih hzt hzin
    exact ⟨u, (runSteps_next hstep).trans hrun, huin, hfirst.trans hrest⟩

/-- What an ENC_SINK of the payload `q` puts out in all, with `P_FLUSH_CHECK` as an argument. -/
def sinkItems (fc : FlushCheck) (i : Inst) (q : List Byte) (flush : Bool) : List Item :=
  if missingAtFirst fc i flush then [.result .CALLBACK_MISSING none]
  else (sinkEvents i q flush).map Item.event ++ [.result (sinkStatus i flush) none]

theorem sinkItems_missing {q : List Byte} (h : missingAtFirst fc i flush = true) :
    sinkItems fc i q flush = [.result .CALLBACK_MISSING none] := if_pos h

theorem sinkItems_begins {q : List Byte} (h : missingAtFirst fc i flush = false) :
    sinkItems fc i q flush = (sinkEvents i q flush).map Item.event ++ [.result (sinkStatus i flush) none] :=
  if_neg (by simp [h])

theorem runSteps_encSinkWith {k : Nat} (hk : (sinkItems fc i (s.srcBytes src len.toNat) flush).length = k + 1)
    (ht : s.cur = ⟨t, p⟩) (hin : s.input = returns t k) :
    ∃ u, runSteps k (encSinkWith fc i src len flush s) = .next u ∧ u.input = [] ∧
      s.PutOut u t p (sinkItems fc i (s.srcBytes src len.toNat) flush) := by
  cases hmiss : missingAtFirst fc i flush with
  | true =>
    rw [sinkItems_missing hmiss] at hk ⊢
    obtain rfl : k = 0 := by simpa using hk.symm
    rw [encSinkWith_missing hmiss]
    exact ⟨_, rfl, hin, State.report_putOut ht _⟩
  | false =>
    rw [sinkItems_begins hmiss] at hk ⊢
    obtain rfl : (sinkEvents i (s.srcBytes src len.toNat) flush).length = k := by simpa using hk
    rw [encSinkWith_begins hmiss, ht]
    exact runSteps_continueSink _ _ ht hin

/-- The run of an ENC_SINK that the host issues, from its command to its status. -/
theorem runSteps_encSink {k : Nat} (hk : (sinkItems Config.pFlushCheck i (s.srcBytes src len.toNat) flush).length = k + 1)
    (hi : s.inst p = some i) (hn : len.toNat ≤ src.size)
    (hs : s.Issues t p ⟨0x11, [src.base, src.size, len.toNat, bitCode flush]⟩ (returns t k)) :
    ∃ u, runSteps (k + 1) s = .next u ∧ u.input = [] ∧
      s.PutOut u t p (sinkItems Config.pFlushCheck i (s.srcBytes src len.toNat) flush) := by
  have hheld : src.holds len.toNat = true := by simpa [BufRef.holds] using hn
  have hdecode := decodeOfEncodeIsTheInstruction (.encSink src len flush) hheld
  have hstep := (step_command hs.input hs.ready hdecode).trans (execEncSink_eq hs.alone hheld hi)
  obtain ⟨u, hrun, hin, hput⟩ := runSteps_encSinkWith (s := s.serving (returns t k) t p) hk rfl rfl
  exact ⟨u, (runSteps_next hstep).trans hrun, hin, hput.out, hput.mem, hput.insts, hput.stackOf⟩

theorem exists_bitCode {flag : Nat} (h : flag ≤ 1) : ∃ f, flag = bitCode f := by
  obtain rfl | rfl : flag = 0 ∨ flag = 1 := by omega
  · exact ⟨false, rfl⟩
  · exact ⟨true, rfl⟩

/-- The frame's `on_byte` events as items. -/
def byteItems (i : Inst) (q : List Byte) : List Item := (frameBytes i.pOrder q).map fun b => .event (.onByte b i.ctx)

/-- The cases of R56's pseudocode, in its order. -/
theorem sinkItems_eq (fc : FlushCheck) (i : Inst) (q : List Byte) (flush : Bool) : sinkItems fc i q flush =
    if i.hasByteSink = false then [.result .CALLBACK_MISSING none]
    else if bitCode flush = 0 then byteItems i q ++ [.result .OK none]
    else if i.hasFlushSink = true then byteItems i q ++ [.event (.onFlush i.ctx), .result .OK none]
    else match fc with
      | .UPFRONT => [.result .CALLBACK_MISSING none]
      | .AT_FLUSH => byteItems i q ++ [.result .CALLBACK_MISSING none] := by
  unfold sinkItems missingAtFirst sinkEvents sinkStatus byteItems
  cases i.hasByteSink
  · rfl
  · cases flush
    · simp [bitCode]
    · cases i.hasFlushSink
      · cases fc <;> simp [bitCode]
      · simp [bitCode]

theorem sinkItems_length_pos (fc : FlushCheck) (i : Inst) (q : List Byte) (flush : Bool) :
    0 < (sinkItems fc i q flush).length := by
  unfold sinkItems
  split <;> simp

/-- Settles O25: the run puts out `sinkItems`, which are the items of R56's cases. -/
theorem encSinkRunEmitsTheFrame : Obligations.EncSinkRunEmitsTheFrame := by
  intro s t p flag src len i hflag hi hn bytes items hs
  obtain ⟨flush, rfl⟩ := exists_bitCode hflag
  have hitems : sinkItems Config.pFlushCheck i (s.srcBytes src len.toNat) flush = items := sinkItems_eq _ _ _ _
  have hpos := sinkItems_length_pos Config.pFlushCheck i (s.srcBytes src len.toNat) flush
  have hlen : items.length = items.length - 1 + 1 := by rw [hitems] at hpos; omega
  obtain ⟨u, hrun, hin, hput⟩ := runSteps_encSink ((congrArg List.length hitems).trans hlen) hi hn hs
  rw [hitems] at hput
  rw [hlen]
  exact ⟨u, hrun, hput.out, hput.mem, hput.insts, hin, hput.stackOf⟩

/-! ### Agreement with ENC_BUF -/

theorem byteEvents_outputs_byteItems (i : Inst) (q : List Byte) (d : Nat) (xs : List Item) :
    byteEvents (outputs t p d (byteItems i q ++ xs)) = frameBytes i.pOrder q ++ byteEvents (outputs t p d xs) := by
  simp [byteEvents, outputs, byteItems, List.filterMap_map, Function.comp_def]

/-- With the sinks it needs, an ENC_SINK puts out one item for each byte of the frame, one for the flush if it was asked for,
and one for its status. -/
theorem sinkItems_of_sinks (fc : FlushCheck) {q : List Byte} (hb : i.hasByteSink = true)
    (hf : flush = true → i.hasFlushSink = true) : ∃ xs, sinkItems fc i q flush = byteItems i q ++ xs ∧
      xs.length = bitCode flush + 1 ∧ ∀ t p d, byteEvents (outputs t p d xs) = [] := by
  cases flush with
  | false => exact ⟨[.result .OK none], by simp [sinkItems_eq, hb, bitCode], rfl, fun _ _ _ => rfl⟩
  | true =>
    exact ⟨[.event (.onFlush i.ctx), .result .OK none], by simp [sinkItems_eq, hb, hf rfl, bitCode], rfl,
      fun _ _ _ => rfl⟩

/-- Settles O26: ENC_BUF leaves the frame in memory, and the run of ENC_SINK puts out the same frame. -/
theorem encBufAndEncSinkAgree : Obligations.EncBufAndEncSinkAgree := by
  intro s t1 t p flag src dst len cap i hi hb hflag hf hn size hs hx hc
  obtain ⟨flush, rfl⟩ := exists_bitCode hflag
  obtain ⟨xs, hitems, hxs, hnone⟩ := sinkItems_of_sinks (flush := flush) Config.pFlushCheck
    (q := s.srcBytes src len.toNat) hb fun h => hf (by rw [h]; rfl)
  have hk : (sinkItems Config.pFlushCheck i (s.srcBytes src len.toNat) flush).length = size + bitCode flush + 1 := by
    rw [hitems, List.length_append, hxs, byteItems, List.length_map, frameBytes_length, Nat.add_assoc]
  obtain ⟨u, hrun, -, hput⟩ := runSteps_encSink hk hi hn hs
  have hframe : t1.mem.bytes dst.base size = frameBytes i.pOrder (s.srcBytes src len.toNat) := by
    have hbuf := Memory.bytes_writeBytes s.mem dst.base (frameBytes i.pOrder (s.srcBytes src len.toNat))
    rw [frameBytes_length] at hbuf
    rw [execEncBuf_next_fits hx hi hc]
    exact hbuf
  refine ⟨u, hrun, ?_, hframe⟩
  rw [hframe, hput.out, List.drop_left, hitems, byteEvents_outputs_byteItems, hnone, List.append_nil]

end Sys2Proof.Machine

/-! PROOFS. SIZE_MISMATCH is unreachable, as a fault and as a status (spec/42_encoder.md R55). -/

namespace Sys2Proof.Machine

variable {s t : State}

/-! ### No fault -/

/-- Every answer but a fault. -/
def NoFault (a : Answer) : Prop := ∀ e, a ≠ .fault e

@[simp] theorem noFault_next (u : State) : NoFault (.next u) := fun _ h => by cases h

@[simp] theorem noFault_refused (r : Refusal) : NoFault (.refused r) := fun _ h => by cases h

theorem NoFault.ite {c : Prop} [Decidable c] {a b : Answer} (ha : NoFault a) (hb : NoFault b) :
    NoFault (if c then a else b) := by split <;> assumption

/-- The tests before a command's effect refuse or go on. -/
theorem State.checked_noFault {ok : Bool} {k : State → Answer} (h : NoFault (k s)) : NoFault (s.checked ok k) :=
  .ite h (noFault_refused _)

theorem State.accept_noFault {ok : Bool} {k : State → Answer} (h : NoFault (k s)) :
    NoFault (s.accept fun s => s.checked ok k) := .ite (noFault_refused _) (State.checked_noFault h)

theorem State.acceptOutside_noFault {k : State → Answer} (h : NoFault (k s)) : NoFault (s.acceptOutside k) :=
  .ite (noFault_refused _) (.ite (noFault_refused _) h)

theorem State.withInst_noFault {k : Inst → Answer} (h : ∀ i, NoFault (k i)) : NoFault (s.withInst k) := by
  cases hi : s.inst s.cur.port with
  | none => rw [State.withInst_none hi]; exact noFault_refused _
  | some i => rw [State.withInst_eq hi]; exact h i

/-- The check of R55 passes, whatever is written where. -/
theorem writeFrame_noFault (base : Nat) (o : ByteOrder) (p : List Byte) :
    NoFault (writeFrame s base (frameBytes o p) (frameSize o p)) := by
  rw [writeFrame, if_pos (frameBytes_length o p)]
  exact .ite (noFault_refused _) (noFault_next _)

theorem encBufInto_noFault (o : ByteOrder) (p : List Byte) (dst : BufRef) (cap : Nat) :
    NoFault (encBufInto s o p dst cap) := .ite (noFault_next _) (writeFrame_noFault _ _ _)

theorem State.onFeed_noFault (eff : Inst → ByteEffect) : NoFault (s.onFeed eff) := by
  unfold State.onFeed
  split
  · split
    · unfold State.finishByte
      split
      · exact noFault_refused _
      · exact noFault_next _
    · exact noFault_refused _
  · exact noFault_refused _

theorem exec_noFault (op : Instr) (s : State) : NoFault (exec op s) := by
  cases op with
  | crc32 src n => exact State.accept_noFault (noFault_next _)
  | escsize src n => exact State.accept_noFault (noFault_next _)
  | encBuf src len dst cap =>
    exact State.accept_noFault (State.withInst_noFault fun _ => .ite (noFault_refused _) (encBufInto_noFault _ _ _ _))
  | encSink src len flush => exact State.accept_noFault (State.withInst_noFault fun _ => noFault_next _)
  | pInit o rx cap hp hb hf c =>
    apply State.acceptOutside_noFault
    exact State.checked_noFault (noFault_next _)
  | pFeed src n =>
    apply State.acceptOutside_noFault
    exact State.checked_noFault (State.withInst_noFault fun _ => .ite (noFault_refused _) (noFault_next _))
  | marker => exact State.onFeed_noFault _
  | noise b => exact State.onFeed_noFault _
  | escapedData b => exact State.onFeed_noFault _
  | escape => exact State.onFeed_noFault _
  | data b => exact State.onFeed_noFault _

theorem runWord_noFault (w : Encoded) (s : State) : NoFault (runWord w s) := by
  unfold runWord
  split
  · exact exec_noFault _ _
  · exact noFault_refused _
  · exact noFault_refused _

theorem State.handlerReturn_noFault (s : State) : NoFault s.handlerReturn := by
  unfold State.handlerReturn
  split
  · split <;> exact noFault_next _
  · exact noFault_refused _

theorem step_noFault (s : State) : NoFault (step s) := by
  unfold step
  split
  · exact noFault_next _
  · exact runWord_noFault _ _
  · exact State.handlerReturn_noFault _
  · exact .ite (noFault_refused _) (.ite (noFault_refused _) (noFault_next _))
  · exact State.acceptOutside_noFault (noFault_next _)
  · exact noFault_refused _

/-! ### No status -/

/-- From `s` to `t` items were put out, none of them the status SIZE_MISMATCH. -/
def State.NoMismatch (s t : State) : Prop :=
  ∃ xs, t.out = s.out ++ xs ∧ ∀ o ∈ xs, ∀ v, o.item ≠ .result .SIZE_MISMATCH v

theorem State.NoMismatch.of_out (h : t.out = s.out) : s.NoMismatch t := ⟨[], by simp [h], by simp⟩

theorem State.NoMismatch.of_item {th port d : Nat} {x : Item} (h : t.out = s.out ++ outputs th port d [x])
    (hx : ∀ v, x ≠ .result .SIZE_MISMATCH v) : s.NoMismatch t := ⟨_, h, by simpa [outputs] using hx⟩

theorem State.NoMismatch.of_event {th port d : Nat} {e : Event} (h : t.out = s.out ++ outputs th port d [.event e]) :
    s.NoMismatch t := .of_item h (by simp)

theorem State.NoMismatch.report {st : Status} (v : Option Value) (h : st ≠ .SIZE_MISMATCH) : s.NoMismatch (s.report st v) :=
  .of_item rfl (by simp [h])

theorem State.NoMismatch.continueFeed (port : Nat) (src : BufRef) (n pos : Nat) :
    s.NoMismatch (s.continueFeed port src n pos) := by
  by_cases h : pos < n
  · rw [State.continueFeed_more _ _ _ h]; exact .of_out rfl
  · rw [State.continueFeed_end _ _ _ h]; exact .report _ (by simp)

theorem State.NoMismatch.continueSink (port : Nat) (src : BufRef) (n : Nat) (todo : List Event) {final : Status}
    (h : final ≠ .SIZE_MISMATCH) : s.NoMismatch (s.continueSink port src n todo final) := by
  cases todo with
  | nil => exact .report _ h
  | cons e es => exact .of_event rfl

/-- A wire byte puts out an event, or the end of its P_FEED, or nothing. -/
theorem State.ByteDone.noMismatch {port n pos : Nat} {src : BufRef} {rest : List Frame} {i : Inst} {m : Memory}
    {ev : Option Event} (h : s.ByteDone t port src n pos rest i m ev) : s.NoMismatch t := by
  obtain ⟨-, -, -, -, -, -, h⟩ := h
  cases ev with
  | some e => exact .of_event h.2
  | none =>
    dsimp only at h
    split at h
    · exact .of_out h.2
    · exact .of_item h.2 (by simp)

theorem sinkStatus_ne (i : Inst) (flush : Bool) : sinkStatus i flush ≠ .SIZE_MISMATCH := by
  unfold sinkStatus
  split <;> simp

theorem encSinkWith_noMismatch (fc : FlushCheck) (i : Inst) (src : BufRef) (len : BitVec 16) (flush : Bool) (s : State) :
    s.NoMismatch (encSinkWith fc i src len flush s) := by
  cases h : missingAtFirst fc i flush with
  | true => rw [encSinkWith_missing h]; exact .report _ (by simp)
  | false => rw [encSinkWith_begins h]; exact .continueSink _ _ _ _ (sinkStatus_ne i flush)

theorem exec_noMismatch {op : Instr} (h : exec op s = .next t) : s.NoMismatch t := by
  have byte : (∀ j, (byteEffect j op).isSome) → s.NoMismatch t := fun hb => by
    obtain ⟨_, _, _, _, _, _, _, -, -, -, hdone⟩ := exec_byte_next hb h
    exact hdone.noMismatch
  cases op with
  | crc32 src n => obtain ⟨-, -, rfl⟩ := execCrc32_next h; exact .report _ (by simp)
  | escsize src n => obtain ⟨-, -, rfl⟩ := execEscsize_next h; exact .report _ (by simp)
  | encBuf src len dst cap =>
    obtain ⟨i, -, -, -, rfl | ⟨-, -, rfl⟩⟩ := execEncBuf_next h
    · exact .report _ (by simp)
    · exact .of_item rfl (by simp)
  | encSink src len flush => obtain ⟨i, -, -, -, rfl⟩ := execEncSink_next h; exact encSinkWith_noMismatch ..
  | pInit o rx cap hp hb hf c => obtain ⟨-, -, -, rfl⟩ := execPInit_next h; exact .of_item rfl (by simp)
  | pFeed src n => obtain ⟨i, -, -, -, -, -, rfl⟩ := execPFeed_next h; exact .continueFeed _ _ _ _
  | marker => exact byte fun _ => rfl
  | noise b => exact byte fun _ => rfl
  | escapedData b => exact byte fun _ => rfl
  | escape => exact byte fun _ => rfl
  | data b => exact byte fun _ => rfl

/-- Every ENC_SINK in progress will end with one of its own statuses (R56). -/
def State.SinksEndWell (s : State) : Prop := ∀ u f src n todo final, f ∈ s.stackOf u →
  f.work = .sink src n todo final → final = .OK ∨ final = .CALLBACK_MISSING

theorem State.handlerReturn_noMismatch (hs : s.SinksEndWell) (h : s.handlerReturn = .next t) : s.NoMismatch t := by
  obtain ⟨port, work, rest, hstk, rfl⟩ := State.handlerReturn_next h
  have hout : ((s.setStack rest).atPort port).out = s.out := by simp
  cases work with
  | feed src n pos =>
    have hgo := State.NoMismatch.continueFeed (s := (s.setStack rest).atPort port) port src n pos
    rwa [State.NoMismatch, hout] at hgo
  | sink src n todo final =>
    have htop : (⟨port, .sink src n todo final, true⟩ : Frame) ∈ s.stack := hstk ▸ List.mem_cons_self
    have hfinal : final ≠ .SIZE_MISMATCH := by
      rcases hs _ _ src n todo final htop rfl with rfl | rfl <;> simp
    have hgo := State.NoMismatch.continueSink (s := (s.setStack rest).atPort port) port src n todo hfinal
    rwa [State.NoMismatch, hout] at hgo

theorem step_noMismatch (hs : s.SinksEndWell) (h : step s = .next t) : s.NoMismatch t := by
  rcases step_next h with ⟨rest, -, rfl⟩ | ⟨u, q, w, rest, op, -, -, hx⟩ | ⟨u, rest, -, hx⟩ | ⟨u, a, v, rest, -, hx⟩ |
    ⟨u, q, rest, -, hx⟩
  · exact .of_out rfl
  · exact exec_noMismatch (s := s.serving rest u q) hx
  · exact State.handlerReturn_noMismatch (s := s.serving rest u s.cur.port) hs hx
  · obtain ⟨-, -, rfl⟩ := State.hostWrite_next hx
    exact .of_out rfl
  · obtain ⟨-, -, rfl⟩ := State.endInstance_next hx
    exact .of_out rfl

/-- Settles O23: no meaning and no service of an input faults, and each puts out only other statuses. -/
theorem noStepFaults : Obligations.NoStepFaults := fun s =>
  ⟨step_noFault s, fun hs _ h => step_noMismatch hs h, fun i => ⟨exec_noFault i s, fun _ h => exec_noMismatch h⟩⟩

end Sys2Proof.Machine

/-! PROOFS. P_INIT, the beginning of P_FEED, and what each wire byte class does (spec/43_parser.md R59 to R67). -/

namespace Sys2Proof.Machine

variable {s : State} {port n pos : Nat} {src : BufRef} {rest : List Frame} {i : Inst} {d : Byte} {r : Regs} {m : Memory}

/-! ### P_INIT -/

/-- Opcode 0x20 decodes only to a P_INIT whose receive buffer has the bytes of its capacity. -/
theorem decode_pInit_ok {slots : List Nat} {op : Instr} (h : decode (.command ⟨0x20, slots⟩) = .ok op) :
    ∃ order rx cap hp hb hf ctx, op = .pInit order rx cap hp hb hf ctx ∧ cap ≤ rx.size := by
  obtain ⟨hread, hwf⟩ := checkOperands_ok h
  unfold readInit at hread
  split at hread
  · split at hread
    · obtain rfl := Option.some.inj hread
      exact ⟨_, _, _, _, _, _, _, rfl, by simpa [Instr.wf, BufRef.holds] using hwf⟩
    · cases hread
  · cases hread

/-- With room for no payload byte and its checksum, every length is rejected. -/
theorem bodyState_of_small {cap : Nat} (h : cap < 5) (etl : Nat) : bodyState cap etl = .AM := if_pos (by omega)

theorem execPInit_bad {order : ByteOrder} {rx : BufRef} {cap : Nat} {hp hb hf : Bool} {ctx : Ctx}
    (h1 : s.busyElsewhere = false) (h2 : s.inOwnHandler = false) (hc : rx.holds cap = false) :
    execPInit order rx cap hp hb hf ctx s = .refused .badOperand := by
  rw [execPInit, State.acceptOutside_eq h1 h2, State.checked_bad hc]

/-- Settles O28: decoding by the slots of the opcode, and the answers by the laws of the command. -/
theorem pInitOperation : Obligations.PInitOperation := by
  refine ⟨fun _ _ => decode_pInit_ok, fun order rx cap hp hb hf ctx hc =>
      ⟨[order.code, rx.base, rx.size, cap, bitCode hp, bitCode hb, bitCode hf, ctx.handle], ?_⟩,
    fun o cap r d hc => bodyState_of_small hc _, fun s order rx cap hp hb hf ctx h1 h2 => ⟨fun hc => ?_, fun hc => ?_⟩⟩
  · exact decodeOfEncodeIsTheInstruction (.pInit order rx cap hp hb hf ctx) (by simpa [Instr.wf, BufRef.holds] using hc)
  · refine ⟨_, execPInit_eq h1 h2 (by simpa [BufRef.holds] using hc), ⟨_, State.setInst_inst_same _ _ _, ?_⟩,
      fun q hq => ?_, rfl, rfl, rfl, rfl, rfl⟩
    · exact ⟨rfl, rfl, rfl, rfl, rfl, rfl, rfl, rfl⟩
    · simp [State.setInst_inst, hq]
  · exact execPInit_bad h1 h2 (by simpa [BufRef.holds] using hc)

/-! ### P_FEED -/

/-- Settles O30: a P_FEED goes on from byte 0, to its end when there is none. -/
theorem pFeedBegins : Obligations.PFeedBegins := by
  intro s src n i h1 h2 hi hn hd
  have hx : exec (.pFeed src n) s = _ := execPFeed_eq h1 h2 (by simpa [BufRef.holds] using hn) hi hd
  refine ⟨fun hzero => ?_, fun hpos => ?_⟩
  · rw [hx, State.continueFeed_end _ _ _ (by omega)]
    rfl
  · rw [hx, State.continueFeed_more _ _ _ hpos]
    exact ⟨_, rfl, State.push_stack _ _, rfl, rfl, rfl, rfl, rfl, fun u hu => by simp [State.push_stackOf, hu]⟩

/-! ### Bytes that store nothing and complete no frame -/

/-- A byte that only changes registers. -/
theorem exec_byte_quiet {op : Instr} (h : s.AtByte port src n pos rest i) (he : byteEffect i op = some ⟨r, none, false⟩) :
    ∃ t, exec op s = .next t ∧ s.ByteDone t port src n pos rest { i with regs := r } s.mem none := by
  rw [exec_byte h he]
  exact State.finishByte_done rfl

/-- Settles O31, by the effect of the class. -/
theorem markerStartsAFrame : Obligations.MarkerStartsAFrame := fun _ _ _ _ _ _ _ h => exec_byte_quiet h rfl

/-- Settles O32, by R39's table and the effect of the class. -/
theorem noiseIsDiscarded : Obligations.NoiseIsDiscarded :=
  ⟨fun ep b hb => (wireBytesFollowTheClassTable .AM ep b).2.1 hb rfl, fun _ _ _ _ _ _ _ _ h => exec_byte_quiet h rfl⟩

/-- Settles O33, by the effect of the class. -/
theorem escapeOnlySetsTheFlag : Obligations.EscapeOnlySetsTheFlag := fun _ _ _ _ _ _ _ h => exec_byte_quiet h rfl

/-- Settles O34: both classes hand the same data byte to stage 4. -/
theorem escapedDataIsTheFlippedByte : Obligations.EscapedDataIsTheFlippedByte := fun _ _ => rfl

/-- Settles O40: the class of a byte has the effect of `P_BYTE`, whose stages are R60's. -/
theorem byteClassesAreThePByteStages : Obligations.ByteClassesAreThePByteStages :=
  fun _ _ _ _ _ _ i b h => exec_byte h (byteEffect_decodeWire i b)

/-! ### Data bytes -/

/-- The effect of a data byte: what stage 4 does with it, the escape flag being cleared. -/
def Inst.dataEffect (i : Inst) (d : Byte) : ByteEffect := (i.regs.setEscape false).dataStep i.pOrder i.rxCapacity d

theorem byteEffect_data (i : Inst) (d : Byte) : byteEffect i (.data d) = some (i.dataEffect d) := rfl

theorem byteEffect_escapedData (i : Inst) (d : Byte) : byteEffect i (.escapedData (d ^^^ 0x20)) = some (i.dataEffect d) :=
  congrArg (fun b => some (i.dataEffect b)) (flip_flip d)

theorem Inst.dataEffect_RL1 (h : i.regs.state = .RL1) :
    i.dataEffect d = ⟨(i.regs.setEscape false).lengthFirst i.pOrder d, none, false⟩ := by
  simp [Inst.dataEffect, Regs.dataStep, Regs.setEscape, h]

theorem Inst.dataEffect_RL2 (h : i.regs.state = .RL2) :
    i.dataEffect d = ⟨(i.regs.setEscape false).lengthSecond i.pOrder i.rxCapacity d, none, false⟩ := by
  simp [Inst.dataEffect, Regs.dataStep, Regs.setEscape, h]

theorem Inst.dataEffect_payload (h : i.regs.state = .RP) (hc : i.regs.receivedCount < i.regs.expectedTotalLen - 4) :
    i.dataEffect d = ⟨{ i.regs with escapePending := false, receivedCount := i.regs.receivedCount + 1 },
      some (i.regs.receivedCount, d), false⟩ := by
  have hopen : i.regs.receivedCount + 1 ≠ i.regs.expectedTotalLen := by omega
  simp [Inst.dataEffect, Regs.dataStep, Regs.bodyStep, Regs.setEscape, h, hc, hopen]

theorem Inst.dataEffect_checksum (h : i.regs.state = .RP) (hc : i.regs.expectedTotalLen - 4 ≤ i.regs.receivedCount) :
    i.dataEffect d = ⟨{ i.regs with
      escapePending := false, receivedCount := i.regs.receivedCount + 1
      runningChecksum := checksumShift i.pOrder i.regs.runningChecksum d }, none,
      decide (i.regs.receivedCount + 1 = i.regs.expectedTotalLen)⟩ := by
  simp [Inst.dataEffect, Regs.dataStep, Regs.bodyStep, Regs.setEscape, h, hc]

/-- A data byte, plain or from an escape pair, whose store is not refused. -/
theorem exec_data_done {e : ByteEffect} (h : s.AtByte port src n pos rest i) (he : i.dataEffect d = e)
    (hs : s.storeRefused port i e.store = none) {i' : Inst} {m' : Memory} {ev : Option Event}
    (ha : i.afterByte s.mem e = (i', m', ev)) :
    (∃ t, exec (.data d) s = .next t ∧ s.ByteDone t port src n pos rest i' m' ev) ∧
      ∃ t, exec (.escapedData (d ^^^ 0x20)) s = .next t ∧ s.ByteDone t port src n pos rest i' m' ev := by
  have hdone := State.finishByte_done (rest := rest) (src := src) (n := n) (pos := pos) hs
  rw [ha] at hdone
  rw [exec_byte h (byteEffect_data i d), exec_byte h (byteEffect_escapedData i d), he]
  exact ⟨hdone, hdone⟩

/-- A data byte, plain or from an escape pair, whose store is refused. -/
theorem exec_data_refused {e : ByteEffect} {why : Refusal} (h : s.AtByte port src n pos rest i) (he : i.dataEffect d = e)
    (hs : s.storeRefused port i e.store = some why) :
    exec (.data d) s = .refused why ∧ exec (.escapedData (d ^^^ 0x20)) s = .refused why := by
  rw [exec_byte h (byteEffect_data i d), exec_byte h (byteEffect_escapedData i d), he]
  simp [State.finishByte, hs]

/-- Settles O35: a length byte only changes registers, by the laws of `LengthStep` in both orders. -/
theorem lengthStep : Obligations.LengthStep := by
  intro s port n pos src rest i d h
  refine ⟨fun hst => exec_data_done h (Inst.dataEffect_RL1 hst) rfl ?_,
    fun hst => exec_data_done h (Inst.dataEffect_RL2 hst) rfl ?_⟩
  · rw [Inst.afterByte_open _ _ rfl]
    cases i.pOrder <;> simp [Regs.lengthFirst, Regs.setEscape, Inst.rxStore]
  · rw [Inst.afterByte_open _ _ rfl]
    cases i.pOrder <;> simp [Regs.lengthSecond, Regs.bodyLen, bodyState, Regs.setEscape, Inst.rxStore]

/-- Settles O36, by where the byte would be stored. -/
theorem payloadByteIsStored : Obligations.PayloadByteIsStored := by
  intro s port n pos src rest i d h hst _ hc a i'
  have he := Inst.dataEffect_payload (d := d) hst hc
  refine ⟨fun hlent => exec_data_refused h he ?_, fun hfree huse => exec_data_refused h he ?_, fun hfree hunused => ?_⟩
  · exact if_pos hlent
  · exact (if_neg (by simpa using hfree)).trans (if_pos huse)
  · exact ⟨s.mem.write a d, Memory.read_write_same _ _ _, fun b hb => Memory.read_write_other _ _ hb,
      exec_data_done h he (State.storeRefused_some.mpr ⟨hfree, hunused⟩) rfl⟩

/-- Settles O37: the byte is past the payload and does not complete the body. -/
theorem checksumByteIsShifted : Obligations.ChecksumByteIsShifted := by
  intro s port n pos src rest i d h hst hc hopen i'
  refine exec_data_done h (Inst.dataEffect_checksum hst hc) rfl ?_
  rw [Inst.afterByte_open _ _ (by simpa using hopen)]
  rfl

/-! ### The end of a frame -/

/-- A delivery whose payload the parser has written reads it from memory. -/
theorem Inst.delivery_written (h : i.regs.receivedCount - 4 ≤ i.rxWritten) : i.delivery m =
    let len := i.regs.receivedCount - 4
    let payload := m.bytes i.rxBuffer.base len
    if crc32 payload = i.regs.runningChecksum ∧ i.hasPacketSink = true then some (.onPacket payload len i.ctx) else none := by
  simp only [Inst.delivery, Inst.rxRead_bytes h]

/-- The last checksum byte of a body ends the frame. -/
theorem Inst.afterByte_last (hst : i.regs.state = .RP) (hlen : 4 ≤ i.regs.expectedTotalLen)
    (hlast : i.regs.receivedCount + 1 = i.regs.expectedTotalLen) :
    i.afterByte m (i.dataEffect d) =
      let i' := { i with regs := { i.regs with
        state := .AM, escapePending := false, receivedCount := i.regs.receivedCount + 1
        runningChecksum := checksumShift i.pOrder i.regs.runningChecksum d } }
      (i', m, i'.delivery m) := by
  rw [Inst.dataEffect_checksum hst (by omega), decide_eq_true hlast]
  rfl

/-- Settles O38: the last byte ends the frame, and by R19 the parser has written the payload that is delivered. -/
theorem frameEndDeliversValidFrames : Obligations.FrameEndDeliversValidFrames := by
  intro s port n pos src rest i d h hst hinv hlast c len payload i' ev
  obtain ⟨hmin, -⟩ := hinv.body_len hst
  have hw := hinv.written hst
  have hev : i'.delivery s.mem = ev := Inst.delivery_written (by show i.regs.receivedCount + 1 - 4 ≤ i.rxWritten; omega)
  refine exec_data_done h rfl ?_ ((Inst.afterByte_last hst (by omega) hlast).trans (by rw [← hev]; rfl))
  rw [Inst.dataEffect_checksum hst (by omega), State.storeRefused_none]

end Sys2Proof.Machine

/-! PROOFS. The run of a P_FEED whose events the host takes: the left fold of P_BYTE over its bytes, wherever the byte stream is
split (spec/43_parser.md R60, R68; spec/70_reset_and_hazards.md R88). -/

namespace Sys2Proof.Machine

variable {s u v z : State} {t p n pos d : Nat} {src r : BufRef} {i j : Inst} {m : Memory} {ev : Option Event}
  {rest : List HostInput} {x y : Inst × Memory × List Event}

/-! ### Which byte a step serves -/

/-- Every input is the thread's own, and none is a slot: while a P_FEED of the thread is at a byte, they all wait. -/
def OwnInputs (t : Nat) (l : List HostInput) : Prop := ∀ x ∈ l, x.thread = t ∧ ∀ u, x ≠ .slot u

theorem ownInputs_nil (t : Nat) : OwnInputs t [] := fun _ hx => absurd hx List.not_mem_nil

theorem OwnInputs.cons {x : HostInput} (hx : x.thread = t ∧ ∀ u, x ≠ .slot u) (h : OwnInputs t rest) :
    OwnInputs t (x :: rest) := List.forall_mem_cons.mpr ⟨hx, h⟩

theorem OwnInputs.command (p : Nat) (c : Command) (h : OwnInputs t rest) : OwnInputs t (.command t p c :: rest) :=
  h.cons ⟨rfl, by simp⟩

theorem OwnInputs.returns_append (k : Nat) (h : OwnInputs t rest) : OwnInputs t (returns t k ++ rest) := by
  induction k with
  | zero => exact h
  | succ k ih => exact ih.cons ⟨rfl, by simp⟩

theorem returns_add (t k l : Nat) : returns t (k + l) = returns t k ++ returns t l := List.replicate_add ..

/-- The byte of the only P_FEED that is at one is served, whether its thread's inputs wait or none is left. -/
theorem State.nextMove_byte (hr : s.running t = true) (ho : ∀ v, v ≠ t → s.running v = false) (hin : OwnInputs t s.input) :
    s.nextMove = (s.fetchByte t, s.input) := by
  cases h : s.input with
  | nil => simp [State.nextMove, h, State.firstRunning_eq hr ho]
  | cons x xs =>
    obtain ⟨rfl, hx⟩ := hin x (by simp [h])
    exact State.nextMove_wait h hr hx

theorem State.serving_self (h : s.cur = ⟨t, p⟩) : s.serving s.input t p = s := by rw [State.serving, ← h]

/-! ### What a P_FEED has done -/

/-- A thread's P_FEED, of bytes in `r`, can go on to its end on the instance `i` at a port: no other P_FEED is at a byte, the
receive buffer may be written freely, and `r` does not lie in it. -/
structure State.Feeds (s : State) (t p : Nat) (r : BufRef) (i : Inst) : Prop where
  cur : s.cur = ⟨t, p⟩
  inst : s.inst p = some i
  inv : i.ParserInv
  free : s.ReceiveFree p i
  quiet : ∀ v, s.running v = false
  apart : r.overlaps i.lent = false

/-- `u` is `s` after bytes of a P_FEED in `r` on the instance `i` have left the instance, the memory and the events of `x`.
Everything else is as before, but for how the lists of instances and threads are written (`State.Within`). -/
structure State.Fed (s u : State) (t p : Nat) (r : BufRef) (i : Inst) (x : Inst × Memory × List Event) : Prop where
  cur : u.cur = ⟨t, p⟩
  inst : u.inst p = some x.1
  others : ∀ q, q ≠ p → u.inst q = s.inst q
  mem : u.mem = x.2.1
  out : u.out = s.out ++ outputs t p (s.stackOf t).length (x.2.2.map .event)
  stackOf : ∀ v, u.stackOf v = s.stackOf v
  within : s.Within u t p r
  /-- What does not lie in the receive buffer is read as before. -/
  kept : ∀ (q : BufRef) (a k : Nat), q.overlaps i.lent = false → q.base ≤ a → a + k ≤ q.base + q.size →
    u.bytes a k = s.bytes a k

theorem State.Fed.refl (hc : s.cur = ⟨t, p⟩) (hi : s.inst p = some i) : s.Fed s t p r i (i, s.mem, []) where
  cur := hc
  inst := hi
  others _ _ := rfl
  mem := rfl
  out := by simp [outputs]
  stackOf _ := rfl
  within := .refl s t p r
  kept _ _ _ _ _ _ := rfl

theorem State.Fed.trans (h1 : s.Fed u t p r i x) (h2 : u.Fed v t p r x.1 y) (hl : x.1.lent = i.lent) :
    s.Fed v t p r i (y.1, y.2.1, x.2.2 ++ y.2.2) where
  cur := h2.cur
  inst := h2.inst
  others q hq := (h2.others q hq).trans (h1.others q hq)
  mem := h2.mem
  out := by rw [h2.out, h1.out, h1.stackOf, outputs, outputs, outputs, List.map_append, List.map_append, List.append_assoc]
  stackOf v := (h2.stackOf v).trans (h1.stackOf v)
  within := h1.within.trans h2.within
  kept q a k hq ha hk := (h2.kept q a k (hl ▸ hq) ha hk).trans (h1.kept q a k hq ha hk)

/-- The inputs, and which thread is served, do not matter to what a P_FEED has done. -/
theorem State.Fed.of_input (h : z.Fed u t p r i x) (hi : z.insts = s.insts) (hm : z.mem = s.mem)
    (ht : z.threads = s.threads) (ho : z.out = s.out) : s.Fed u t p r i x := by
  cases s
  cases z
  subst hi hm ht ho
  exact ⟨h.cur, h.inst, h.others, h.mem, h.out, h.stackOf, ⟨h.within.insts, h.within.threads, h.within.frames⟩, h.kept⟩

/-- An event that was put out and taken changes nothing else. -/
theorem State.PutOut.fed {e : Event} (h : s.PutOut u t p [.event e]) (hc : u.cur = ⟨t, p⟩) (hw : s.Within u t p r)
    (hi : s.inst p = some i) : s.Fed u t p r i (i, s.mem, [e]) where
  cur := hc
  inst := by rw [State.inst, h.insts]; exact hi
  others q _ := by rw [State.inst, State.inst, h.insts]
  mem := h.mem
  out := h.out
  stackOf := h.stackOf
  within := hw
  kept _ _ _ _ _ _ := State.bytes_congr fun _ _ => State.read_congr h.insts (by rw [h.mem])

/-- The P_FEED can go on. -/
theorem State.Fed.feeds (h : s.Fed u t p r i x) (hs : s.Feeds t p r i) (hinv : x.1.ParserInv) (hl : x.1.lent = i.lent) :
    u.Feeds t p r x.1 where
  cur := h.cur
  inst := h.inst
  inv := hinv
  free := h.within.receiveFree hs.free hs.apart hl
  quiet v := (State.running_congr (h.stackOf v)).trans (hs.quiet v)
  apart := hl ▸ hs.apart

/-! ### One byte -/

/-- Putting an operation on a thread's stack. -/
theorem State.within_of_push {f : Frame} (hc : s.cur.thread = t) (p : Nat) (ht : u.threads = (s.push f).threads)
    (hi : u.insts = s.insts) : s.Within u t p f.uses :=
  (State.Within.refl s t p _).push hc ht hi rfl

/-- The state a finished byte leaves, before its event is emitted or the P_FEED goes on. -/
def State.withByte (s : State) (below : List Frame) (p : Nat) (j : Inst) (m : Memory) : State :=
  (((s.setStack below).setInst p j).setMem m).atPort p

theorem State.finishByte_eq {below : List Frame} {e : ByteEffect} (hx : i.afterByte s.mem e = (j, m, ev))
    (h : s.storeRefused p i e.store = none) : s.finishByte below p src n pos i e =
      .next ((s.withByte below p j m).afterEvent ev p src n (pos + 1)) := by
  simp only [State.finishByte, h, hx, State.withByte]

theorem State.afterEvent_read (s : State) (ev : Option Event) (p : Nat) (src : BufRef) (n pos a : Nat) :
    (s.afterEvent ev p src n pos).read a = s.read a :=
  State.read_congr (by cases ev <;> simp [State.afterEvent]) (by cases ev <;> simp [State.afterEvent])

/-- A step of a P_FEED that is at a byte does with it what `P_BYTE` does. -/
theorem step_continueFeed (h : s.Feeds t p (src.first n) i) (hpos : pos < n) (hin : OwnInputs t s.input) :
    step (s.continueFeed p src n pos) =
      (s.push ⟨p, .feed src n pos, false⟩).finishByte s.stack p src n pos i
        (i.pByte (s.read (src.base + pos))) := by
  rw [State.continueFeed_more _ _ _ hpos]
  generalize hw : s.push ⟨p, .feed src n pos, false⟩ = w
  have hcur : w.cur = ⟨t, p⟩ := by rw [← hw, State.push_cur, h.cur]
  have hinst : w.inst p = some i := by rw [← hw, State.push_inst, h.inst]
  have hstk : w.stackOf t = ⟨p, .feed src n pos, false⟩ :: s.stack := by
    rw [← hw, State.push_stackOf, if_pos (by rw [h.cur])]
  have hothers : ∀ v, v ≠ t → w.running v = false := fun v hv =>
    (State.running_congr (by rw [← hw, State.push_stackOf, if_neg (by rwa [h.cur])])).trans (h.quiet v)
  have hmove := State.nextMove_byte (State.running_iff.mpr ⟨_, _, _, _, _, hstk⟩) hothers (by rw [← hw]; exact hin)
  have hat : w.AtByte p src n pos s.stack i := ⟨by rw [State.stack, hcur, hstk], hinst⟩
  rw [step_fetchByte hstk hinst hmove, State.serving_self hcur, exec_byte hat (byteEffect_decodeWire i _), ← hw,
    State.push_read]

/-- What a byte leaves before its event is emitted. -/
theorem State.withByte_fed {b : Byte} (h : s.Feeds t p (src.first n) i) (hx : i.afterByte s.mem (i.pByte b) = (j, m, ev))
    (hfree : (s.push ⟨p, .feed src n pos, false⟩).storeRefused p i (i.pByte b).store = none) :
    s.Fed ((s.push ⟨p, .feed src n pos, false⟩).withByte s.stack p j m) t p (src.first n) i (j, m, []) where
  cur := by simp [State.withByte, h.cur]
  inst := by simp [State.withByte]
  others q hq := by simp [State.withByte, State.setInst_inst, hq]
  mem := rfl
  out := by simp [State.withByte, outputs]
  stackOf v := by
    by_cases hv : v = t
    · simp [State.withByte, State.setStack_stackOf, State.stack, h.cur, hv]
    · simp [State.withByte, State.setStack_stackOf, State.push_stackOf, h.cur, hv]
  within := by
    refine (State.within_of_push (f := ⟨p, .feed src n pos, false⟩) (congrArg Cur.thread h.cur) p rfl rfl).trans
      (.setStack (fs := s.stack) rfl (congrArg Cur.thread h.cur) rfl (.inr ⟨j, by simp [State.withByte]⟩)
        fun f hf => .inl ?_)
    rw [State.push_stackOf, if_pos (by rw [h.cur])]
    exact List.mem_cons_of_mem _ hf
  kept q a k hq ha hk := by
    have hread := State.finishByte_bytes (s := s.push ⟨p, .feed src n pos, false⟩) (below := s.stack) (src := src) (n := n)
      (pos := pos) (State.finishByte_eq hx hfree) h.inst h.inv hq ha hk
    exact (State.bytes_congr fun _ _ => (State.afterEvent_read ..).symm).trans hread

/-- When the host has taken an event of a P_FEED, the P_FEED goes on from where it stood before, but for the event. -/
theorem step_feedEvent (hc : s.cur = ⟨t, p⟩) (hin : s.input = .handlerReturn t :: rest) (e : Event) (src : BufRef)
    (n pos : Nat) :
    ∃ z : State, step (s.emitAndWait e ⟨p, .feed src n pos, true⟩) = .next (z.continueFeed p src n pos) ∧
      z.cur = ⟨t, p⟩ ∧ z.input = rest ∧ s.PutOut z t p [.event e] ∧ s.Within z t p (src.first n) := by
  have hown : s.stack = s.stackOf t := by rw [State.stack, hc]
  generalize hw : s.emitAndWait e ⟨p, .feed src n pos, true⟩ = w
  have hcur : w.cur = ⟨t, p⟩ := by rw [← hw]; exact hc
  have hwaits : w.stackOf t = ⟨p, .feed src n pos, true⟩ :: s.stackOf t := by
    rw [← hw, State.emitAndWait_stackOf, if_pos (by rw [hc]), hown]
  have hothers : ∀ v, v ≠ t → w.stackOf v = s.stackOf v := fun v hv => by
    rw [← hw, State.emitAndWait_stackOf, if_neg (by rwa [hc])]
  refine ⟨_, step_handlerReturn (by rw [← hw]; exact hin) hwaits, by simp [hcur], by simp,
    ⟨?_, ?_, ?_, fun v => ?_⟩, ?_⟩
  · simp [← hw, hown, hc, outputs]
  · simp [← hw]
  · simp [← hw]
  · by_cases hv : v = t
    · simp [State.resume_stackOf, hv]
    · simp [State.resume_stackOf, hothers v hv, hv]
  · have hpush : s.Within w t p (src.first n) :=
      State.within_of_push (f := ⟨p, .feed src n pos, true⟩) (congrArg Cur.thread hc) p (by rw [← hw]; rfl)
        (by rw [← hw]; rfl)
    refine hpush.trans (.setStack (x := w.serving rest t w.cur.port) (fs := s.stackOf t) rfl rfl rfl (.inl (by simp))
      fun f hf => .inl ?_)
    rw [hwaits]
    exact List.mem_cons_of_mem _ hf

/-- A P_FEED at a byte goes on to its next one, in one step or, when the host takes an event of it, in two. -/
theorem runSteps_byte (h : s.Feeds t p (src.first n) i) (hpos : pos < n)
    (hx : i.afterByte s.mem (i.pByte (s.read (src.base + pos))) = (j, m, ev))
    (hin : s.input = returns t ev.toList.length ++ rest) (hown : OwnInputs t rest) :
    ∃ k z, runSteps k (s.continueFeed p src n pos) = .next (z.continueFeed p src n (pos + 1)) ∧ z.input = rest ∧
      s.Fed z t p (src.first n) i (j, m, ev.toList) := by
  generalize hw : s.push ⟨p, .feed src n pos, false⟩ = w
  have hfree : w.storeRefused p i (i.pByte (s.read (src.base + pos))).store = none := by
    have hpush : s.Within w t p (src.first n) :=
      State.within_of_push (f := ⟨p, .feed src n pos, false⟩) (congrArg Cur.thread h.cur) p (by rw [← hw])
        (by rw [← hw]; rfl)
    exact (hpush.receiveFree h.free h.apart rfl).storeRefused h.inv
  have hstep : step (s.continueFeed p src n pos) = .next ((w.withByte s.stack p j m).afterEvent ev p src n (pos + 1)) := by
    rw [step_continueFeed h hpos (by rw [hin]; exact hown.returns_append _), hw]
    exact State.finishByte_eq (by rw [← hw]; exact hx) hfree
  have hfed : s.Fed (w.withByte s.stack p j m) t p (src.first n) i (j, m, []) := by
    subst hw
    exact State.withByte_fed h hx hfree
  have hinput : (w.withByte s.stack p j m).input = returns t ev.toList.length ++ rest := by
    rw [← hin, ← hw]
    simp [State.withByte]
  have hlent : j.lent = i.lent := by
    have hlent := Inst.afterByte_lent i s.mem (i.pByte (s.read (src.base + pos)))
    rwa [hx] at hlent
  cases ev with
  | none => exact ⟨1, _, runSteps_next hstep, hinput, hfed⟩
  | some e =>
    obtain ⟨z, hreturn, hcur, hrest, hput, hwithin⟩ := step_feedEvent hfed.cur hinput e src n (pos + 1)
    exact ⟨2, z, (runSteps_next hstep).trans (runSteps_next hreturn), hrest,
      hfed.trans (hput.fed hcur hwithin hfed.inst) hlent⟩

/-! ### All bytes -/

/-- A P_FEED with `d` bytes left runs to its end as the fold of `P_BYTE` over them. -/
theorem runSteps_continueFeed (h : s.Feeds t p (src.first n) i) (hpos : pos + d = n)
    (hin : s.input = returns t (i.feedBytes s.mem (s.bytes (src.base + pos) d)).2.2.length ++ rest)
    (hown : OwnInputs t rest) :
    ∃ k u, runSteps k (s.continueFeed p src n pos) = .next (u.report .OK none) ∧ u.input = rest ∧
      s.Fed u t p (src.first n) i (i.feedBytes s.mem (s.bytes (src.base + pos) d)) := by
  induction d generalizing s i pos with
  | zero =>
    rw [State.continueFeed_end _ _ _ (by omega)]
    exact ⟨0, s, rfl, hin, .refl h.cur h.inst⟩
  | succ d ih =>
    have hlent := Inst.afterByte_lent i s.mem (i.pByte (s.read (src.base + pos)))
    have hinv := h.inv.pByte s.mem (s.read (src.base + pos))
    rw [State.bytes_cons] at hin ⊢
    simp only [Inst.feedBytes] at hin ⊢
    generalize hx : i.afterByte s.mem (i.pByte (s.read (src.base + pos))) = y at hlent hinv hin ⊢
    obtain ⟨j, m, ev⟩ := y
    rw [List.length_append, returns_add, List.append_assoc] at hin
    obtain ⟨k, z, hrun, hzin, hfed⟩ := runSteps_byte h (by omega) hx hin (hown.returns_append _)
    have hmem : z.mem = m := hfed.mem
    have hbytes : z.bytes (src.base + (pos + 1)) d = s.bytes (src.base + pos + 1) d :=
      hfed.kept (src.first n) _ _ h.apart (by simp [BufRef.first]) (by simp [BufRef.first]; omega)
    obtain ⟨l, u, hrun', huin, hfed'⟩ := ih (pos := pos + 1) (hfed.feeds h hinv hlent) (by omega) (by rw [hzin, hbytes, hmem])
    rw [hbytes, hmem] at hfed'
    exact ⟨k + l, u, (runSteps_add hrun).trans hrun', huin, hfed.trans hfed' hlent⟩

/-- A thread may issue a P_FEED at the port of the instance `i`, whose receive buffer may be written freely, while no P_FEED is
at a byte (R77, R79). -/
structure State.MayFeed (s : State) (t p : Nat) (i : Inst) : Prop where
  inst : s.inst p = some i
  inv : i.ParserInv
  free : s.ReceiveFree p i
  quiet : ∀ v, s.running v = false
  alone : (s.serving [] t p).busyElsewhere = false
  outside : (s.serving [] t p).inOwnHandler = false

/-- A P_FEED that a thread issues, with the inputs `rest` after its handlers' returns, from its command to its status. -/
theorem runSteps_pFeed (h : s.MayFeed t p i) (hn : n ≤ src.size) (hd : (src.first n).overlaps i.lent = false)
    (hx : i.feedBytes s.mem (s.srcBytes src n) = x) (hown : OwnInputs t rest)
    (hin : s.input = .command t p ⟨0x21, [src.base, src.size, n]⟩ :: (returns t x.2.2.length ++ rest)) :
    ∃ k u, runSteps k s = .next (u.report .OK none) ∧ u.input = rest ∧ s.Fed u t p (src.first n) i x := by
  have hheld : src.holds n = true := by simpa [BufRef.holds] using hn
  have hdecode := decodeOfEncodeIsTheInstruction (.pFeed src n) hheld
  have hstep := (step_command hin (h.quiet t) hdecode).trans (execPFeed_eq h.alone h.outside hheld h.inst hd)
  have hfeeds : (s.serving (returns t x.2.2.length ++ rest) t p).Feeds t p (src.first n) i :=
    ⟨rfl, h.inst, h.inv, h.free, h.quiet, hd⟩
  subst hx
  obtain ⟨k, u, hrun, huin, hfed⟩ := runSteps_continueFeed hfeeds (Nat.zero_add n) rfl hown
  exact ⟨k + 1, u, (runSteps_next hstep).trans hrun, huin, hfed.of_input rfl rfl rfl rfl⟩

/-- What the status adds to what the bytes put out. -/
theorem State.Fed.report_out (h : s.Fed u t p r i x) : (u.report .OK none).out =
    s.out ++ outputs t p (s.stackOf t).length (x.2.2.map .event ++ [.result .OK none]) := by
  rw [State.report_out, State.stack, h.cur, h.stackOf, h.out, outputs, outputs, List.map_append, List.append_assoc]
  rfl

/-- After its end another P_FEED may be issued. -/
theorem State.Fed.mayFeed (h : s.Fed u t p r i x) (hs : s.MayFeed t p i) (hr : r.overlaps i.lent = false)
    (hinv : x.1.ParserInv) (hl : x.1.lent = i.lent) : (u.report .OK none).MayFeed t p x.1 where
  inst := h.inst
  inv := hinv
  free := h.within.receiveFree hs.free hr hl
  quiet v := (State.running_congr (h.stackOf v)).trans (hs.quiet v)
  alone := by
    have halone := hs.alone
    simp only [State.busyElsewhere, List.any_eq_false, Bool.and_eq_true, bne_iff_ne, not_and] at halone ⊢
    exact fun e he ht => halone e (h.within.threads e he ht) ht
  outside := by
    have hsame : ((u.report .OK none).serving [] t p).stack = (s.serving [] t p).stack := h.stackOf t
    rw [State.inOwnHandler, hsame]
    exact hs.outside

/-- Settles O41: the run of a P_FEED with no inputs after its handlers' returns. -/
theorem pFeedRunIsTheFoldOfPByte : Obligations.PFeedRunIsTheFoldOfPByte := by
  intro s t p n src i hi hinv hfree hn hd hquiet x hissues houtside
  obtain ⟨k, u, hrun, hin, hfed⟩ := runSteps_pFeed ⟨hi, hinv, hfree, hquiet, hissues.alone, houtside⟩ hn hd rfl
    (ownInputs_nil t) (by rw [List.append_nil]; exact hissues.input)
  exact ⟨k, _, hrun, hfed.inst, hfed.others, hfed.mem, hin, hfed.report_out, hfed.stackOf⟩

/-! ### Split delivery -/

theorem eventsOf_append (xs ys : List Output) : eventsOf (xs ++ ys) = eventsOf xs ++ eventsOf ys := List.filter_append ..

/-- The events among what a P_FEED puts out are those of the fold. -/
theorem eventsOf_feed (t p k : Nat) (es : List Event) : eventsOf (outputs t p k (es.map .event ++ [.result .OK none])) =
    outputs t p k (es.map .event) := by
  rw [outputs, List.map_append, eventsOf_append]
  simp [eventsOf, outputs, List.filter_eq_self]

/-- Two consecutive parts of a buffer lie in it. -/
theorem BufRef.first_overlaps {q : BufRef} {n m : Nat} (h : (src.first (n + m)).overlaps q = false) :
    (src.first n).overlaps q = false ∧ (BufRef.first ⟨src.base + n, src.size - n⟩ m).overlaps q = false := by
  simp only [BufRef.overlaps_false, BufRef.first] at h ⊢
  exact ⟨fun a h1 h2 => h a h1 (by omega), fun a h1 h2 => h a (by omega) (by omega)⟩

/-- Two P_FEEDs one after another: the first leaves a state in which the second may be issued and reads the same bytes. -/
theorem runSteps_pFeed_twice {m : Nat} (h : s.MayFeed t p i) (hn : n + m ≤ src.size)
    (hd : (src.first (n + m)).overlaps i.lent = false) (hx : i.feedBytes s.mem (s.srcBytes src n) = x)
    (hy : x.1.feedBytes x.2.1 (s.bytes (src.base + n) m) = y)
    (hin : s.input = (.command t p ⟨0x21, [src.base, src.size, n]⟩ :: returns t x.2.2.length) ++
      (.command t p ⟨0x21, [src.base + n, src.size - n, m]⟩ :: returns t y.2.2.length)) :
    ∃ k v, runSteps k s = .next v ∧ v.input = [] ∧ v.inst p = some y.1 ∧ v.mem = y.2.1 ∧
      (∀ w, v.stackOf w = s.stackOf w) ∧
      v.out = s.out ++ (outputs t p (s.stackOf t).length (x.2.2.map .event ++ [.result .OK none]) ++
        outputs t p (s.stackOf t).length (y.2.2.map .event ++ [.result .OK none])) := by
  obtain ⟨hd1, hd2⟩ := BufRef.first_overlaps hd
  obtain ⟨hinv, hlent⟩ := h.inv.feedBytes s.mem (s.srcBytes src n)
  rw [hx] at hinv hlent
  have hown : OwnInputs t (.command t p ⟨0x21, [src.base + n, src.size - n, m]⟩ :: returns t y.2.2.length) := by
    simpa using ((ownInputs_nil t).returns_append y.2.2.length).command p _
  obtain ⟨k, u, hrun, huin, hu⟩ := runSteps_pFeed h (by omega) hd1 hx hown hin
  have hbytes : (u.report .OK none).srcBytes ⟨src.base + n, src.size - n⟩ m = s.bytes (src.base + n) m :=
    hu.kept _ _ _ hd (Nat.le_add_right ..) (by simp [BufRef.first]; omega)
  obtain ⟨l, v, hrun', hvin, hv⟩ := runSteps_pFeed (rest := []) (src := ⟨src.base + n, src.size - n⟩) (n := m) (x := y)
    (hu.mayFeed h hd1 hinv hlent) (by simp; omega) (hlent ▸ hd2) (by rw [hbytes, State.report_mem, hu.mem, hy])
    (ownInputs_nil t) (by rw [List.append_nil]; exact huin)
  refine ⟨k + l, _, (runSteps_add hrun).trans hrun', hvin, hv.inst, hv.mem, fun w => (hv.stackOf w).trans (hu.stackOf w), ?_⟩
  rw [hv.report_out, hu.report_out, State.report_stackOf, hu.stackOf, List.append_assoc]

/-- Settles O42: the fold over the whole sequence is the fold over its first part and then over the rest. -/
theorem splitDeliveryDoesNotMatter : Obligations.SplitDeliveryDoesNotMatter := by
  intro s t p n m src i hi hinv hfree hn hd hquiet halone houtside
  have hmay : ∀ l, ({ s with input := l } : State).MayFeed t p i := fun _ => ⟨hi, hinv, hfree, hquiet, halone, houtside⟩
  generalize hx : i.feedBytes s.mem (s.srcBytes src n) = x
  generalize hy : x.1.feedBytes x.2.1 (s.bytes (src.base + n) m) = y
  have hwhole : i.feedBytes s.mem (s.srcBytes src (n + m)) = (y.1, y.2.1, x.2.2 ++ y.2.2) := by
    rw [State.srcBytes, State.bytes_add, Inst.feedBytes_append, ← hy, ← hx]
    rfl
  obtain ⟨k, u, hrun, huin, hu⟩ := runSteps_pFeed (rest := [])
    (hmay (.command t p ⟨0x21, [src.base, src.size, n + m]⟩ :: returns t (x.2.2.length + y.2.2.length)))
    hn hd hwhole (ownInputs_nil t) (by simp)
  obtain ⟨l, v, hrun', hvin, hvinst, hvmem, hvstk, hvout⟩ := runSteps_pFeed_twice
    (hmay ((.command t p ⟨0x21, [src.base, src.size, n]⟩ :: returns t x.2.2.length) ++
      (.command t p ⟨0x21, [src.base + n, src.size - n, m]⟩ :: returns t y.2.2.length))) hn hd hx hy rfl
  refine ⟨x.2.2.length, y.2.2.length, k, l, _, v, hrun, hrun', huin, hvin, hu.inst.trans hvinst.symm, hu.mem.trans hvmem.symm,
    ?_, hu.stackOf, hvstk⟩
  rw [hu.report_out, hvout, List.drop_left, List.drop_left, eventsOf_append, eventsOf_feed, eventsOf_feed, eventsOf_feed,
    List.map_append]
  exact List.map_append

end Sys2Proof.Machine

/-! PROOFS. An encoded frame at the parser: one delivery of its payload (spec/43_parser.md R61 to R67; spec/95_test_vectors.md
W8). -/

namespace Sys2Proof.Machine

variable {i j : Inst} {m m' : Memory} {b : Byte} {d l : List Byte} {etl k w : Nat} {c : Word}

/-! ### The bytes of the frame, field by field -/

theorem Inst.feedBytes_marker (i : Inst) (m : Memory) (l : List Byte) :
    i.feedBytes m (MARKER :: l) = ({ i with regs := ⟨.RL1, false, 0, 0, 0⟩ } : Inst).feedBytes m l := by
  simp only [Inst.feedBytes, Inst.pByte_marker]
  rfl

theorem Inst.dataByte_eq {ev : Option Event} (h : i.afterByte m (i.dataEffect b) = (j, m', ev)) :
    i.dataByte m b = (j, m', ev.toList) := by
  show ((i.afterByte m (i.dataEffect b)).1, (i.afterByte m (i.dataEffect b)).2.1,
    (i.afterByte m (i.dataEffect b)).2.2.toList) = _
  rw [h]

/-- A stuffed byte that emits no event. -/
theorem Inst.feedBytes_stuffSeq_quiet (hs : i.regs.state ≠ .AM) (he : i.regs.escapePending = false)
    (h : i.afterByte m (i.dataEffect b) = (j, m', none)) :
    i.feedBytes m (stuffSeq (b :: l)) = j.feedBytes m' (stuffSeq l) := by
  rw [Inst.feedBytes_stuffSeq_cons _ _ _ _ hs he, Inst.dataByte_eq h]
  rfl

theorem Regs.lengthFirst_state (o : ByteOrder) (r : Regs) (d : Byte) : (r.lengthFirst o d).state = .RL2 := by
  cases o <;> rfl

theorem Regs.lengthFirst_escapePending (o : ByteOrder) (r : Regs) (d : Byte) :
    (r.lengthFirst o d).escapePending = r.escapePending := by cases o <;> rfl

/-- The registers after a marker and both length bytes. -/
theorem Regs.lengthSecond_lengthFirst (o : ByteOrder) (cap : Nat) (c1 c2 : Byte) :
    ((Regs.lengthFirst o ⟨.RL1, false, 0, 0, 0⟩ c1).setEscape false).lengthSecond o cap c2 =
      ⟨bodyState cap (lenValue o c1 c2 + 4), false, lenValue o c1 c2 + 4, 0, 0⟩ := by cases o <;> rfl

/-- An instance whose parser has taken `k` bytes of a body of `etl`, and has written `w` bytes of its buffer. -/
def Inst.inBody (i : Inst) (etl k : Nat) (c : Word) (w : Nat) : Inst :=
  { i with regs := ⟨.RP, false, etl, k, c⟩, rxWritten := w }

/-- An instance whose parser has taken a whole body of `etl` bytes, its checksum field being `c`. -/
def Inst.afterBody (i : Inst) (etl : Nat) (c : Word) (w : Nat) : Inst :=
  { i with regs := ⟨.AM, false, etl, etl, c⟩, rxWritten := w }

/-- The length field of a payload that fits leads to its body. -/
theorem Inst.feedBytes_length (i : Inst) (m : Memory) (len : BitVec 16) (l : List Byte) (hlen : 1 ≤ len.toNat)
    (hcap : len.toNat + 4 ≤ i.rxCapacity) :
    ({ i with regs := ⟨.RL1, false, 0, 0, 0⟩ } : Inst).feedBytes m (stuffSeq (lenBytes i.pOrder len ++ l)) =
      (i.inBody (len.toNat + 4) 0 0 i.rxWritten).feedBytes m (stuffSeq l) := by
  obtain ⟨c1, c2, hbytes, hvalue⟩ := lenValue_lenBytes i.pOrder len
  have hbody : bodyState i.rxCapacity (len.toNat + 4) = .RP := if_neg (by omega)
  have hregs := Regs.lengthSecond_lengthFirst i.pOrder i.rxCapacity c1 c2
  have hst := Regs.lengthFirst_state i.pOrder ⟨.RL1, false, 0, 0, 0⟩ c1
  have hep := Regs.lengthFirst_escapePending i.pOrder ⟨.RL1, false, 0, 0, 0⟩ c1
  generalize hr : Regs.lengthFirst i.pOrder ⟨.RL1, false, 0, 0, 0⟩ c1 = r at hregs hst hep
  have hfirst : ({ i with regs := ⟨.RL1, false, 0, 0, 0⟩ } : Inst).afterByte m
      (Inst.dataEffect { i with regs := ⟨.RL1, false, 0, 0, 0⟩ } c1) = ({ i with regs := r }, m, none) := by
    rw [Inst.dataEffect_RL1 rfl, ← hr]
    rfl
  have hsecond : ({ i with regs := r } : Inst).afterByte m (Inst.dataEffect { i with regs := r } c2) =
      (i.inBody (len.toNat + 4) 0 0 i.rxWritten, m, none) := by
    rw [Inst.dataEffect_RL2 hst, Inst.afterByte_open _ _ rfl, hregs, hvalue, hbody]
    rfl
  rw [hbytes, List.cons_append, List.cons_append, List.nil_append, Inst.feedBytes_stuffSeq_quiet (by simp) rfl hfirst,
    Inst.feedBytes_stuffSeq_quiet (by simp [hst]) hep hsecond]

/-- Payload bytes are stored one after another. -/
theorem Inst.feedBytes_payload (i : Inst) (m : Memory) (l : List Byte) (hroom : k + d.length ≤ etl - 4) (hw : k ≤ w) :
    (i.inBody etl k c w).feedBytes m (stuffSeq (d ++ l)) =
      (i.inBody etl (k + d.length) c (max w (k + d.length))).feedBytes (m.writeBytes (i.rxBuffer.base + k) d) (stuffSeq l) := by
  induction d generalizing m k w with
  | nil => simp [Memory.writeBytes, hw]
  | cons b d ih =>
    rw [List.length_cons] at hroom
    have hbyte : (i.inBody etl k c w).afterByte m ((i.inBody etl k c w).dataEffect b) =
        (i.inBody etl (k + 1) c (max w (k + 1)), m.write (i.rxBuffer.base + k) b, none) := by
      rw [Inst.dataEffect_payload rfl (show k < etl - 4 by omega)]
      rfl
    rw [List.cons_append, Inst.feedBytes_stuffSeq_quiet (by simp [Inst.inBody]) rfl hbyte, ih _ (by omega) (by omega),
      List.length_cons, Nat.add_assoc, Nat.add_comm 1, max_assoc, max_eq_right (show k + 1 ≤ k + (d.length + 1) by omega)]
    rfl

/-- A checksum byte that is not the last. -/
theorem Inst.feedBytes_checksum (i : Inst) (m : Memory) (b : Byte) (l : List Byte) (hk : etl - 4 ≤ k) (hopen : k + 1 ≠ etl) :
    (i.inBody etl k c w).feedBytes m (stuffSeq (b :: l)) =
      (i.inBody etl (k + 1) (checksumShift i.pOrder c b) w).feedBytes m (stuffSeq l) := by
  have hbyte : (i.inBody etl k c w).afterByte m ((i.inBody etl k c w).dataEffect b) =
      (i.inBody etl (k + 1) (checksumShift i.pOrder c b) w, m, none) := by
    rw [Inst.dataEffect_checksum rfl hk, Inst.afterByte_open _ _ (decide_eq_false hopen)]
    rfl
  exact Inst.feedBytes_stuffSeq_quiet (by simp [Inst.inBody]) rfl hbyte

/-- The last checksum byte. -/
theorem Inst.feedBytes_last (i : Inst) (m : Memory) (b : Byte) (hk : 3 ≤ k) :
    (i.inBody (k + 1) k c w).feedBytes m (stuffSeq [b]) =
      (i.afterBody (k + 1) (checksumShift i.pOrder c b) w, m,
        ((i.afterBody (k + 1) (checksumShift i.pOrder c b) w).delivery m).toList) := by
  have hbyte := Inst.afterByte_last (i := i.inBody (k + 1) k c w) (m := m) (d := b) rfl (show 4 ≤ k + 1 by omega) rfl
  rw [Inst.feedBytes_stuffSeq_cons _ _ _ _ (by simp [Inst.inBody]) rfl, Inst.dataByte_eq hbyte]
  exact congrArg (Prod.mk _ ∘ Prod.mk _) (List.append_nil _)

/-- The checksum field, shifted in, is the checksum. -/
theorem checksumShift_crcBytes (o : ByteOrder) (c c' : Word) : ∃ d0 d1 d2 d3, crcBytes o c = [d0, d1, d2, d3] ∧
    checksumShift o (checksumShift o (checksumShift o (checksumShift o c' d0) d1) d2) d3 = c := by
  obtain ⟨d0, d1, d2, d3, hbytes, hvalue⟩ := crcValue_crcBytes o c
  exact ⟨d0, d1, d2, d3, hbytes, BitVec.eq_of_toNat_eq ((checksumShift_four ..).trans hvalue)⟩

/-- The checksum field of a body whose payload has been received ends the frame with that checksum in the register. -/
theorem Inst.feedBytes_crc (i : Inst) (m : Memory) (n : Nat) (c c' : Word) (w : Nat) :
    (i.inBody (n + 4) n c' w).feedBytes m (stuffSeq (crcBytes i.pOrder c)) =
      (i.afterBody (n + 4) c w, m, ((i.afterBody (n + 4) c w).delivery m).toList) := by
  obtain ⟨d0, d1, d2, d3, hbytes, hshift⟩ := checksumShift_crcBytes i.pOrder c c'
  rw [hbytes, Inst.feedBytes_checksum _ _ _ _ (by omega) (by omega), Inst.feedBytes_checksum _ _ _ _ (by omega) (by omega),
    Inst.feedBytes_checksum _ _ _ _ (by omega) (by omega), Inst.feedBytes_last _ _ _ (by omega), hshift]

/-! ### The frame -/

/-- A payload that the parser has stored from index 0 on, with its checksum in the register, is delivered. -/
theorem Inst.delivery_stored {q : List Byte} (hcount : i.regs.receivedCount = q.length + 4)
    (hcrc : i.regs.runningChecksum = crc32 q) (hw : q.length ≤ i.rxWritten) (hsink : i.hasPacketSink = true) :
    i.delivery (m.writeBytes i.rxBuffer.base q) = some (.onPacket q q.length i.ctx) := by
  simp only [Inst.delivery_written (show i.regs.receivedCount - 4 ≤ i.rxWritten by omega), hcount, Nat.add_sub_cancel,
    Memory.bytes_writeBytes]
  exact if_pos ⟨hcrc.symm, hsink⟩

/-- The frame of a payload that fits, whatever the parser was doing: the payload is stored from index 0 on, and delivered. -/
theorem Inst.feedBytes_frame (i : Inst) (m : Memory) (q : List Byte) (h1 : 1 ≤ q.length) (h2 : q.length ≤ 65535)
    (hcap : q.length + 4 ≤ i.rxCapacity) (hsink : i.hasPacketSink = true) :
    ∃ j : Inst, i.feedBytes m (frameBytes i.pOrder q) =
      (j, m.writeBytes i.rxBuffer.base q, [.onPacket q q.length i.ctx]) ∧ j.regs.state = .AM := by
  have hlen : (BitVec.ofNat 16 q.length).toNat = q.length := by rw [BitVec.toNat_ofNat]; omega
  have hdelivery : (i.afterBody (q.length + 4) (crc32 q) (max i.rxWritten q.length)).delivery
      (m.writeBytes i.rxBuffer.base q) = some (.onPacket q q.length i.ctx) :=
    Inst.delivery_stored rfl rfl (Nat.le_max_right ..) hsink
  refine ⟨i.afterBody (q.length + 4) (crc32 q) (max i.rxWritten q.length), ?_, rfl⟩
  rw [frameBytes_eq, fieldSeq, Inst.feedBytes_marker, List.append_assoc,
    Inst.feedBytes_length _ _ _ _ (by omega) (by omega), hlen, Inst.feedBytes_payload _ _ _ (by omega) (by omega),
    Nat.zero_add, Inst.feedBytes_crc, Nat.add_zero i.rxBuffer.base, hdelivery]
  rfl

/-- Settles O43: by the fold over the frame's bytes. -/
theorem encodedFrameIsDeliveredOnce : Obligations.EncodedFrameIsDeliveredOnce := by
  intro s t p n src i q hi hinv hfree hn hd hquiet hframe h1 h2 hcap hsink hissues houtside
  obtain ⟨j, hfold, hj⟩ := Inst.feedBytes_frame i s.mem q h1 h2 hcap hsink
  obtain ⟨k, u, hrun, hin, hfed⟩ := runSteps_pFeed ⟨hi, hinv, hfree, hquiet, hissues.alone, houtside⟩ hn hd
    (hframe ▸ hfold) (ownInputs_nil t) (by rw [List.append_nil]; exact hissues.input)
  exact ⟨k, _, hrun, hfed.report_out, j, hfed.inst, hj, by
    rw [State.report_mem, hfed.mem]; exact Memory.bytes_writeBytes _ _ _⟩

end Sys2Proof.Machine

/-! PROOFS. The operations in progress stay nested as they may be: the invariants of `State.OperationsInv` through every step
(spec/60_exceptions.md R77, R79; spec/70_reset_and_hazards.md R87). -/

namespace Sys2Proof.Machine

variable {s t : State} {u p : Nat} {f : Frame} {below : List Frame}

/-! ### Receive buffers of instances with operations in progress -/

/-- Every instance with an operation in progress is still initialised, and its receive buffer lent as before. -/
def State.KeepsLoansInUse (s t : State) : Prop := ∀ v f i, f ∈ s.stackOf v → s.inst f.port = some i →
  ∃ j, t.inst f.port = some j ∧ j.lent = i.lent

theorem State.KeepsLoansInUse.of_insts (h : t.insts = s.insts) : s.KeepsLoansInUse t :=
  fun _ _ i _ hi => ⟨i, by rwa [State.inst, h], rfl⟩

/-- Only the instance at `p` has changed, and it has no operation in progress. -/
theorem State.KeepsLoansInUse.of_unused (hp : ∀ v f, f ∈ s.stackOf v → f.port ≠ p)
    (h : ∀ q, q ≠ p → t.inst q = s.inst q) : s.KeepsLoansInUse t :=
  fun v f i hf hi => ⟨i, by rwa [h _ (hp v f hf)], rfl⟩

/-- An operation in progress stays as it can be: `FrameInv` asks only for its instance's receive buffer. -/
theorem State.KeepsLoansInUse.frameInv (h : s.KeepsLoansInUse t) {v : Nat} (hf : f ∈ s.stackOf v) (hinv : s.FrameInv f) :
    t.FrameInv f := by
  obtain ⟨i, hi, hwork⟩ := hinv
  obtain ⟨j, hj, hlent⟩ := h v f i hf hi
  refine ⟨j, hj, ?_⟩
  rwa [hlent]

/-! ### Changes of the stacks -/

/-- Operations that have ended leave the others nested. -/
theorem State.OperationsInv.of_suffix (h : s.OperationsInv) (hk : s.KeepsLoansInUse t)
    (ht : ∀ v, t.stackOf v <:+ s.stackOf v) : t.OperationsInv where
  frame v f hf := hk.frameInv ((ht v).subset hf) (h.frame v f ((ht v).subset hf))
  outer_wait v f rest g hv hg := by
    obtain ⟨ended, hs⟩ := ht v
    rw [hv] at hs
    cases ended with
    | nil => exact h.outer_wait v f rest g hs.symm hg
    | cons e es => exact h.outer_wait v e _ g hs.symm (by simp [hg])
  feed_outermost v above f below hv hf := by
    obtain ⟨ended, hs⟩ := ht v
    rw [hv, ← List.append_assoc] at hs
    exact h.feed_outermost v _ f below hs.symm hf
  one_thread v w f g hf hg := h.one_thread v w f g ((ht v).subset hf) ((ht w).subset hg)

/-- An operation placed innermost on a thread keeps the nesting, where the operations around it wait, a P_FEED has none around
it on the same instance, and no other thread has one there. -/
theorem State.OperationsInv.push (h : s.OperationsInv) (hk : s.KeepsLoansInUse t) (hbelow : below <:+ s.stackOf u)
    (hwait : ∀ g ∈ below, g.waiting = true) (hf : t.FrameInv f) (hfeed : f.isFeed = true → ∀ g ∈ below, g.port ≠ f.port)
    (halone : ∀ v, ∀ g ∈ s.stackOf v, g.port = f.port → v = u)
    (ht : ∀ v, t.stackOf v = if v = u then f :: below else s.stackOf v) : t.OperationsInv := by
  have hmem : ∀ v, ∀ g ∈ t.stackOf v, (v = u ∧ g = f) ∨ g ∈ s.stackOf v := by
    intro v g hg
    rw [ht] at hg
    split at hg
    · next hv =>
      rcases List.mem_cons.mp hg with rfl | hg
      · exact .inl ⟨hv, rfl⟩
      · exact .inr (hv ▸ hbelow.subset hg)
    · exact .inr hg
  obtain ⟨ended, hended⟩ := hbelow
  refine ⟨fun v g hg => ?_, fun v g rest g' hv hg' => ?_, fun v above g rest hv hg => ?_, fun v w g g' hg hg' hport => ?_⟩
  · rcases hmem v g hg with ⟨-, rfl⟩ | hg
    · exact hf
    · exact hk.frameInv hg (h.frame v g hg)
  · rw [ht] at hv
    split at hv
    · obtain ⟨-, rfl⟩ := List.cons.inj hv
      exact hwait g' hg'
    · exact h.outer_wait v g rest g' hv hg'
  · rw [ht] at hv
    split at hv
    · cases above with
      | nil =>
        obtain ⟨rfl, rfl⟩ := List.cons.inj hv
        exact hfeed hg
      | cons e es =>
        obtain ⟨-, rfl⟩ := List.cons.inj hv
        exact h.feed_outermost u (ended ++ es) g rest (by rw [← hended, List.append_assoc]; rfl) hg
    · exact h.feed_outermost v above g rest hv hg
  · rcases hmem v g hg with ⟨rfl, rfl⟩ | hg <;> rcases hmem w g' hg' with ⟨rfl, rfl⟩ | hg'
    · rfl
    · exact (halone w g' hg' hport.symm).symm
    · exact halone v g hg hport
    · exact h.one_thread v w g g' hg hg' hport

/-- From `s` to `t` the innermost operation `f` of thread `u`, on top of `below`, has ended or has gone on as one that is as it
can be if `f` is. -/
def State.Advances (s t : State) (u : Nat) (f : Frame) (below : List Frame) : Prop :=
  (∀ v, t.stackOf v = if v = u then below else s.stackOf v) ∨
  ∃ f', f'.port = f.port ∧ f'.isFeed = f.isFeed ∧ (t.FrameInv f → t.FrameInv f') ∧
    ∀ v, t.stackOf v = if v = u then f' :: below else s.stackOf v

theorem State.OperationsInv.advance (h : s.OperationsInv) (hs : s.stackOf u = f :: below) (hk : s.KeepsLoansInUse t)
    (ha : s.Advances t u f below) : t.OperationsInv := by
  have hbelow : below <:+ s.stackOf u := hs ▸ List.suffix_cons f below
  have htop : f ∈ s.stackOf u := hs ▸ List.mem_cons_self
  rcases ha with ht | ⟨f', hport, hfeed, hinv, ht⟩
  · refine h.of_suffix hk fun v => ?_
    rw [ht]
    split
    · next hv => rwa [hv]
    · exact List.suffix_rfl
  · refine h.push hk hbelow (fun g => h.outer_wait u f below g hs) (hinv (hk.frameInv htop (h.frame u f htop))) ?_ ?_ ht
    · rw [hport, hfeed]
      exact h.feed_outermost u [] f below hs
    · intro v g hg hg'
      exact h.one_thread v u g f hg htop (hg'.trans hport)

/-! ### The kinds of step -/

/-- Where no P_FEED of a thread is at a byte, every operation of the thread waits. -/
theorem State.OperationsInv.all_wait (h : s.OperationsInv) (hr : s.running u = false) :
    ∀ g ∈ s.stackOf u, g.waiting = true := by
  cases hs : s.stackOf u with
  | nil => simp
  | cons f below =>
    refine List.forall_mem_cons.mpr ⟨?_, fun g => h.outer_wait u f below g hs⟩
    obtain ⟨port, work, waiting⟩ := f
    obtain ⟨i, -, hwork⟩ := h.frame u _ (hs ▸ List.mem_cons_self)
    cases work with
    | feed src n pos =>
      by_contra hw
      obtain rfl : waiting = false := by simpa using hw
      exact absurd (State.running_iff.mpr ⟨port, src, n, pos, below, hs⟩) (by simp [hr])
    | sink src n todo final => exact hwork.2.1

/-- An instance that neither another thread nor this one has an operation on has none in progress. -/
theorem State.unused_of_outside (h1 : s.busyElsewhere = false) (h2 : s.inOwnHandler = false) (v : Nat) (f : Frame)
    (hf : f ∈ s.stackOf v) : f.port ≠ s.cur.port := fun hp =>
  State.inOwnHandler_false h2 (by rwa [State.busyElsewhere_false h1 hf hp] at hf) hp

/-- The stacks and instances are all that the invariant speaks of. -/
theorem State.OperationsInv.of_same (h : s.OperationsInv) (hi : t.insts = s.insts) (ht : t.threads = s.threads) :
    t.OperationsInv :=
  h.of_suffix (.of_insts hi) fun v => by rw [State.stackOf, State.stackOf, ht]

/-- A command that is taken where every operation of its thread waits. -/
theorem exec_command_operationsInv {op : Instr} (hc : ∀ j, byteEffect j op = none) (h : s.OperationsInv)
    (hr : s.running s.cur.thread = false) (hx : exec op s = .next t) : t.OperationsInv := by
  obtain ⟨hbusy, ⟨base, bs, st, v, -, rfl⟩ | ⟨j, hown, -, -, rfl⟩ | ⟨f, es, hport, hf, hfeed, rfl⟩⟩ :=
    exec_command_next hc hx
  · exact h.of_same rfl rfl
  · refine h.of_suffix (.of_unused (State.unused_of_outside hbusy hown) fun q hq => ?_) fun v => List.suffix_rfl
    simp [State.setInst_inst, hq]
  · refine h.push (.of_insts rfl) List.suffix_rfl (h.all_wait hr) hf (fun hfd g hg => ?_) (fun v g hg hg' => ?_)
      fun v => State.push_stackOf _ f v
    · rw [hport]
      exact State.inOwnHandler_false (hfeed hfd) hg
    · exact State.busyElsewhere_false hbusy hg (hg'.trans hport)

theorem State.ByteDone.stackOf {port n pos : Nat} {src : BufRef} {i : Inst} {m : Memory} {ev : Option Event}
    (h : s.ByteDone t port src n pos below i m ev) :
    (∀ v, t.stackOf v = if v = s.cur.thread then below else s.stackOf v) ∨
    ∃ w, (w = false → pos + 1 < n) ∧
      ∀ v, t.stackOf v = if v = s.cur.thread then ⟨port, .feed src n (pos + 1), w⟩ :: below else s.stackOf v := by
  obtain ⟨-, -, -, -, hcur, hother, hev⟩ := h
  have hstk : ∀ l, t.stack = l → ∀ v, t.stackOf v = if v = s.cur.thread then l else s.stackOf v := by
    intro l hl v
    split
    · next hv => rw [hv, ← hl, State.stack, hcur]
    · next hv => exact hother v hv
  cases ev with
  | some e => exact .inr ⟨true, by simp, hstk _ hev.1⟩
  | none =>
    dsimp only at hev
    split at hev
    · next hpos => exact .inr ⟨false, fun _ => hpos, hstk _ hev.1⟩
    · exact .inl (hstk _ hev.1)

/-- A wire byte advances its P_FEED. -/
theorem State.ByteDone.operationsInv {port n pos : Nat} {src : BufRef} {i j : Inst} {m : Memory} {ev : Option Event}
    (h : s.OperationsInv) (hat : s.AtByte port src n pos below i) (hlent : j.lent = i.lent)
    (hdone : s.ByteDone t port src n pos below j m ev) : t.OperationsInv := by
  obtain ⟨hs, hi⟩ := hat
  have ⟨hnew, hother, _⟩ := hdone
  have hk : s.KeepsLoansInUse t := by
    intro v f k _ hfk
    by_cases hp : f.port = port
    · rw [hp, hi] at hfk
      rw [hp, ← Option.some.inj hfk]
      exact ⟨j, hnew, hlent⟩
    · exact ⟨k, by rwa [hother _ hp], rfl⟩
  refine h.advance hs hk ?_
  rcases hdone.stackOf with ht | ⟨w, hw, ht⟩
  · exact .inl ht
  · refine .inr ⟨⟨port, .feed src n (pos + 1), w⟩, rfl, rfl, ?_, ht⟩
    rintro ⟨k, hik, -, hn, hpos, hover⟩
    exact ⟨k, hik, hpos rfl, hn, hw, hover⟩

/-- What an operation goes on as, once the host has taken its event. -/
theorem State.resume_goOn_advances (s : State) (port : Nat) (work : Work) (below : List Frame) :
    s.Advances ((s.resume port below).goOn port work) s.cur.thread ⟨port, work, true⟩ below := by
  have hpush : ∀ (z : State) (f : Frame), z.cur.thread = s.cur.thread → z.stackOf = (s.resume port below).stackOf →
      ∀ v, (z.push f).stackOf v = if v = s.cur.thread then f :: below else s.stackOf v := by
    intro z f hcur hz v
    rw [State.push_stackOf, State.stack, hz, hcur, State.resume_stackOf, State.resume_stackOf, if_pos rfl]
    split <;> rfl
  have hended : ∀ v, (s.resume port below).stackOf v = if v = s.cur.thread then below else s.stackOf v :=
    State.resume_stackOf s port below
  cases work with
  | feed src n pos =>
    by_cases hpos : pos < n
    · rw [State.goOn, State.continueFeed_more _ _ _ hpos]
      refine .inr ⟨⟨port, .feed src n pos, false⟩, rfl, rfl, ?_, hpush _ _ (by simp) rfl⟩
      rintro ⟨i, hi, hle, hn, -, hover⟩
      exact ⟨i, hi, hle, hn, fun _ => hpos, hover⟩
    · rw [State.goOn, State.continueFeed_end _ _ _ hpos]
      exact .inl hended
  | sink src n todo final =>
    cases todo with
    | nil => exact .inl hended
    | cons e es => exact .inr ⟨⟨port, .sink src n es final, true⟩, rfl, rfl, id, hpush _ _ (by simp [State.emit]) rfl⟩

theorem State.handlerReturn_operationsInv (h : s.OperationsInv) (hx : s.handlerReturn = .next t) : t.OperationsInv := by
  obtain ⟨port, work, below, hs, rfl⟩ := State.handlerReturn_next hx
  refine h.advance hs (.of_insts (by cases work <;> simp)) ?_
  have hgo := s.resume_goOn_advances port work below
  cases work <;> exact hgo

/-- The end of an instance, which has no operation in progress. -/
theorem State.endInstance_operationsInv (h : s.OperationsInv) (hx : s.endInstance = .next t) : t.OperationsInv := by
  obtain ⟨hbusy, hown, rfl⟩ := State.endInstance_next hx
  refine h.of_suffix (.of_unused (State.unused_of_outside hbusy hown) fun q hq => ?_) fun v => List.suffix_rfl
  simp [State.inst, Store.get_erase, hq]

/-- Settles O58, by the kind of step. -/
theorem stepsKeepOperationsNested : Obligations.StepsKeepOperationsNested := by
  intro s t h hx
  have hserve : ∀ rest u q, (s.serving rest u q).OperationsInv := fun _ _ _ => h.of_same rfl rfl
  rcases step_effect hx with ⟨rest, -, rfl⟩ | ⟨u, q, c, rest, op, -, hr, hc, hx⟩ |
    ⟨u, q, st, ep, b, rest, src, n, pos, below, i, -, hs, hi, -, hdone⟩ | ⟨u, rest, -, hx⟩ |
    ⟨u, a, v, rest, -, hx⟩ | ⟨u, q, rest, -, hx⟩
  · exact h.of_same rfl rfl
  · exact exec_command_operationsInv hc (hserve rest u q) hr hx
  · exact State.ByteDone.operationsInv (hserve rest u q) ⟨hs, hi⟩ (Inst.afterByte_lent _ _ _) hdone
  · exact State.handlerReturn_operationsInv (hserve _ _ _) hx
  · obtain ⟨-, -, rfl⟩ := State.hostWrite_next hx
    exact h.of_same rfl rfl
  · exact State.endInstance_operationsInv (hserve _ _ _) hx

end Sys2Proof.Machine

/-! PROOFS. Nesting, concurrent use, errors, isolation of instances, and the idle block (spec/60_exceptions.md R72, R75, R77,
R79, R80). -/

namespace Sys2Proof.Machine

variable {s t : State}

/-! ### Admission -/

theorem State.acceptOutside_reentrant {k : State → Answer} (h1 : s.busyElsewhere = false) (h2 : s.inOwnHandler = true) :
    s.acceptOutside k = .refused .reentrant := by simp [State.acceptOutside, State.accept, h1, h2]

theorem State.acceptOutside_busy {k : State → Answer} (h : s.busyElsewhere = true) :
    s.acceptOutside k = .refused .concurrent := State.accept_busy h

theorem State.inOwnHandler_iff : s.inOwnHandler = true ↔ ∃ f ∈ s.stack, f.port = s.cur.port := by
  simp [State.inOwnHandler]

theorem State.busyElsewhere_of_frame {u : Nat} {f : Frame} (hu : u ≠ s.cur.thread) (hf : f ∈ s.stackOf u)
    (hp : f.port = s.cur.port) : s.busyElsewhere = true := by
  obtain ⟨e, he, rfl, hfe⟩ := State.frame_of_stackOf hf
  refine List.any_eq_true.mpr ⟨e, he, ?_⟩
  simpa [hu] using ⟨f, hfe, hp⟩

/-- Every command is admitted first, and none is while another thread's operation is on the instance. -/
theorem exec_command_busy {op : Instr} (hc : ∀ j, byteEffect j op = none) (h : s.busyElsewhere = true) :
    exec op s = .refused .concurrent := by
  cases op
  case crc32 src n => rw [exec, execCrc32, State.accept_busy h]
  case escsize src n => rw [exec, execEscsize, State.accept_busy h]
  case encBuf src len dst cap => rw [exec, execEncBuf, State.accept_busy h]
  case encSink src len flush => rw [exec, execEncSink, State.accept_busy h]
  case pInit o rx cap hp hb hf c => rw [exec, execPInit, State.acceptOutside_busy h]
  case pFeed src n => rw [exec, execPFeed, State.acceptOutside_busy h]
  all_goals exact absurd (hc ⟨.LE, ⟨0, 0⟩, 0, false, false, false, ⟨0⟩, Regs.initial, 0, 0⟩) (by simp [byteEffect])

/-- Settles O46: the six commands, while an operation of another thread is on the instance. -/
theorem concurrentUseIsRefused : Obligations.ConcurrentUseIsRefused := by
  intro s u f hu hf hp
  have refuses : ∀ op : Instr, (∀ j, byteEffect j op = none) → exec op s = .refused .concurrent :=
    fun op hc => exec_command_busy hc (State.busyElsewhere_of_frame hu hf hp)
  exact ⟨fun src n => ⟨refuses _ fun _ => rfl, refuses _ fun _ => rfl, refuses _ fun _ => rfl⟩,
    fun src dst len cap flush => ⟨refuses _ fun _ => rfl, refuses _ fun _ => rfl⟩,
    fun o rx cap hp hb hf c => refuses _ fun _ => rfl⟩

/-! ### Nesting -/

/-- What no lent buffer overlaps, none overlaps a part of. -/
theorem State.lentTo_part {r q : BufRef} (h : s.lentTo r = false) (h1 : r.base ≤ q.base)
    (h2 : q.base + q.size ≤ r.base + r.size) : s.lentTo q = false := by
  simp only [State.lentTo, List.any_eq_false, Bool.not_eq_true] at h ⊢
  exact fun e he => BufRef.overlaps_part (h e he) h1 h2

/-- ENC_BUF with no hazard and no lent byte in its destination answers, whether the frame fits or not. -/
theorem encBufInto_answers {o : ByteOrder} {q : List Byte} {dst : BufRef} {cap : Nat}
    (hl : s.lentTo (dst.first cap) = false) : ∃ t, encBufInto s o q dst cap = .next t := by
  by_cases hc : cap < frameSize o q
  · exact ⟨_, encBufInto_short hc⟩
  · rw [encBufInto_fits (Nat.le_of_not_lt hc)]
    exact ⟨_, writeFrame_unlent (State.lentTo_part hl (Nat.le_refl _) (Nat.add_le_add_left (Nat.le_of_not_lt hc) _))⟩

/-- Settles O45: by whether an operation on the instance is on the stack of the thread, for the two commands that ask; the
others do not. -/
theorem nestingInHandlers : Obligations.NestingInHandlers := by
  have holds : ∀ {r : BufRef} {n : Nat}, n ≤ r.size → r.holds n = true := decide_eq_true
  refine ⟨fun s f hf hp hbusy => ?_, fun s i hbusy hi => ?_, fun s i hbusy hi hout => ?_⟩
  · have hown : s.inOwnHandler = true := State.inOwnHandler_iff.mpr ⟨f, hf, hp⟩
    exact ⟨fun o rx cap hp hb hf c => by rw [exec, execPInit, State.acceptOutside_reentrant hbusy hown],
      fun src n => by rw [exec, execPFeed, State.acceptOutside_reentrant hbusy hown]⟩
  · refine ⟨fun src n hn => ⟨⟨_, execCrc32_eq hbusy (holds hn)⟩, ⟨_, execEscsize_eq hbusy (holds hn)⟩⟩,
      fun src len flush hn => ⟨_, execEncSink_eq hbusy (holds hn) hi⟩, fun src dst len cap hn hd hz hl => ?_⟩
    obtain ⟨t, ht⟩ := encBufInto_answers (o := i.pOrder) (q := s.srcBytes src len.toNat) hl
    exact ⟨t, (execEncBuf_eq hbusy (holds hn) (holds hd) hi hz).trans ht⟩
  · have hown : s.inOwnHandler = false := by
      rw [← Bool.not_eq_true, State.inOwnHandler_iff]
      exact fun ⟨f, hf, hp⟩ => hout f hf hp
    exact ⟨fun o rx cap hp hb hf c hc => ⟨_, execPInit_eq hbusy hown (holds hc)⟩,
      fun src n hn hover => ⟨_, execPFeed_eq hbusy hown (holds hn) hi hover⟩⟩

/-! ### Errors -/

/-- From `s` to `t` items were put out, none of them a status other than OK. -/
def State.PutsNoError (s t : State) : Prop :=
  ∃ xs, t.out = s.out ++ xs ∧ ∀ o ∈ xs, ∀ st v, o.item = .result st v → st = .OK

theorem State.PutsNoError.of_out (h : t.out = s.out) : s.PutsNoError t := ⟨[], by simp [h], by simp⟩

theorem State.PutsNoError.of_event {u p d : Nat} {e : Event} (h : t.out = s.out ++ outputs u p d [.event e]) :
    s.PutsNoError t := ⟨_, h, by simp [outputs]⟩

theorem State.PutsNoError.of_ok {u p d : Nat} {v : Option Value} (h : t.out = s.out ++ outputs u p d [.result .OK v]) :
    s.PutsNoError t := ⟨_, h, by simp [outputs]⟩

theorem State.PutsNoError.continueFeed (port : Nat) (src : BufRef) (n pos : Nat) :
    s.PutsNoError (s.continueFeed port src n pos) := by
  by_cases hpos : pos < n
  · rw [State.continueFeed_more _ _ _ hpos]; exact .of_out rfl
  · rw [State.continueFeed_end _ _ _ hpos]; exact .of_ok rfl

theorem State.ByteDone.putsNoError {port n pos : Nat} {src : BufRef} {below : List Frame} {i : Inst} {m : Memory}
    {ev : Option Event} (h : s.ByteDone t port src n pos below i m ev) : s.PutsNoError t := by
  obtain ⟨-, -, -, -, -, -, hev⟩ := h
  cases ev with
  | some e => exact .of_event hev.2
  | none =>
    dsimp only at hev
    split at hev
    · exact .of_out hev.2
    · exact .of_ok hev.2

/-- The two commands that can report an error (R72 to R74). -/
def Encodes (op : Instr) : Prop :=
  (∃ src len dst cap, op = .encBuf src len dst cap) ∨ ∃ src len flush, op = .encSink src len flush

/-- An instruction puts out no error, or it is an encoder command that has done nothing but report. -/
theorem exec_noError_or_reports {op : Instr} (h : exec op s = .next t) :
    s.PutsNoError t ∨ (Encodes op ∧ ∃ st v, t = s.report st v) := by
  have byte : (∀ j, (byteEffect j op).isSome) → s.PutsNoError t := fun hb => by
    obtain ⟨_, _, _, _, _, _, _, -, -, -, hdone⟩ := exec_byte_next hb h
    exact hdone.putsNoError
  cases op with
  | crc32 src n => obtain ⟨-, -, rfl⟩ := execCrc32_next h; exact .inl (.of_ok rfl)
  | escsize src n => obtain ⟨-, -, rfl⟩ := execEscsize_next h; exact .inl (.of_ok rfl)
  | encBuf src len dst cap =>
    obtain ⟨i, -, -, -, rfl | ⟨-, -, rfl⟩⟩ := execEncBuf_next h
    · exact .inr ⟨.inl ⟨src, len, dst, cap, rfl⟩, _, _, rfl⟩
    · exact .inl (.of_ok rfl)
  | encSink src len flush =>
    obtain ⟨i, -, -, -, rfl⟩ := execEncSink_next h
    cases hm : missingAtFirst Config.pFlushCheck i flush with
    | true => exact .inr ⟨.inr ⟨src, len, flush, rfl⟩, _, _, encSinkWith_missing hm⟩
    | false => rw [encSinkWith_begins hm, sinkEvents_cons]; exact .inl (.of_event rfl)
  | pInit o rx cap hp hb hf c => obtain ⟨-, -, -, rfl⟩ := execPInit_next h; exact .inl (.of_ok rfl)
  | pFeed src n => obtain ⟨i, -, -, -, -, -, rfl⟩ := execPFeed_next h; exact .inl (.continueFeed _ _ _ _)
  | marker => exact .inl (byte fun _ => rfl)
  | noise b => exact .inl (byte fun _ => rfl)
  | escapedData b => exact .inl (byte fun _ => rfl)
  | escape => exact .inl (byte fun _ => rfl)
  | data b => exact .inl (byte fun _ => rfl)

/-- Settles O51: only an encoder command can put out an error. -/
theorem onlyTheEncoderReportsErrors : Obligations.OnlyTheEncoderReportsErrors := by
  intro op s t h hbuf hsink
  rcases exec_noError_or_reports h with hno | ⟨⟨src, len, dst, cap, hop⟩ | ⟨src, len, flush, hop⟩, -⟩
  · exact hno
  · exact absurd hop (hbuf src len dst cap)
  · exact absurd hop (hsink src len flush)

/-- Settles O52: an instruction that puts out an error has done nothing but report. -/
theorem errorsArePrecise : Obligations.ErrorsArePrecise := by
  intro op s t th po d st v h hout hne
  rcases exec_noError_or_reports h with ⟨xs, hxs, hok⟩ | ⟨-, st', v', rfl⟩
  · obtain rfl := List.append_cancel_left (hout.symm.trans hxs)
    exact absurd (hok _ List.mem_cons_self st v rfl) hne
  · have hput := List.append_cancel_left hout
    cases hput
    exact ⟨rfl, rfl, rfl, rfl⟩

/-! ### Isolation -/

/-- Settles O53: a step changes at most the instance that it serves or ends, and that parser writes in no other's buffer. -/
theorem instancesAreIsolated : Obligations.InstancesAreIsolated := by
  intro s t q i h hq hrun hend
  cases step_instEffect h with
  | kept hi hm => exact ⟨(hi q).trans hq, fun a => hm q i a hq⟩
  | init u p c j hmove _ _ hi hm =>
    have hqp : q ≠ p := by rintro rfl; exact hrun _ _ hmove
    exact ⟨by rw [hi, if_neg hqp, hq], fun _ _ _ => by rw [hm]⟩
  | byte u p st ep b j hmove _ hstore hi hm =>
    have hqp : q ≠ p := by rintro rfl; exact hrun _ _ hmove
    refine ⟨by rw [hi, if_neg hqp, hq], fun a hlo hhi => ?_⟩
    rw [hm]
    refine Inst.rxStore_read fun k v hx ha => ?_
    rw [hx, State.storeRefused_some] at hstore
    have houtside := State.lentToOther_outside hstore.1 hqp hq hlo hhi
    simp [oneByte, ha] at houtside
  | ended u p hmove hi hm =>
    have hqp : q ≠ p := by rintro rfl; exact hend _ hmove
    exact ⟨by rw [hi, if_neg hqp, hq], fun _ _ _ => by rw [hm]⟩

/-! ### The idle block -/

/-- Settles O8: with no input and no P_FEED at a byte the next move is none. -/
theorem idleBlockKeepsItsState : Obligations.IdleBlockKeepsItsState := by
  intro s hin hrun
  have hfirst : s.firstRunning = none := List.find?_eq_none.mpr fun t _ => by simp [hrun t]
  have hmove : s.nextMove = (.idle, s.input) := by simp [State.nextMove, hin, hfirst]
  simp [step, hmove]

end Sys2Proof.Machine

/-! PROOFS. States that differ only in the counters and the running checksum of instances in AM answer alike
(spec/70_reset_and_hazards.md R82): first the instances, then the states, then each kind of answer. -/

namespace Sys2Proof.Machine

variable {s t : State} {i j : Inst} {r q : Regs} {e e' : ByteEffect}

/-! ### Registers and instances -/

/-- What `Inst.Alike` asks of the registers. -/
structure Regs.Alike (r q : Regs) : Prop where
  state : r.state = q.state
  escapePending : r.escapePending = q.escapePending
  eq_of_not_await : r.state ≠ .AM → r = q

theorem Regs.Alike.refl (r : Regs) : r.Alike r := ⟨rfl, rfl, fun _ => rfl⟩

theorem Regs.Alike.setEscape (h : r.Alike q) (v : Bool) : (r.setEscape v).Alike (q.setEscape v) :=
  ⟨h.state, rfl, fun hne => congrArg (Regs.setEscape · v) (h.eq_of_not_await hne)⟩

/-- In AM no data byte has a handler, so it changes nothing (R62). -/
theorem Regs.dataStep_await {o : ByteOrder} {cap : Nat} {d : Byte} (h : r.state = .AM) :
    r.dataStep o cap d = ⟨r, none, false⟩ := by simp [Regs.dataStep, h]

theorem Inst.alike_iff : i.Alike j ↔ { i with regs := j.regs } = j ∧ i.regs.Alike j.regs :=
  ⟨fun ⟨hcfg, hst, hep, hne⟩ => ⟨hcfg, hst, hep, hne⟩, fun ⟨hcfg, hst, hep, hne⟩ => ⟨hcfg, hst, hep, hne⟩⟩

theorem Inst.Alike.refl (i : Inst) : i.Alike i := Inst.alike_iff.mpr ⟨rfl, .refl i.regs⟩

theorem Inst.Alike.regs (h : i.Alike j) : i.regs.Alike j.regs := (Inst.alike_iff.mp h).2

/-- The configuration and what the parser has written do not differ. -/
theorem Inst.Alike.sameButRegs (h : i.Alike j) : i.SameButRegs j := h.1

theorem Inst.Alike.withRegs (h : i.Alike j) (hr : r.Alike q) : Inst.Alike { i with regs := r } { j with regs := q } :=
  Inst.alike_iff.mpr ⟨congrArg (fun x : Inst => { x with regs := q }) h.sameButRegs, hr⟩

theorem Inst.Alike.lent (h : i.Alike j) : i.lent = j.lent := by rw [← h.sameButRegs]; rfl

/-- Outside AM nothing may differ. -/
theorem Inst.Alike.eq_of_not_await (h : i.Alike j) (hs : i.regs.state ≠ .AM) : i = j := by
  rw [← h.sameButRegs, ← h.regs.eq_of_not_await hs]

/-! ### States -/

theorem State.Alike.insts (h : s.Alike t) : InstsRel Inst.Alike s.insts t.insts := h.2

theorem State.Alike.sameButRegs (h : s.Alike t) : s.SameButRegs t :=
  ⟨h.1, h.insts.imp fun _ _ hab => ⟨hab.1, hab.2.sameButRegs⟩⟩

theorem State.Alike.port (h : s.Alike t) : s.cur.port = t.cur.port := by rw [← h.1]

theorem State.Alike.stack (h : s.Alike t) : s.stack = t.stack := by rw [← h.1]; rfl

theorem State.Alike.busyElsewhere (h : s.Alike t) : s.busyElsewhere = t.busyElsewhere := by rw [← h.1]; rfl

theorem State.Alike.inOwnHandler (h : s.Alike t) : s.inOwnHandler = t.inOwnHandler := by rw [← h.1]; rfl

theorem State.Alike.sourceInUse (h : s.Alike t) (b : BufRef) : s.sourceInUse b = t.sourceInUse b := by rw [← h.1]; rfl

theorem State.Alike.lentTo (h : s.Alike t) (b : BufRef) : s.lentTo b = t.lentTo b :=
  h.insts.lentTo (fun _ _ => Inst.Alike.lent) b

theorem State.Alike.lentToOther (h : s.Alike t) (p : Nat) (b : BufRef) : s.lentToOther p b = t.lentToOther p b :=
  h.insts.any _ _ fun k i j hij => by show (k != p && i.lent.overlaps b) = (k != p && j.lent.overlaps b); rw [hij.lent]

theorem State.Alike.put (h : s.Alike t) (x : Item) : (s.put x).Alike (t.put x) := ⟨congrArg (State.put · x) h.1, h.2⟩

theorem State.Alike.setMem (h : s.Alike t) (m : Memory) : (s.setMem m).Alike (t.setMem m) :=
  ⟨congrArg (State.setMem · m) h.1, h.2⟩

theorem State.Alike.atPort (h : s.Alike t) (p : Nat) : (s.atPort p).Alike (t.atPort p) :=
  ⟨congrArg (State.atPort · p) h.1, h.2⟩

theorem State.Alike.serving (h : s.Alike t) (rest : List HostInput) (u p : Nat) :
    (s.serving rest u p).Alike (t.serving rest u p) := ⟨congrArg (State.serving · rest u p) h.1, h.2⟩

theorem State.Alike.setStack (h : s.Alike t) (fs : List Frame) : (s.setStack fs).Alike (t.setStack fs) := by
  cases fs with
  | nil => exact ⟨congrArg (State.setStack · []) h.1, h.2⟩
  | cons f fs => exact ⟨congrArg (State.setStack · (f :: fs)) h.1, h.2⟩

theorem State.Alike.push (h : s.Alike t) (f : Frame) : (s.push f).Alike (t.push f) := ⟨congrArg (State.push · f) h.1, h.2⟩

theorem State.Alike.emitAndWait (h : s.Alike t) (ev : Event) (f : Frame) : (s.emitAndWait ev f).Alike (t.emitAndWait ev f) :=
  ⟨congrArg (State.emitAndWait · ev f) h.1, h.2⟩

theorem State.Alike.setInst (h : s.Alike t) (p : Nat) (hij : i.Alike j) : (s.setInst p i).Alike (t.setInst p j) :=
  ⟨congrArg (State.setInst · p j) h.1, h.insts.set p hij⟩

/-- P_INIT begins the same loan with the same registers in both. -/
theorem State.Alike.initInst (h : s.Alike t) (i : Inst) : (s.initInst i).Alike (t.initInst i) := by
  have hset := h.setInst t.cur.port (Inst.Alike.refl i)
  unfold State.initInst
  rw [h.port]
  exact ⟨congrArg (fun x : State => { x with loans := x.loans + 1 }) hset.1, hset.2⟩

theorem State.Alike.eraseInst (h : s.Alike t) (p : Nat) :
    State.Alike { s with insts := Store.erase s.insts p } { t with insts := Store.erase t.insts p } :=
  ⟨congrArg (fun x : State => { x with insts := Store.erase t.insts p }) h.1, h.insts.erase p⟩

theorem State.Alike.continueFeed (h : s.Alike t) (port : Nat) (src : BufRef) (n pos : Nat) :
    (s.continueFeed port src n pos).Alike (t.continueFeed port src n pos) := by
  unfold State.continueFeed
  split
  · exact h.push _
  · exact h.put _

theorem State.Alike.continueSink (h : s.Alike t) (port : Nat) (src : BufRef) (n : Nat) (todo : List Event) (final : Status) :
    (s.continueSink port src n todo final).Alike (t.continueSink port src n todo final) := by
  cases todo with
  | nil => exact h.put _
  | cons ev todo => exact h.emitAndWait ev _

theorem State.Alike.afterEvent (h : s.Alike t) (ev : Option Event) (port : Nat) (src : BufRef) (n pos : Nat) :
    (s.afterEvent ev port src n pos).Alike (t.afterEvent ev port src n pos) := by
  cases ev with
  | none => exact h.continueFeed port src n pos
  | some ev => exact h.emitAndWait ev _

/-! ### Commands -/

theorem answersAlike_refused (why : Refusal) : AnswersAlike (.refused why) (.refused why) := rfl

theorem encoder_alike {op : Instr} {src dst : BufRef} {n cap : Nat} {len : BitVec 16} {flush : Bool}
    (hop : op = .crc32 src n ∨ op = .escsize src n ∨ op = .encBuf src len dst cap ∨ op = .encSink src len flush)
    (h : s.Alike t) : AnswersAlike (exec op s) (exec op t) := by
  have hmem := h.sameButRegs.mem_eq
  have hbytes : ∀ k, s.srcBytes src k = t.srcBytes src k := fun k => State.bytes_congr fun _ _ => h.sameButRegs.read _
  refine rel_encoder (fun i j hij => by rw [← hij.sameButRegs]) answersAlike_refused (fun _ => rfl) ?_ h.insts h.put
    (fun base bs x _ => ?_) h.emitAndWait hop (fun _ => hbytes _) (fun _ => hbytes _)
  · rw [← hmem]; exact h.1
  · rw [hmem]; exact (h.setMem _).put x

theorem execPInit_alike (h : s.Alike t) (o : ByteOrder) (rx : BufRef) (cap : Nat) (hp hb hf : Bool) (c : Ctx) :
    AnswersAlike (execPInit o rx cap hp hb hf c s) (execPInit o rx cap hp hb hf c t) := by
  refine rel_acceptOutside answersAlike_refused h.busyElsewhere h.inOwnHandler (rel_checked answersAlike_refused ?_)
  have hloans : s.loans = t.loans := by rw [← h.1]
  rw [hloans]
  exact (h.initInst _).put _

theorem execPFeed_alike (h : s.Alike t) (src : BufRef) (n : Nat) : AnswersAlike (execPFeed src n s) (execPFeed src n t) := by
  refine rel_acceptOutside answersAlike_refused h.busyElsewhere h.inOwnHandler (rel_checked answersAlike_refused
    (rel_withInst answersAlike_refused h.insts h.port fun i j hij => ?_))
  rw [hij.lent, h.port]
  exact rel_if (answersAlike_refused _) (h.continueFeed _ src n 0)

/-! ### Wire bytes -/

theorem State.Alike.storeRefused (h : s.Alike t) (hij : i.Alike j) (p : Nat) (x : Option (Nat × Byte)) :
    s.storeRefused p i x = t.storeRefused p j x := by
  cases x with
  | none => rfl
  | some kv =>
    have hrx : i.rxBuffer = j.rxBuffer := by rw [← hij.sameButRegs]
    simp only [State.storeRefused, hrx, h.lentToOther, h.sourceInUse]

/-- A byte is finished alike where it stores alike, emits the same event and leaves instances alike. -/
theorem State.Alike.finishByte (h : s.Alike t) (hij : i.Alike j) (hstore : e.store = e'.store)
    (hinst : (i.afterByte s.mem e).1.Alike (j.afterByte t.mem e').1)
    (hrest : (i.afterByte s.mem e).2 = (j.afterByte t.mem e').2) (below : List Frame) (p : Nat) (src : BufRef) (n pos : Nat) :
    AnswersAlike (s.finishByte below p src n pos i e) (t.finishByte below p src n pos j e') := by
  simp only [State.finishByte, hstore, h.storeRefused hij, hrest]
  cases t.storeRefused p j e'.store with
  | some why => rfl
  | none => exact ((((h.setStack below).setInst p hinst).setMem _).atPort p).afterEvent _ p src n (pos + 1)

/-- In AM the class of a byte changes registers alone, and alike in instances alike. -/
def AwaitsAlike (eff : Inst → ByteEffect) : Prop := ∀ i j : Inst, i.Alike j → i.regs.state = .AM →
  ∃ r q : Regs, eff i = ⟨r, none, false⟩ ∧ eff j = ⟨q, none, false⟩ ∧ r.Alike q

theorem awaitsAlike_dataStep (d : Byte) :
    AwaitsAlike fun i => (i.regs.setEscape false).dataStep i.pOrder i.rxCapacity d := fun _ _ h hs =>
  ⟨_, _, Regs.dataStep_await hs, Regs.dataStep_await (h.regs.state ▸ hs), h.regs.setEscape false⟩

theorem State.Alike.onFeed (h : s.Alike t) {eff : Inst → ByteEffect} (heff : AwaitsAlike eff) :
    AnswersAlike (s.onFeed eff) (t.onFeed eff) := by
  unfold State.onFeed State.inst
  rw [h.stack]
  split
  · next port src n pos below _ =>
    rcases h.insts.get port with ⟨hs, ht⟩ | ⟨i, j, hs, ht, hij⟩
    · rw [hs, ht]
      rfl
    · rw [hs, ht]
      by_cases hawait : i.regs.state = .AM
      · obtain ⟨r, q, hi, hj, hrq⟩ := heff i j hij hawait
        simp only [hi, hj]
        exact h.finishByte (e := ⟨r, none, false⟩) (e' := ⟨q, none, false⟩) hij rfl (hij.withRegs hrq)
          (by rw [h.sameButRegs.mem_eq]; rfl) below port src n pos
      · obtain rfl := hij.eq_of_not_await hawait
        have hmem := h.sameButRegs.mem_eq
        exact h.finishByte hij rfl (hmem ▸ .refl _) (by rw [hmem]) below port src n pos
  · rfl

/-! ### The step -/

theorem exec_alike (op : Instr) (h : s.Alike t) : AnswersAlike (exec op s) (exec op t) := by
  cases op with
  | crc32 src n => exact encoder_alike (dst := src) (cap := 0) (len := 0) (flush := false) (.inl rfl) h
  | escsize src n => exact encoder_alike (dst := src) (cap := 0) (len := 0) (flush := false) (.inr (.inl rfl)) h
  | encBuf src len dst cap => exact encoder_alike (n := 0) (flush := false) (.inr (.inr (.inl rfl))) h
  | encSink src len flush => exact encoder_alike (dst := src) (n := 0) (cap := 0) (.inr (.inr (.inr rfl))) h
  | pInit o rx cap hp hb hf c => exact execPInit_alike h o rx cap hp hb hf c
  | pFeed src n => exact execPFeed_alike h src n
  | marker => exact h.onFeed fun _ _ _ _ => ⟨_, _, rfl, rfl, .refl _⟩
  | noise b => exact h.onFeed fun _ _ hij _ => ⟨_, _, rfl, rfl, hij.regs⟩
  | escapedData b => exact h.onFeed (awaitsAlike_dataStep _)
  | escape => exact h.onFeed fun _ _ hij _ => ⟨_, _, rfl, rfl, hij.regs.setEscape true⟩
  | data b => exact h.onFeed (awaitsAlike_dataStep b)

/-- A byte is classified by `state` and `escape_pending`, which do not differ. -/
theorem State.Alike.fetchByte (h : s.Alike t) (u : Nat) : s.fetchByte u = t.fetchByte u := by
  have hstk : s.stackOf u = t.stackOf u := by rw [← h.1]; rfl
  unfold State.fetchByte State.inst
  rw [hstk]
  split
  · next port src n pos below _ =>
    rcases h.insts.get port with ⟨hs, ht⟩ | ⟨i, j, hs, ht, hij⟩
    · rw [hs, ht]
    · simp only [hs, ht, hij.regs.state, hij.regs.escapePending, h.sameButRegs.read]
  · rfl

theorem State.Alike.nextMove (h : s.Alike t) : s.nextMove = t.nextMove := by
  have hfetch : s.fetchByte = t.fetchByte := funext h.fetchByte
  unfold State.nextMove
  rw [hfetch, ← h.1]
  rfl

theorem State.Alike.handlerReturn (h : s.Alike t) : AnswersAlike s.handlerReturn t.handlerReturn := by
  unfold State.handlerReturn
  rw [h.stack]
  split
  · next port work below _ =>
    have hresume := (h.setStack below).atPort port
    cases work with
    | feed src n pos => exact hresume.continueFeed port src n pos
    | sink src n todo final => exact hresume.continueSink port src n todo final
  · rfl

theorem State.Alike.hostWrite (h : s.Alike t) (a : Nat) (v : Byte) : AnswersAlike (s.hostWrite a v) (t.hostWrite a v) := by
  unfold State.hostWrite
  rw [h.lentTo, h.sourceInUse, h.sameButRegs.mem_eq]
  exact rel_if (answersAlike_refused _) (rel_if (answersAlike_refused _) (h.setMem _))

theorem State.Alike.endInstance (h : s.Alike t) : AnswersAlike s.endInstance t.endInstance := by
  refine rel_acceptOutside answersAlike_refused h.busyElsewhere h.inOwnHandler ?_
  simp only [h.port]
  exact h.eraseInst _

theorem runWord_alike (h : s.Alike t) (w : Encoded) : AnswersAlike (runWord w s) (runWord w t) := by
  unfold runWord
  split
  · exact exec_alike _ h
  · rfl
  · rfl

/-- Settles O59: both states make the same move, and each kind of move answers alike. -/
theorem countersInAwaitingAreUnobservable : Obligations.CountersInAwaitingAreUnobservable := by
  intro s t h
  unfold step
  rw [h.nextMove, h.port]
  split
  · next rest _ => exact ⟨congrArg (fun x : State => { x with input := rest }) h.1, h.2⟩
  · next u p w rest _ => exact runWord_alike (h.serving rest u p) w
  · next u rest _ => exact (h.serving rest u t.cur.port).handlerReturn
  · next u a v rest _ => exact (h.serving rest u t.cur.port).hostWrite a v
  · next u p rest _ => exact (h.serving rest u p).endInstance
  · rfl

end Sys2Proof.Machine

/-! PROOFS. Reset, wire bytes with no P_FEED, instances that are not initialised, and buffer hazards
(spec/70_reset_and_hazards.md R81, R83, R86, R87, R90). -/

namespace Sys2Proof.Machine

variable {s : State} {a : Nat} {v : Byte}

/-! ### The destination of ENC_BUF -/

/-- Settles O27: the marker is one byte, and the stuffed length and checksum are at most 4 and 8. -/
theorem destinationBoundIsEnough : Obligations.DestinationBoundIsEnough := by
  intro o p
  have hlen := escSize_le (lenBytes o (BitVec.ofNat 16 p.length))
  have hcrc := escSize_le (crcBytes o (crc32 p))
  rw [lenBytes_length] at hlen
  rw [crcBytes_length] at hcrc
  unfold frameSize
  omega

/-! ### Host writes -/

/-- A step that takes a host write. -/
theorem step_write {th : Nat} {rest : List HostInput} (h : s.input = .write th a v :: rest) (hr : s.running th = false) :
    step s = (s.serving rest th s.cur.port).hostWrite a v := by
  simp only [step, State.nextMove_take h hr (by simp), HostInput.move]

theorem State.hostWrite_lent (h : s.lentTo (oneByte a) = true) : s.hostWrite a v = .refused .lentBufferWritten := if_pos h

theorem State.hostWrite_inUse (hl : s.lentTo (oneByte a) = false) (h : s.sourceInUse (oneByte a) = true) :
    s.hostWrite a v = .refused .bufferHazard := by simp [State.hostWrite, hl, h]

theorem State.hostWrite_free (hl : s.lentTo (oneByte a) = false) (h : s.sourceInUse (oneByte a) = false) :
    s.hostWrite a v = .next (s.setMem (s.mem.write a v)) := by simp [State.hostWrite, hl, h]

/-- An address outside a buffer. -/
theorem BufRef.overlaps_oneByte_false {r : BufRef} (h : a < r.base ∨ r.base + r.size ≤ a) :
    r.overlaps (oneByte a) = false := by
  rw [BufRef.overlaps_false]
  intro b hlo hhi h1 h2
  simp only [oneByte] at h1 h2
  omega

/-- A lent receive buffer that holds an address of a buffer overlaps it. -/
theorem State.lentTo_of_mem {b : BufRef} {p : Nat} {i : Inst} (hi : s.inst p = some i) (h1 : i.rxBuffer.base ≤ a)
    (h2 : a < i.rxBuffer.base + i.rxCapacity) (h3 : b.base ≤ a) (h4 : a < b.base + b.size) : s.lentTo b = true :=
  List.any_eq_true.mpr ⟨(p, i), Store.mem_of_get hi, (BufRef.overlaps_iff _ _).mpr ⟨a, h1, h2, h3, h4⟩⟩

/-- A source in use that holds an address of a buffer overlaps it. -/
theorem State.sourceInUse_of_mem {b : BufRef} {u : Nat} {f : Frame} (hf : f ∈ s.stackOf u) (h1 : f.uses.base ≤ a)
    (h2 : a < f.uses.base + f.uses.size) (h3 : b.base ≤ a) (h4 : a < b.base + b.size) : s.sourceInUse b = true :=
  List.any_eq_true.mpr ⟨f, State.mem_frames_of_stackOf hf, (BufRef.overlaps_iff _ _).mpr ⟨a, h1, h2, h3, h4⟩⟩

/-- The receive buffer of an instance whose P_FEED is in progress that holds an address of a buffer overlaps it. -/
theorem State.receiveInUse_of_mem {b : BufRef} {u : Nat} {f : Frame} {i : Inst} (hf : f ∈ s.stackOf u)
    (hfeed : f.isFeed = true) (hi : s.inst f.port = some i) (h1 : i.rxBuffer.base ≤ a)
    (h2 : a < i.rxBuffer.base + i.rxCapacity) (h3 : b.base ≤ a) (h4 : a < b.base + b.size) : s.receiveInUse b = true := by
  have hfeeding : s.feeding f.port = true := List.any_eq_true.mpr ⟨f, State.mem_frames_of_stackOf hf, by simp [hfeed]⟩
  have hover : i.lent.overlaps b = true := (BufRef.overlaps_iff _ _).mpr ⟨a, h1, h2, h3, h4⟩
  exact List.any_eq_true.mpr ⟨(f.port, i), Store.mem_of_get hi, by simp [hfeeding, hover]⟩

/-- Settles O47: the step is the host write, by whether its address is lent. -/
theorem hostWritesSpareLentBuffers : Obligations.HostWritesSpareLentBuffers := by
  intro s t a v rest hin hrun
  rw [step_write hin hrun]
  refine ⟨fun ⟨p, i, hi, h1, h2⟩ => ?_, fun hlent hused => ?_⟩
  · have hi' : (s.serving rest t s.cur.port).inst p = some i := hi
    exact State.hostWrite_lent (State.lentTo_of_mem hi' h1 h2 (Nat.le_refl a) (Nat.lt_succ_self a))
  · have hl : (s.serving rest t s.cur.port).lentTo (oneByte a) = false :=
      List.any_eq_false.mpr fun e he => by simp [BufRef.overlaps_oneByte_false (r := e.2.lent) (hlent e he)]
    have hu : (s.serving rest t s.cur.port).sourceInUse (oneByte a) = false :=
      List.any_eq_false.mpr fun f hf => by simp [BufRef.overlaps_oneByte_false (hused f hf)]
    exact ⟨_, State.hostWrite_free hl hu, Memory.read_write_same .., fun b hb => Memory.read_write_other _ _ hb,
      rfl, rfl, rfl, rfl⟩

/-! ### Buffer hazards -/

/-- ENC_BUF past its other tests. -/
theorem execEncBuf_hazard {src dst : BufRef} {len : BitVec 16} {cap : Nat} {i : Inst} (h : s.busyElsewhere = false)
    (hn : src.holds len.toNat = true) (hd : dst.holds cap = true) (hi : s.inst s.cur.port = some i)
    (hz : encBufHazard s (src.first len.toNat) (dst.first cap) = true) :
    execEncBuf src len dst cap s = .refused .bufferHazard := by
  rw [execEncBuf, State.accept_eq h, State.checked_eq (by rw [hn, hd]; rfl), State.withInst_eq hi, if_pos hz]

/-- P_FEED past its other tests. -/
theorem execPFeed_hazard {src : BufRef} {n : Nat} {i : Inst} (h : s.busyElsewhere = false) (hown : s.inOwnHandler = false)
    (hn : src.holds n = true) (hi : s.inst s.cur.port = some i) (ho : (src.first n).overlaps i.lent = true) :
    execPFeed src n s = .refused .bufferHazard := by
  rw [execPFeed, State.acceptOutside_eq h hown, State.checked_eq hn, State.withInst_eq hi, if_pos ho]

/-- Settles O49: in each case the address is one that the two buffers share. -/
theorem bufferHazardsAreRefused : Obligations.BufferHazardsAreRefused := by
  refine ⟨fun s t a v rest u f hin hrun hf h1 h2 => ?_, fun s src dst len cap a i hbusy hi hn hd hlo hhi hcase => ?_,
    fun s src n a i hbusy hown hi hn h1 h2 h3 h4 => ?_⟩
  · rw [step_write hin hrun]
    have hf' : f ∈ (s.serving rest t s.cur.port).stackOf u := hf
    cases hl : (s.serving rest t s.cur.port).lentTo (oneByte a) with
    | true => exact .inr (State.hostWrite_lent hl)
    | false =>
      exact .inl (State.hostWrite_inUse hl (State.sourceInUse_of_mem hf' h1 h2 (Nat.le_refl a) (Nat.lt_succ_self a)))
  · refine execEncBuf_hazard hbusy (decide_eq_true hn) (decide_eq_true hd) hi ?_
    simp only [encBufHazard, Bool.or_eq_true]
    rcases hcase with ⟨h1, h2⟩ | ⟨u, q, f, j, hf, hfeed, rfl, hj, h1, h2⟩ | ⟨u, f, hf, h1, h2⟩
    · exact .inl (.inl ((BufRef.overlaps_iff _ _).mpr ⟨a, h1, h2, hlo, hhi⟩))
    · exact .inr (State.receiveInUse_of_mem hf hfeed hj h1 h2 hlo hhi)
    · exact .inl (.inr (State.sourceInUse_of_mem hf h1 h2 hlo hhi))
  · exact execPFeed_hazard hbusy hown (decide_eq_true hn) hi ((BufRef.overlaps_iff _ _).mpr ⟨a, h1, h2, h3, h4⟩)

/-! ### Wire bytes with no P_FEED at a byte -/

theorem State.onFeed_notFeeding {eff : Inst → ByteEffect} (h : s.running s.cur.thread = false) :
    s.onFeed eff = .refused .notFeeding := by
  unfold State.onFeed
  split
  · next port src n pos below hs => exact absurd (State.running_iff.mpr ⟨port, src, n, pos, below, hs⟩) (by simp [h])
  · rfl

theorem State.onFeed_notInitialised {eff : Inst → ByteEffect} {port n pos : Nat} {src : BufRef} {below : List Frame}
    (hs : s.stack = ⟨port, .feed src n pos, false⟩ :: below) (hi : s.inst port = none) :
    s.onFeed eff = .refused .notInitialised := by simp [State.onFeed, hs, hi]

/-- Settles O39: every wire byte class runs by `State.onFeed`, which refuses both. -/
theorem wireByteNeedsAFeed : Obligations.WireByteNeedsAFeed := by
  intro s op b hop
  obtain ⟨eff, heff⟩ : ∃ eff, exec op s = s.onFeed eff := by
    rcases hop with rfl | rfl | rfl | rfl | rfl <;> exact ⟨_, rfl⟩
  rw [heff]
  exact ⟨State.onFeed_notFeeding, fun _ _ _ _ _ hs hi => State.onFeed_notInitialised hs hi⟩

/-! ### Before P_INIT -/

/-- Settles O44: CRC32 and ESCSIZE ask for no instance; the others ask after the tests that pass here. -/
theorem uninitialisedInstanceRefuses : Obligations.UninitialisedInstanceRefuses := by
  intro s src dst n cap len flush hbusy hn
  have hsrc : src.holds n = true := decide_eq_true hn
  refine ⟨⟨_, execCrc32_eq hbusy hsrc⟩, ⟨_, execEscsize_eq hbusy hsrc⟩, fun hi hlen hcap => ?_⟩
  have hslen : src.holds len.toNat = true := decide_eq_true hlen
  have hdst : dst.holds cap = true := decide_eq_true hcap
  refine ⟨?_, ?_, fun hown => ?_⟩
  · rw [exec, execEncBuf, State.accept_eq hbusy, State.checked_eq (by rw [hslen, hdst]; rfl), State.withInst_none hi]
  · rw [exec, execEncSink, State.accept_eq hbusy, State.checked_eq hslen, State.withInst_none hi]
  · rw [exec, execPFeed, State.acceptOutside_eq hbusy hown, State.checked_eq hsrc, State.withInst_none hi]

/-! ### Reset -/

theorem reset_inst (p : Nat) : State.reset.inst p = none := rfl

theorem reset_stackOf (u : Nat) : State.reset.stackOf u = [] := rfl

theorem reset_parserInv : State.reset.ParserInv := fun p i hi => by cases (reset_inst p).symm.trans hi

theorem reset_operationsInv : State.reset.OperationsInv where
  frame u f hf := absurd (reset_stackOf u ▸ hf) List.not_mem_nil
  outer_wait u f below g hs := by cases (reset_stackOf u).symm.trans hs
  feed_outermost u above f below hs := by cases above <;> cases (reset_stackOf u).symm.trans hs
  one_thread u _ f _ hf := absurd (reset_stackOf u ▸ hf) List.not_mem_nil

/-- Settles O55: nothing is listed at reset, and the block is idle. -/
theorem resetHasTheInvariants : Obligations.ResetHasTheInvariants :=
  ⟨⟨rfl, rfl, rfl⟩, reset_parserInv, reset_operationsInv, reset_inst, reset_stackOf, rfl, rfl⟩

end Sys2Proof.Machine

/-! PROOFS. The canonical form that every step keeps, the step of a placed word, and the end of an instance
(spec/20_memory.md §1, spec/60_exceptions.md §8, spec/70_reset_and_hazards.md §3; log entries 8, 11). -/

namespace Sys2Proof.Machine

variable {s t : State}

/-! ### The canonical form: one lemma for each update of the state -/

section canonical

variable (h : s.Canonical)
include h

theorem State.Canonical.setInst (p : Nat) (i : Inst) : (s.setInst p i).Canonical := ⟨h.1, Store.wf_set _ _ h.2.1, h.2.2⟩

theorem State.Canonical.eraseInst (p : Nat) : State.Canonical { s with insts := Store.erase s.insts p } :=
  ⟨h.1, Store.wf_erase _ h.2.1, h.2.2⟩

theorem State.Canonical.setMem {m : Memory} (hm : Memory.wf m = true) : (s.setMem m).Canonical := ⟨hm, h.2⟩

theorem State.Canonical.setStack (fs : List Frame) : (s.setStack fs).Canonical := by
  obtain ⟨hmem, hinsts, hthreads⟩ := h
  exact ⟨by rwa [State.setStack_mem], by rwa [State.setStack_insts], State.setStack_wf _ hthreads⟩

theorem State.Canonical.atPort (p : Nat) : (s.atPort p).Canonical := h

theorem State.Canonical.put (x : Item) : (s.put x).Canonical := h

theorem State.Canonical.push (f : Frame) : (s.push f).Canonical := h.setStack _

theorem State.Canonical.emitAndWait (e : Event) (f : Frame) : (s.emitAndWait e f).Canonical := (h.put _).push _

theorem State.Canonical.serving (rest : List HostInput) (u p : Nat) : (s.serving rest u p).Canonical := h

theorem State.Canonical.continueFeed (port : Nat) (src : BufRef) (n pos : Nat) :
    (s.continueFeed port src n pos).Canonical := by
  unfold State.continueFeed
  split
  · exact h.push _
  · exact h.put _

theorem State.Canonical.continueSink (port : Nat) (src : BufRef) (n : Nat) (todo : List Event) (final : Status) :
    (s.continueSink port src n todo final).Canonical := by
  cases todo with
  | nil => exact h.put _
  | cons e es => exact h.emitAndWait _ _

theorem State.Canonical.afterEvent (ev : Option Event) (port : Nat) (src : BufRef) (n pos : Nat) :
    (s.afterEvent ev port src n pos).Canonical := by
  cases ev with
  | none => exact h.continueFeed _ _ _ _
  | some e => exact h.emitAndWait _ _

end canonical

/-- A wire byte writes at most one byte of memory. -/
theorem Inst.rxStore_wf {m : Memory} (i : Inst) (x : Option (Nat × Byte)) (h : Memory.wf m = true) :
    Memory.wf (i.rxStore m x) = true := by
  cases x with
  | none => exact h
  | some kv => exact Memory.wf_write _ _ h

/-! ### The canonical form: one lemma for each kind of step -/

theorem State.Canonical.command {op : Instr} (h : s.Canonical) (hc : ∀ j, byteEffect j op = none)
    (hx : exec op s = .next t) : t.Canonical := by
  obtain ⟨-, ⟨base, bs, st, v, -, rfl⟩ | ⟨j, -, -, -, rfl⟩ | ⟨f, es, -, -, -, rfl⟩⟩ := exec_command_next hc hx
  · exact (h.setMem (Memory.wf_writeBytes _ _ h.1)).put _
  · exact h.setInst _ _
  · exact State.Canonical.push (s := { s with out := s.out ++ es }) h f

theorem State.Canonical.withByte (h : s.Canonical) (below : List Frame) (p : Nat) (j : Inst) {m : Memory}
    (hm : Memory.wf m = true) : (s.withByte below p j m).Canonical := ((h.setStack below).setInst p j).setMem hm

theorem State.Canonical.finishByte {below : List Frame} {port n pos : Nat} {src : BufRef} {i : Inst} {e : ByteEffect}
    (h : s.Canonical) (hx : s.finishByte below port src n pos i e = .next t) : t.Canonical := by
  obtain ⟨hstore, -⟩ := State.finishByte_next hx
  obtain ⟨⟨j, m, ev⟩, hbyte⟩ : ∃ r, i.afterByte s.mem e = r := ⟨_, rfl⟩
  have hm : m = i.rxStore s.mem e.store := by rw [← Inst.afterByte_mem, hbyte]
  rw [State.finishByte_eq hbyte hstore] at hx
  cases hx
  exact (h.withByte below port j (hm ▸ Inst.rxStore_wf i e.store h.1)).afterEvent _ _ _ _ _

theorem State.Canonical.onFeed {eff : Inst → ByteEffect} (h : s.Canonical) (hx : s.onFeed eff = .next t) :
    t.Canonical := by
  obtain ⟨port, src, n, pos, below, i, hat, -⟩ := State.onFeed_next hx
  exact h.finishByte ((State.onFeed_at hat).symm.trans hx)

theorem State.Canonical.exec {op : Instr} (h : s.Canonical) (hx : exec op s = .next t) : t.Canonical := by
  cases op with
  | crc32 | escsize | encBuf | encSink | pInit | pFeed => exact h.command (fun _ => rfl) hx
  | marker | noise | escapedData | escape | data => exact h.onFeed hx

theorem State.Canonical.handlerReturn (h : s.Canonical) (hx : s.handlerReturn = .next t) : t.Canonical := by
  obtain ⟨port, work, below, -, rfl⟩ := State.handlerReturn_next hx
  have hresume : ((s.setStack below).atPort port).Canonical := (h.setStack below).atPort port
  cases work with
  | feed src n pos => exact hresume.continueFeed _ _ _ _
  | sink src n todo final => exact hresume.continueSink _ _ _ _ _

/-- Settles O56, by the kind of step. -/
theorem stepsKeepTheCanonicalForm : Obligations.StepsKeepTheCanonicalForm := by
  intro s t h hx
  rcases step_next hx with ⟨rest, -, rfl⟩ | ⟨u, q, w, rest, op, -, -, hx⟩ | ⟨u, rest, -, hx⟩ |
    ⟨u, a, v, rest, -, hx⟩ | ⟨u, q, rest, -, hx⟩
  · exact h
  · exact (h.serving rest u q).exec hx
  · exact (h.serving rest u _).handlerReturn hx
  · obtain ⟨-, -, rfl⟩ := State.hostWrite_next hx
    exact (h.serving rest u _).setMem (Memory.wf_write _ _ h.1)
  · obtain ⟨-, -, rfl⟩ := State.endInstance_next hx
    exact (h.serving rest u q).eraseInst q

/-! ### The step of a placed word -/

theorem State.stackOf_fresh (s : State) : s.stackOf (Store.fresh s.threads) = [] := by
  rw [State.stackOf, Store.get_fresh _ (Nat.le_refl _), Option.getD_none]

theorem decodeTableWord_some {nbits w : Nat} {i : Instr} (h : decodeTableWord nbits w = some i) :
    ∃ e, tableWord nbits w = some e ∧ decode e = .ok i := by
  unfold decodeTableWord at h
  split at h
  · next e he =>
    refine ⟨e, he, ?_⟩
    cases hd : decode e with
    | ok j => rw [hd] at h; cases h; rfl
    | error r => rw [hd] at h; cases h
  · cases h

theorem State.withFetchWord_eq {nbits w : Nat} {e : Encoded} (h : tableWord nbits w = some e) :
    s.withFetchWord nbits w = s.place e := by simp only [State.withFetchWord, h]

@[simp] theorem State.place_out (e : Encoded) : (s.place e).out = s.out := by cases e <;> rfl

theorem State.place_inst_other (e : Encoded) {p : Nat} (hp : p ≠ Store.fresh s.insts) :
    (s.place e).inst p = s.inst p := by
  cases e with
  | command c =>
    simp only [State.place, State.placeCommand, State.inst]
    split
    · exact Store.get_set_other _ _ hp
    · rfl
  | wire st ep b => exact Store.get_set_other _ _ hp

theorem State.place_stackOf_other (e : Encoded) {u : Nat} (hu : u ≠ Store.fresh s.threads) :
    (s.place e).stackOf u = s.stackOf u := by
  cases e with
  | command c => rfl
  | wire st ep b => simp only [State.place, State.placeByte, State.stackOf, Store.get_set_other _ _ hu]

/-- A placed command is the first input, of a thread that has nothing in progress. -/
theorem step_placeCommand {c : Command} {i : Instr} (hd : decode (.command c) = .ok i) : step (s.placeCommand c) =
    exec i ((s.placeCommand c).serving s.input (Store.fresh s.threads) (Store.fresh s.insts)) := by
  have hstk : (s.placeCommand c).stackOf (Store.fresh s.threads) = [] := s.stackOf_fresh
  exact step_command rfl (by simp [State.running, hstk]) hd

/-- A placed byte is read in the first input's slot, with the parser registers that it is classified by. -/
theorem step_placeByte (st : ParserState) (ep : Bool) (b : Byte) : step (s.placeByte st ep b) =
    exec (decodeWire st ep b) ((s.placeByte st ep b).serving s.input (Store.fresh s.threads) (Store.fresh s.insts)) := by
  have hstk : (s.placeByte st ep b).stackOf (Store.fresh s.threads) =
      [⟨Store.fresh s.insts, .feed ⟨s.freshAddress, 1⟩ 1 0, false⟩] := by
    simp [State.placeByte, State.stackOf]
  have hinst : (s.placeByte st ep b).inst (Store.fresh s.insts) = some (placedInst (s.freshAddress + 1) st ep) :=
    Store.get_set_same _ _ _
  have hstep := step_fetchByte (rest := s.input) hstk hinst rfl
  simpa only [placedInst, Nat.add_zero, State.placeByte_read] using hstep

theorem step_place {e : Encoded} {i : Instr} (hd : decode e = .ok i) :
    step (s.place e) = exec i ((s.place e).serving s.input (Store.fresh s.threads) (Store.fresh s.insts)) := by
  cases e with
  | command c => exact step_placeCommand hd
  | wire st ep b =>
    rw [decode_wire] at hd
    cases hd
    exact step_placeByte st ep b

/-- Settles O10: the word runs on the fresh thread and port that it is placed at. -/
theorem placedWordRunsNext : Obligations.PlacedWordRunsNext := by
  intro s w i h
  obtain ⟨e, he, hd⟩ := decodeTableWord_some h
  rw [State.withFetchWord_eq he]
  exact ⟨_, step_place hd, rfl, State.place_out e, fun p hp => State.place_inst_other e hp,
    fun u hu => State.place_stackOf_other e hu, s.stackOf_fresh⟩

/-! ### The end of an instance -/

/-- A step that takes the end of an instance. -/
theorem step_endInstance {th p : Nat} {rest : List HostInput} (h : s.input = .endInstance th p :: rest)
    (hr : s.running th = false) : step s = (s.serving rest th p).endInstance := by
  simp only [step, State.nextMove_take h hr (by simp), HostInput.move]

theorem State.endInstance_eq (hbusy : s.busyElsewhere = false) (hown : s.inOwnHandler = false) :
    s.endInstance = .next { s with insts := Store.erase s.insts s.cur.port } := State.acceptOutside_eq hbusy hown

/-- An operation in progress on the instance is of another thread, or of the one that would end it. -/
theorem State.endInstance_inUse {u : Nat} {f : Frame} (hf : f ∈ s.stackOf u) (hp : f.port = s.cur.port) :
    s.endInstance = .refused .concurrent ∨ s.endInstance = .refused .reentrant := by
  cases hbusy : s.busyElsewhere with
  | true => exact .inl (State.acceptOutside_busy hbusy)
  | false =>
    obtain rfl : u = s.cur.thread := State.busyElsewhere_false hbusy hf hp
    exact .inr (State.acceptOutside_reentrant hbusy (State.inOwnHandler_iff.mpr ⟨f, hf, hp⟩))

/-- Settles O48: the step is the end of the instance, by whether an operation on it is in progress. -/
theorem endOfAnInstance : Obligations.EndOfAnInstance := by
  intro s t p rest hin hrun
  rw [step_endInstance hin hrun]
  refine ⟨fun hunused hbusy => ?_, fun u f hf hp => State.endInstance_inUse hf hp⟩
  have hown : (s.serving rest t p).inOwnHandler = false :=
    List.any_eq_false.mpr fun f hf => by simpa using hunused t f hf
  refine ⟨_, State.endInstance_eq hbusy hown, ?_, fun q hq => ?_, rfl, rfl, rfl, rfl⟩
  · simp [State.inst, Store.get_erase]
  · simp [State.inst, Store.get_erase, hq]

end Sys2Proof.Machine
